-- ==== Sys2Proof/Word.lean ====
section
/-! DEFINITION. The word types of the command and response ports and of the byte spaces, and the one piece of
arithmetic of the spec's notation that every file uses (00_scope.md R9; 30_encoding.md R68, R78). -/

namespace Sys2Proof

/-- One byte of PK.BUF or UP.BUF (20_memory.md R52). -/
abbrev Byte := BitVec 8

/-- A bit-count or cursor register: CNT_BITS = 24 bits (00_scope.md R6). -/
abbrev Count := BitVec 24

/-- The 16-bit IDX field, a child index or UP.ROOT (30_encoding.md R68; 10_state.md R34, R35). -/
abbrev Index := BitVec 16

/-- A command: one 32-bit command word and one 64-bit data word, the only form there is (30_encoding.md R78). -/
structure Command where
  word : BitVec 32
  data : BitVec 64
deriving DecidableEq, Repr

/-- `ceil8(n) = (n + 7) div 8` (00_scope.md R9). -/
def ceil8 (n : Nat) : Nat := (n + 7) / 8

end Sys2Proof
end

