-- ==== Sys2Proof/Syntax.lean ====
section
/-! DEFINITION. The commands of the block: one constructor for each row of spec/opcode_table.json, with the operands
the spec gives it (30_encoding.md R69, R70, R72, R79). -/

namespace Sys2Proof

/-- The 14 commands. Operands keep the widths of their fields in the command word and the data word. -/
inductive Instr where
  /-- NOP (45_common.md R120). -/
  | nop
  /-- PK.RESET (40_packer.md R85). -/
  | pkReset
  /-- PK.PUT len, pattern (40_packer.md R86): LEN = w[14:8], PATTERN = d[63:0]. -/
  | pkPut (len : BitVec 7) (pattern : BitVec 64)
  /-- PK.FINISH (40_packer.md R89). -/
  | pkFinish
  /-- PK.RDBYTE idx (40_packer.md R90). -/
  | pkRdbyte (idx : Index)
  /-- PK.STAT (40_packer.md R91). -/
  | pkStat
  /-- UP.RESET (41_unpacker.md R100). -/
  | upReset
  /-- UP.REWIND (41_unpacker.md R101). -/
  | upRewind
  /-- UP.WRBYTE idx, byte (41_unpacker.md R102). -/
  | upWrbyte (idx : Index) (byte : Byte)
  /-- UP.SETNBITS n (41_unpacker.md R103): the whole 64-bit value. -/
  | upSetnbits (n : BitVec 64)
  /-- UP.SETNODE idx, with KIND and the fields SYM, LEFT, RIGHT (41_unpacker.md R104); KIND = 3 is a command, which
  is answered BAD_ARGUMENT. -/
  | upSetnode (idx : Index) (kind : BitVec 2) (sym : Byte) (left right : Index)
  /-- UP.SETROOT idx (41_unpacker.md R105). -/
  | upSetroot (idx : Index)
  /-- UP.DECODE (41_unpacker.md R106, R107). -/
  | upDecode
  /-- UP.STAT (41_unpacker.md R109). -/
  | upStat
deriving DecidableEq, Repr

end Sys2Proof
end

