-- ==== Sys2Proof/WellFormed.lean ====
section
/-! DEFINITION. Which terms of Instr stand for a command. The widths of the operands are in their types, so the one
thing left to check is that UP.SETNODE carries no value in a field its KIND has no bits for (30_encoding.md R79: the
data word of a LEAF has SYM alone, that of an INTERNAL has LEFT and RIGHT alone, and an EMPTY or reserved one none). -/

namespace Sys2Proof

/-- SYM is an operand of KIND = LEAF (1) only. -/
def symUsedByLeafOnly (kind : BitVec 2) (sym : Byte) : Bool := kind == 1#2 || sym == 0#8

/-- LEFT is an operand of KIND = INTERNAL (2) only. -/
def leftUsedByInternalOnly (kind : BitVec 2) (left : Index) : Bool := kind == 2#2 || left == 0#16

/-- RIGHT is an operand of KIND = INTERNAL (2) only. -/
def rightUsedByInternalOnly (kind : BitVec 2) (right : Index) : Bool := kind == 2#2 || right == 0#16

/-- A term that stands for a command. -/
def Instr.wf : Instr → Bool
  | .upSetnode _ kind sym left right =>
      symUsedByLeafOnly kind sym && leftUsedByInternalOnly kind left && rightUsedByInternalOnly kind right
  | .nop => true
  | .pkReset => true
  | .pkPut _ _ => true
  | .pkFinish => true
  | .pkRdbyte _ => true
  | .pkStat => true
  | .upReset => true
  | .upRewind => true
  | .upWrbyte _ _ => true
  | .upSetnbits _ => true
  | .upSetroot _ => true
  | .upDecode => true
  | .upStat => true

end Sys2Proof
end

