-- ==== Sys2Proof/Decode.lean ====
section
/-! DEFINITION. The opcode table (30_encoding.md R73), the decoder (total: every word is a command or is rejected by
name, R67, R76) and, after it, the encoder (R80). -/

namespace Sys2Proof

/-! ### Fields (30_encoding.md R68, R70, R79) -/

/-- OP = w[7:0]. -/
def opField (w : BitVec 32) : BitVec 8 := w.extractLsb' 0 8

/-- LEN = w[14:8] (R69). -/
def lenField (w : BitVec 32) : BitVec 7 := w.extractLsb' 8 7

/-- RSV = w[15]. -/
def rsvField (w : BitVec 32) : Bool := w.getLsbD 15

/-- IDX = w[31:16] (R69). -/
def idxField (w : BitVec 32) : Index := w.extractLsb' 16 16

/-- BYTE = d[7:0] of UP.WRBYTE (R70). -/
def byteField (d : BitVec 64) : Byte := d.extractLsb' 0 8

/-- KIND = d[63:62] of UP.SETNODE (R79). -/
def kindField (d : BitVec 64) : BitVec 2 := d.extractLsb' 62 2

/-- SYM = d[7:0] when KIND = LEAF; no operand otherwise (R79). -/
def symOperand (d : BitVec 64) : Byte := if kindField d = 1#2 then d.extractLsb' 0 8 else 0#8

/-- LEFT = d[15:0] when KIND = INTERNAL; no operand otherwise (R79). -/
def leftOperand (d : BitVec 64) : Index := if kindField d = 2#2 then d.extractLsb' 0 16 else 0#16

/-- RIGHT = d[31:16] when KIND = INTERNAL; no operand otherwise (R79). -/
def rightOperand (d : BitVec 64) : Index := if kindField d = 2#2 then d.extractLsb' 16 16 else 0#16

/-! ### The decoder -/

/-- Why a word is an illegal command (30_encoding.md R74, R76). The block answers all four alike
(45_common.md R121). -/
inductive IllegalWord where
  /-- OP is 0x06 to 0x0F or 0x18 to 0xFF (R72). -/
  | unassignedOp
  /-- RSV (w[15]) is not 0 (R74). -/
  | reservedBit
  /-- LEN is not 0 in a command other than PK.PUT (R74). -/
  | unusedLen
  /-- IDX is not 0 in a command that has none (R74). -/
  | unusedIdx
deriving DecidableEq, Repr

/-- A command with neither LEN nor IDX. -/
def plainForm (w : BitVec 32) (i : Instr) : Except IllegalWord Instr :=
  if rsvField w then .error .reservedBit
  else if lenField w ≠ 0#7 then .error .unusedLen
  else if idxField w ≠ 0#16 then .error .unusedIdx
  else .ok i

/-- PK.PUT, the command with LEN. -/
def lenForm (w : BitVec 32) (i : Instr) : Except IllegalWord Instr :=
  if rsvField w then .error .reservedBit
  else if idxField w ≠ 0#16 then .error .unusedIdx
  else .ok i

/-- A command with IDX. -/
def idxForm (w : BitVec 32) (i : Instr) : Except IllegalWord Instr :=
  if rsvField w then .error .reservedBit
  else if lenField w ≠ 0#7 then .error .unusedLen
  else .ok i

/-- The decoder (30_encoding.md R72 to R76): OP selects the command, the fields it does not use must be 0, and the
data word is read only for operands (R78). -/
def decode (c : Command) : Except IllegalWord Instr :=
  match opField c.word with
  | 0x00#8 => plainForm c.word .nop
  | 0x01#8 => plainForm c.word .pkReset
  | 0x02#8 => lenForm c.word (.pkPut (lenField c.word) c.data)
  | 0x03#8 => plainForm c.word .pkFinish
  | 0x04#8 => idxForm c.word (.pkRdbyte (idxField c.word))
  | 0x05#8 => plainForm c.word .pkStat
  | 0x10#8 => plainForm c.word .upReset
  | 0x11#8 => plainForm c.word .upRewind
  | 0x12#8 => idxForm c.word (.upWrbyte (idxField c.word) (byteField c.data))
  | 0x13#8 => plainForm c.word (.upSetnbits c.data)
  | 0x14#8 => idxForm c.word (.upSetnode (idxField c.word) (kindField c.data) (symOperand c.data)
                (leftOperand c.data) (rightOperand c.data))
  | 0x15#8 => idxForm c.word (.upSetroot (idxField c.word))
  | 0x16#8 => plainForm c.word .upDecode
  | 0x17#8 => plainForm c.word .upStat
  | _ => .error .unassignedOp

/-! ### The opcode table -/

/-- A row of opcode_table.json: its mnemonic, and the mask and match that select it. -/
structure OpcodeRow where
  mnemonic : String
  value : BitVec 32
  mask : BitVec 32
deriving DecidableEq, Repr

/-- A word selects a row when (w AND mask) = match (30_encoding.md R73). -/
def OpcodeRow.selectedBy (r : OpcodeRow) (w : BitVec 32) : Bool := w &&& r.mask == r.value

/-- The packer's and the common rows of 30_encoding.md R73. -/
def commonAndPackerRows : List OpcodeRow :=
  [ ⟨"NOP",       0x00000000#32, 0xFFFFFFFF#32⟩,
    ⟨"PK.RESET",  0x00000001#32, 0xFFFFFFFF#32⟩,
    ⟨"PK.PUT",    0x00000002#32, 0xFFFF80FF#32⟩,
    ⟨"PK.FINISH", 0x00000003#32, 0xFFFFFFFF#32⟩,
    ⟨"PK.RDBYTE", 0x00000004#32, 0x0000FFFF#32⟩,
    ⟨"PK.STAT",   0x00000005#32, 0xFFFFFFFF#32⟩ ]

/-- The unpacker's rows of 30_encoding.md R73. -/
def unpackerRows : List OpcodeRow :=
  [ ⟨"UP.RESET",    0x00000010#32, 0xFFFFFFFF#32⟩,
    ⟨"UP.REWIND",   0x00000011#32, 0xFFFFFFFF#32⟩,
    ⟨"UP.WRBYTE",   0x00000012#32, 0x0000FFFF#32⟩,
    ⟨"UP.SETNBITS", 0x00000013#32, 0xFFFFFFFF#32⟩,
    ⟨"UP.SETNODE",  0x00000014#32, 0x0000FFFF#32⟩,
    ⟨"UP.SETROOT",  0x00000015#32, 0x0000FFFF#32⟩,
    ⟨"UP.DECODE",   0x00000016#32, 0xFFFFFFFF#32⟩,
    ⟨"UP.STAT",     0x00000017#32, 0xFFFFFFFF#32⟩ ]

/-- The 14 rows of 30_encoding.md R73. -/
def opcodeTable : List OpcodeRow := commonAndPackerRows ++ unpackerRows

/-- The mnemonic of a command's row. -/
def Instr.mnemonic : Instr → String
  | .nop => "NOP"
  | .pkReset => "PK.RESET"
  | .pkPut _ _ => "PK.PUT"
  | .pkFinish => "PK.FINISH"
  | .pkRdbyte _ => "PK.RDBYTE"
  | .pkStat => "PK.STAT"
  | .upReset => "UP.RESET"
  | .upRewind => "UP.REWIND"
  | .upWrbyte _ _ => "UP.WRBYTE"
  | .upSetnbits _ => "UP.SETNBITS"
  | .upSetnode _ _ _ _ _ => "UP.SETNODE"
  | .upSetroot _ => "UP.SETROOT"
  | .upDecode => "UP.DECODE"
  | .upStat => "UP.STAT"

/-! ### The encoder -/

/-- A command word from its fields, RSV = 0 (30_encoding.md R68). -/
def commandWord (op : BitVec 8) (len : BitVec 7) (idx : Index) : BitVec 32 := idx ++ 0#1 ++ len ++ op

/-- The data word of UP.SETNODE (30_encoding.md R79, R80): KIND in d[63:62] over SYM, or RIGHT and LEFT. -/
def nodeData (kind : BitVec 2) (sym : Byte) (left right : Index) : BitVec 64 :=
  if kind = 1#2 then kind ++ 0#54 ++ sym
  else if kind = 2#2 then kind ++ 0#30 ++ right ++ left
  else kind ++ 0#62

/-- The words of a command (30_encoding.md R80); data bits a command ignores are written 0. -/
def encode : Instr → Command
  | .nop => ⟨commandWord 0x00#8 0#7 0#16, 0#64⟩
  | .pkReset => ⟨commandWord 0x01#8 0#7 0#16, 0#64⟩
  | .pkPut len pattern => ⟨commandWord 0x02#8 len 0#16, pattern⟩
  | .pkFinish => ⟨commandWord 0x03#8 0#7 0#16, 0#64⟩
  | .pkRdbyte idx => ⟨commandWord 0x04#8 0#7 idx, 0#64⟩
  | .pkStat => ⟨commandWord 0x05#8 0#7 0#16, 0#64⟩
  | .upReset => ⟨commandWord 0x10#8 0#7 0#16, 0#64⟩
  | .upRewind => ⟨commandWord 0x11#8 0#7 0#16, 0#64⟩
  | .upWrbyte idx byte => ⟨commandWord 0x12#8 0#7 idx, byte.setWidth 64⟩
  | .upSetnbits n => ⟨commandWord 0x13#8 0#7 0#16, n⟩
  | .upSetnode idx kind sym left right => ⟨commandWord 0x14#8 0#7 idx, nodeData kind sym left right⟩
  | .upSetroot idx => ⟨commandWord 0x15#8 0#7 idx, 0#64⟩
  | .upDecode => ⟨commandWord 0x16#8 0#7 0#16, 0#64⟩
  | .upStat => ⟨commandWord 0x17#8 0#7 0#16, 0#64⟩

/-! ### The opcode table's numbering of a command's bits -/

/-- The command whose bits are `w`, numbered as spec/opcode_table.json numbers them: bits 31..0 are the command word,
and the data word counts on from bit 32. Bits from `nbits` up are 0. -/
def tableCommand (nbits w : Nat) : Command :=
  ⟨BitVec.ofNat 32 (w % 2 ^ nbits), BitVec.ofNat 64 ((w % 2 ^ nbits) >>> 32)⟩

/-- What the decoder reads from a command whose bits are `w`, numbered as the opcode table numbers them. -/
def decodeTableWord (nbits w : Nat) : Option Instr :=
  match decode (tableCommand nbits w) with
  | .ok i => some i
  | .error _ => none

end Sys2Proof
end

