-- ==== Sys2Proof/Config.lean ====
section
/-! DEFINITION. The implementation parameters of 00_scope.md R6: the fixed ones as constants, the three OPEN ones
as a record the model takes as an argument (it stands in State, and no step changes it). -/

namespace Sys2Proof

/-- The OPEN parameters (00_scope.md R6; 93_implementation_defined.md S20). -/
structure Config where
  /-- PK_CAP_BYTES: bytes in the packer's output buffer. -/
  pkCapBytes : Nat
  /-- UP_CAP_BYTES: bytes in the unpacker's input buffer. -/
  upCapBytes : Nat
  /-- UP_NODES: entries in the unpacker's node table. -/
  upNodes : Nat
deriving DecidableEq, Repr

/-- MAX_CODE_LEN (00_scope.md R6). -/
def Config.maxCodeLen : Nat := 64

/-- The largest value of each OPEN parameter; it comes from the 16-bit IDX field (00_scope.md R7). -/
def Config.maxEntries : Nat := 65536

/-- The bounds 00_scope.md R6 puts on the OPEN parameters. -/
abbrev Config.Valid (c : Config) : Prop :=
  (1 ≤ c.pkCapBytes ∧ c.pkCapBytes ≤ Config.maxEntries) ∧
  (1 ≤ c.upCapBytes ∧ c.upCapBytes ≤ Config.maxEntries) ∧
  (1 ≤ c.upNodes ∧ c.upNodes ≤ Config.maxEntries)

/-- The parameters of the build that `State.reset` describes: those 95_test_vectors.md uses unless it says
otherwise. DESIGN CHOICE, unsafe for a statement about `State.reset` alone: the spec leaves them OPEN (log 1). -/
def Config.reference : Config := { pkCapBytes := 16, upCapBytes := 16, upNodes := 511 }

end Sys2Proof
end

