-- ==== Sys2Proof/Machine/State.lean ====
section
/-! DEFINITION. The state of the block (10_state.md R23), of its port (30_encoding.md R63 to R65) and of the host's
side of the port, all as plain data, and the state after reset (10_state.md R42). -/

namespace Sys2Proof.Machine

/-! ### Why a step can stop -/

/-- The three index spaces (20_memory.md R48, R49, R50). -/
inductive Space where
  | pkBuf
  | upBuf
  | upNode
deriving DecidableEq, Repr

/-- No behaviour of the block stops it (93_implementation_defined.md section 2: "No behaviour of the block is
`stuck`"). -/
inductive Fault where
  /-- An access to an index that a space does not have (20_memory.md R48 to R50). Raised by the one-byte read and the
  node read of Ops.lean, so by PK.RDBYTE and UP.DECODE, and only in a state that breaks 10_state.md R29(a), R37(a) or
  R37(b), which no run reaches. Safe: the model stops, and proves nothing about such a state. -/
  | outsideSpace (space : Space)
deriving DecidableEq, Repr

/-- What the model has no meaning for. -/
inductive Refusal where
  /-- The instruction has no meaning yet. Raised by `exec` alone. Safe: the model stops. -/
  | notModelled (mnemonic : String)
  /-- The host changed cmd_word or cmd_data while cmd_valid = 1 and the command had not transferred, which
  30_encoding.md R64 forbids it and 93_implementation_defined.md S19 says to refuse. Raised by a clock edge, by no
  instruction. Safe: the model stops, and a claim about such a host cannot be proved. -/
  | handshakeBroken
deriving DecidableEq, Repr

/-! ### Values registers hold -/

/-- The status codes 0x0 to 0xB of 60_exceptions.md R123, in the order of their codes (`Status.code`). The codes 0xC to
0xF are reserved and have no name. -/
inductive Status where
  | ok
  | done
  | truncatedStream
  | codeLengthOverflow
  | emptyInput
  | zeroLengthCode
  | bufferFull
  | streamSealed
  | malformedTree
  | invalidCode
  | badArgument
  | illegalCommand
deriving DecidableEq, Repr

/-- KIND of a node entry (10_state.md R34): 0, 1 and 2; "KIND = 3 never occurs". -/
inductive NodeKind where
  | empty
  | leaf
  | internal
deriving DecidableEq, Repr

/-- An entry of UP.NODE (10_state.md R34): KIND, SYM, LEFT, RIGHT. -/
structure NodeEntry where
  kind : NodeKind
  sym : Byte
  left : Index
  right : Index
deriving DecidableEq, Repr

/-- The entry with no node: KIND = EMPTY, SYM = LEFT = RIGHT = 0 (10_state.md R34). -/
def NodeEntry.empty : NodeEntry := { kind := .empty, sym := 0#8, left := 0#16, right := 0#16 }

/-- A response: rsp_status and rsp_data (30_encoding.md R71). -/
structure Response where
  status : Status
  data : BitVec 64
deriving DecidableEq, Repr

/-! ### The two units (10_state.md R20) -/

/-- The packer's registers (10_state.md R24 to R28). PK.NBYTES is derived (R26) and has no field. -/
structure Packer where
  /-- PK.BUF: the listed bytes; every other one reads 0x00 (log 2). -/
  buf : List Host.Cell
  /-- PK.NBITS: the cursor and valid bit count. -/
  nbits : Count
  /-- PK.SEALED. -/
  sealed : Bool
  /-- PK.ERR: a 4-bit status code, held by its name (log 7). -/
  err : Status
deriving DecidableEq, Repr

/-- The unpacker's registers (10_state.md R31 to R36). -/
structure Unpacker where
  /-- UP.BUF: the listed bytes; every other one reads 0x00. -/
  buf : List Host.Cell
  /-- UP.NBITS: the valid bit count. -/
  nbits : Count
  /-- UP.CURSOR: the next bit position to read. -/
  cursor : Count
  /-- UP.NODE: the listed entries; every other one is EMPTY. -/
  nodes : List (Nat × NodeEntry)
  /-- UP.ROOT. -/
  root : Index
  /-- UP.ROOT_VALID. -/
  rootValid : Bool
  /-- UP.ERR: a 4-bit status code, held by its name (log 7). -/
  err : Status
deriving DecidableEq, Repr

/-! ### The port -/

/-- The levels of the host's pins at one rising edge of clk (30_encoding.md R63), and whether the block, if it is
executing a command, needs a further cycle there (R65: "unspecified but finite"; log 4). -/
structure Edge where
  rst : Bool
  cmdValid : Bool
  cmdWord : BitVec 32
  cmdData : BitVec 64
  rspReady : Bool
  stall : Bool
deriving DecidableEq, Repr

/-- An edge at which the host drives every control pin low and the block is ready. -/
def Edge.quiet : Edge :=
  { rst := false, cmdValid := false, cmdWord := 0#32, cmdData := 0#64, rspReady := false, stall := false }

/-- Where the one outstanding command stands (30_encoding.md R65). -/
inductive Phase where
  /-- No command is outstanding: cmd_ready = 1. -/
  | idle
  /-- The command has transferred and its response is not offered yet. -/
  | busy (c : Command)
  /-- The response is offered: rsp_valid = 1, and rsp_status and rsp_data hold these values (R64). -/
  | offering (r : Response)
deriving DecidableEq, Repr

/-- What a run consists of (70_reset_and_hazards.md R142, R153): commands transferred, responses transferred, resets. -/
inductive PortEvent where
  | command (c : Command)
  | response (r : Response)
  | reset
deriving DecidableEq, Repr

/-! ### The state -/

/-- Everything the spec gives the block, and the host's side of the port. -/
structure State where
  /-- The OPEN parameters; no step changes them (00_scope.md R6; log 1). -/
  cfg : Config
  /-- The packer unit. -/
  pk : Packer
  /-- The unpacker unit. -/
  up : Unpacker
  /-- The port. -/
  phase : Phase
  /-- The command the host offered at the last edge and that has not transferred, which it must hold (R64; log 6). -/
  held : Option Command
  /-- What the host will drive at the coming edges, the next one first; after them, quiet edges (log 3). -/
  edges : List Edge
  /-- The run so far, newest event first. An observer's record; no behaviour depends on it (log 5). -/
  trace : List PortEvent
deriving DecidableEq, Repr

/-! ### Reset values (10_state.md R42) -/

/-- The packer after the reset pin. PK.BUF's contents are unspecified and unobservable: nothing is listed (log 2). -/
def Packer.reset : Packer := { buf := [], nbits := 0#24, sealed := false, err := .ok }

/-- The unpacker after the reset pin. -/
def Unpacker.reset : Unpacker :=
  { buf := [], nbits := 0#24, cursor := 0#24, nodes := [], root := 0#16, rootValid := false, err := .ok }

/-- The state after the reset pin of a build with parameters `cfg`: every register at its reset value, no command
outstanding, a host that drives nothing. -/
def State.resetWith (cfg : Config) : State :=
  { cfg := cfg, pk := Packer.reset, up := Unpacker.reset, phase := .idle, held := none, edges := [], trace := [] }

/-- The state after the reset pin, of the reference build (log 1). -/
def State.reset : State := State.resetWith Config.reference

end Sys2Proof.Machine
end

