-- ==== Sys2Proof/Machine/Operands.lean ====
section
/-! DEFINITION. Every operand form: the bits of a byte space and of a code (00_scope.md R11, R12; 20_memory.md R45,
R46), the node an UP.SETNODE writes (41_unpacker.md R104) and zero extension (00_scope.md R9). -/

namespace Sys2Proof.Machine

/-! ### Bit addressing (00_scope.md R11) -/

/-- The byte that holds stream bit position `p`. -/
def byteIndex (p : Nat) : Nat := p / 8

/-- The bit, within its byte, that holds stream bit position `p`: MSB first (20_memory.md R45). -/
def bitInByte (p : Nat) : Nat := 7 - p % 8

/-- A byte with bit `i` set or cleared and the other seven unchanged. -/
def setByteBit (b : Byte) (i : Nat) (v : Bool) : Byte :=
  if v then b ||| BitVec.twoPow 8 i else b &&& ~~~(BitVec.twoPow 8 i)

/-! ### Codes (00_scope.md R12) -/

/-- Bit `j` of the bit sequence of the code (pattern, len): pattern[len - 1 - j] (20_memory.md R46). -/
def codeBit (pattern : BitVec 64) (len j : Nat) : Bool := pattern.getLsbD (len - 1 - j)

/-! ### The node operand of UP.SETNODE (41_unpacker.md R104) -/

/-- The entry a KIND and its fields stand for, the fields the kind does not use written 0 (10_state.md R34); KIND = 3
stands for none. -/
def nodeOperand (kind : BitVec 2) (sym : Byte) (left right : Index) : Option NodeEntry :=
  if kind = 0#2 then some NodeEntry.empty
  else if kind = 1#2 then some { kind := .leaf, sym := sym, left := 0#16, right := 0#16 }
  else if kind = 2#2 then some { kind := .internal, sym := 0#8, left := left, right := right }
  else none

/-- The child taken on a bit: LEFT on 0, RIGHT on 1 (41_unpacker.md R106). -/
def NodeEntry.child (n : NodeEntry) (b : Bool) : Nat := if b then n.right.toNat else n.left.toNat

/-- An entry as UP.SETNODE writes it: the fields its kind does not use are 0 (10_state.md R34). -/
def NodeEntry.canonical (n : NodeEntry) : Bool :=
  match n.kind with
  | .empty => n.sym == 0#8 && n.left == 0#16 && n.right == 0#16
  | .leaf => n.left == 0#16 && n.right == 0#16
  | .internal => n.sym == 0#8

/-! ### Response data (30_encoding.md R71) -/

/-- zext64 of a byte or of a symbol. -/
def zextByte (b : Byte) : BitVec 64 := b.setWidth 64

/-- zext64 of a bit count. -/
def zextCount (n : Count) : BitVec 64 := n.setWidth 64

end Sys2Proof.Machine
end

