-- ==== Sys2Proof/Machine/Flags.lean ====
section
/-! DEFINITION. The flags of the block (10_state.md R40): the sticky error registers with their status codes and
classes (60_exceptions.md R123, R125), which commands a flag blocks is in the meanings; and the status words that show
the flags (10_state.md R38, R39). -/

namespace Sys2Proof.Machine

/-! ### Status codes and classes -/

/-- The 4-bit code of a status (60_exceptions.md R123). -/
def Status.code : Status → BitVec 4
  | .ok => 0x0#4
  | .done => 0x1#4
  | .truncatedStream => 0x2#4
  | .codeLengthOverflow => 0x3#4
  | .emptyInput => 0x4#4
  | .zeroLengthCode => 0x5#4
  | .bufferFull => 0x6#4
  | .streamSealed => 0x7#4
  | .malformedTree => 0x8#4
  | .invalidCode => 0x9#4
  | .badArgument => 0xA#4
  | .illegalCommand => 0xB#4

/-- The sticky statuses of the packer (60_exceptions.md R125). -/
def Status.stickyPk : Status → Bool
  | .codeLengthOverflow | .zeroLengthCode | .bufferFull => true
  | .ok | .done | .truncatedStream | .emptyInput | .streamSealed | .malformedTree | .invalidCode | .badArgument
  | .illegalCommand => false

/-- The sticky statuses of the unpacker (60_exceptions.md R125). -/
def Status.stickyUp : Status → Bool
  | .truncatedStream | .malformedTree | .invalidCode => true
  | .ok | .done | .codeLengthOverflow | .emptyInput | .zeroLengthCode | .bufferFull | .streamSealed | .badArgument
  | .illegalCommand => false

/-- The rejections: nothing changes and nothing is latched (60_exceptions.md R125). -/
def Status.rejection : Status → Bool
  | .streamSealed | .badArgument | .illegalCommand => true
  | .ok | .done | .truncatedStream | .codeLengthOverflow | .emptyInput | .zeroLengthCode | .bufferFull
  | .malformedTree | .invalidCode => false

/-- The legal values of PK.ERR (10_state.md R28). -/
def Status.legalPkErr (e : Status) : Bool := e == .ok || e.stickyPk

/-- The legal values of UP.ERR (10_state.md R36). -/
def Status.legalUpErr (e : Status) : Bool := e == .ok || e.stickyUp

/-! ### Derived counts -/

/-- PK.NBYTES = ceil8(PK.NBITS) (10_state.md R26). -/
def Packer.nbytes (pk : Packer) : Nat := ceil8 pk.nbits.toNat

/-! ### Setting and clearing the flags -/

/-- PK.ERR <- st (60_exceptions.md R126). -/
def Packer.latch (pk : Packer) (st : Status) : Packer := { pk with err := st }

/-- UP.ERR <- st (60_exceptions.md R126). -/
def Unpacker.latch (up : Unpacker) (st : Status) : Unpacker := { up with err := st }

/-- PK.SEALED <- 1 (10_state.md R27). -/
def Packer.seal (pk : Packer) : Packer := { pk with sealed := true }

/-! ### Status words -/

/-- One flag as a bit. -/
def flagBit (b : Bool) : BitVec 1 := BitVec.ofBool b

/-- PK.STAT's data word (10_state.md R38; 40_packer.md R91): zext64 of SEALED, ERR, NBITS[23:0]. -/
def Packer.statusWord (pk : Packer) : BitVec 64 :=
  (flagBit pk.sealed ++ pk.err.code ++ pk.nbits).setWidth 64

/-- UP.STAT's data word (10_state.md R39; 41_unpacker.md R109): zext64 of ROOT_VALID, ERR, NBITS[23:0], CURSOR[23:0]. -/
def Unpacker.statusWord (up : Unpacker) : BitVec 64 :=
  (flagBit up.rootValid ++ up.err.code ++ up.nbits ++ up.cursor).setWidth 64

end Sys2Proof.Machine
end

