-- ==== Sys2Proof/Machine/Ops.lean ====
section
/-! DEFINITION. The shared operations: the memory of the three index spaces (20_memory.md), the bit accesses of
00_scope.md R11, the response, and the raising of a status, which is all the "trap entry" the block has
(00_scope.md R10; 60_exceptions.md R126, R130) with the clearing that takes the place of a trap return (R128, R131). -/

namespace Sys2Proof.Machine

/-! ### Memory: a list of (index, value) pairs in one canonical form -/

/-- The value at an index; an index that is not listed reads `dflt`. -/
def Memory.read {α : Type} (dflt : α) : List (Nat × α) → Nat → α
  | [], _ => dflt
  | (k, x) :: rest, a => if k = a then x else Memory.read dflt rest a

/-- The memory with one value written; writing `dflt` removes the entry, so that the form stays canonical. -/
def Memory.write {α : Type} [DecidableEq α] (dflt : α) : List (Nat × α) → Nat → α → List (Nat × α)
  | [], a, v => if v = dflt then [] else [(a, v)]
  | (k, x) :: rest, a, v =>
    if a < k then (if v = dflt then (k, x) :: rest else (a, v) :: (k, x) :: rest)
    else if a = k then (if v = dflt then rest else (a, v) :: rest)
    else (k, x) :: Memory.write dflt rest a v

/-- The canonical form: indices strictly rising, and no entry equal to what an unlisted index reads as. -/
abbrev Memory.wf {α : Type} [DecidableEq α] (dflt : α) (m : List (Nat × α)) : Prop :=
  m.Pairwise (fun x y => x.1 < y.1) ∧ ∀ c ∈ m, c.2 ≠ dflt

/-- Every listed index is one the space has. -/
abbrev Memory.within {α : Type} (size : Nat) (m : List (Nat × α)) : Prop := ∀ c ∈ m, c.1 < size

/-- What an unlisted byte of PK.BUF or UP.BUF reads as (10_state.md R42 for UP.BUF; log 2 for PK.BUF). -/
def unlistedByte : Byte := 0#8

/-! ### The memory primitives of 00_scope.md R10 -/

/-- `MemRead(S, i, 1)` of a byte space of `size` bytes. -/
def memRead (space : Space) (size : Nat) (m : List Host.Cell) (i : Nat) : Except Fault Byte :=
  if i < size then .ok (Memory.read unlistedByte m i) else .error (.outsideSpace space)

/-- `MemWrite(S, i, 1, v)`. Each caller's own check keeps `i` inside the space (40_packer.md R86; 41_unpacker.md
R102), which the invariant of Safety.lean states. -/
def memWrite (m : List Host.Cell) (i : Nat) (v : Byte) : List Host.Cell := Memory.write unlistedByte m i v

/-- Reading entry `i` of UP.NODE, a table of `size` entries. -/
def nodeRead (size : Nat) (m : List (Nat × NodeEntry)) (i : Nat) : Except Fault NodeEntry :=
  if i < size then .ok (Memory.read NodeEntry.empty m i) else .error (.outsideSpace .upNode)

/-- `UP.NODE[i] <- e`; the caller checks `i` (41_unpacker.md R104). -/
def nodeWrite (m : List (Nat × NodeEntry)) (i : Nat) (e : NodeEntry) : List (Nat × NodeEntry) :=
  Memory.write NodeEntry.empty m i e

/-! ### The bit primitives of 00_scope.md R11 -/

/-- Stream bit `p` of a byte space, whatever its size. -/
def streamBit (m : List Host.Cell) (p : Nat) : Bool :=
  (Memory.read unlistedByte m (byteIndex p)).getLsbD (bitInByte p)

/-- `GetBit(S, p)`: the memory read, then bit 7 - (p mod 8) of the byte. -/
def getBit (space : Space) (size : Nat) (m : List Host.Cell) (p : Nat) : Except Fault Bool :=
  match memRead space size m (byteIndex p) with
  | .ok b => .ok (b.getLsbD (bitInByte p))
  | .error f => .error f

/-- `PutBit(S, p, b)`: one bit of one byte, the other seven unchanged. -/
def putBit (m : List Host.Cell) (p : Nat) (b : Bool) : List Host.Cell :=
  memWrite m (byteIndex p) (setByteBit (Memory.read unlistedByte m (byteIndex p)) (bitInByte p) b)

/-! ### Responding and raising -/

/-- What a command does to one unit: the unit after it, with the response. -/
abbrev Effect (unit : Type) := Except Fault (unit × Response)

/-- `respond(status, data)` with the unit as it stands (00_scope.md R10). -/
def respond {unit : Type} (u : unit) (st : Status) (data : BitVec 64) : Effect unit := .ok (u, ⟨st, data⟩)

/-- `raise st` in the packer: a sticky status is latched in PK.ERR, then respond(st, 0) (00_scope.md R10;
60_exceptions.md R126). -/
def raisePk (pk : Packer) (st : Status) : Effect Packer :=
  respond (if st.stickyPk then pk.latch st else pk) st 0#64

/-- `raise st` in the unpacker: a sticky status is latched in UP.ERR, then respond(st, 0) (00_scope.md R10;
60_exceptions.md R126). -/
def raiseUp (up : Unpacker) (st : Status) : Effect Unpacker :=
  respond (if st.stickyUp then up.latch st else up) st 0#64

/-- Recovery from a sticky error of the packer (60_exceptions.md R128, R131). -/
def Packer.clearErr (pk : Packer) : Packer := { pk with err := .ok }

/-- Recovery from a sticky error of the unpacker (60_exceptions.md R128, R131). -/
def Unpacker.clearErr (up : Unpacker) : Unpacker := { up with err := .ok }

/-! ### A command's effect on the state (30_encoding.md R66, R67)

The response is offered in the step that completes the effect. -/

/-- The response is offered and no unit changes. -/
def State.offer (s : State) (r : Response) : State := { s with phase := .offering r }

/-- A packer command: it reads and writes the packer unit alone (10_state.md R20). -/
def State.afterPk (s : State) (e : Effect Packer) : Host.Outcome State Fault Refusal :=
  match e with
  | .ok (pk, r) => .next { s with pk := pk, phase := .offering r }
  | .error f => .fault f

/-- An unpacker command: it reads and writes the unpacker unit alone (10_state.md R20). -/
def State.afterUp (s : State) (e : Effect Unpacker) : Host.Outcome State Fault Refusal :=
  match e with
  | .ok (up, r) => .next { s with up := up, phase := .offering r }
  | .error f => .fault f

end Sys2Proof.Machine
end

