-- ==== Sys2Proof/Machine/Common.lean ====
section
/-! DEFINITION. The commands of neither unit (45_common.md): NOP, and the answer to a word that is no command. -/

namespace Sys2Proof.Machine

/-- NOP (45_common.md R120). -/
def execNop (s : State) : Host.Outcome State Fault Refusal := .next (s.offer ⟨.ok, 0#64⟩)

/-- An illegal command (45_common.md R121): ILLEGAL_COMMAND with data 0, and no register changes. -/
def execIllegal (s : State) : Host.Outcome State Fault Refusal := .next (s.offer ⟨.illegalCommand, 0#64⟩)

end Sys2Proof.Machine
end

