-- ==== Sys2Proof/Machine/Packer.lean ====
section
/-! DEFINITION. The packer's commands (40_packer.md R85 to R91), each over the packer unit, then as a meaning. -/

namespace Sys2Proof.Machine

/-! ### PK.RESET -/

/-- PK.RESET (40_packer.md R85): the cursor at 0, not sealed, no error; PK.BUF is not cleared. -/
def Packer.cmdReset (pk : Packer) : Effect Packer :=
  respond { pk.clearErr with nbits := 0#24, sealed := false } .ok 0#64

/-- PK.RESET (40_packer.md R85). -/
def execPkReset (s : State) : Host.Outcome State Fault Refusal := s.afterPk s.pk.cmdReset

/-! ### PK.PUT -/

/-- One pass of the loop of 40_packer.md R86: at a byte boundary the stream first grows by one zero byte (R88); then
the bit is put at the cursor and the cursor advances. -/
def Packer.appendBit (pk : Packer) (b : Bool) : Packer :=
  let p := pk.nbits.toNat
  let extended := if p % 8 = 0 then memWrite pk.buf (byteIndex p) 0x00#8 else pk.buf
  { pk with buf := putBit extended p b, nbits := pk.nbits + 1#24 }

/-- The loop of 40_packer.md R86 with `k` passes to go: the next bit is pattern[k - 1], so the code goes out most
significant bit first. -/
def Packer.appendCode (pattern : BitVec 64) : Nat → Packer → Packer
  | 0, pk => pk
  | k + 1, pk => Packer.appendCode pattern k (pk.appendBit (pattern.getLsbD k))

/-- PK.PUT (40_packer.md R86), its checks in the order of 60_exceptions.md R132, all before the loop. -/
def Packer.cmdPut (cfg : Config) (len : BitVec 7) (pattern : BitVec 64) (pk : Packer) : Effect Packer :=
  if pk.err ≠ .ok then respond pk pk.err 0#64
  else if pk.sealed then respond pk .streamSealed 0#64
  else if len.toNat = 0 then raisePk pk .zeroLengthCode
  else if len.toNat > Config.maxCodeLen then raisePk pk .codeLengthOverflow
  else if pk.nbits.toNat + len.toNat > 8 * cfg.pkCapBytes then raisePk pk .bufferFull
  else
    let pk' := Packer.appendCode pattern len.toNat pk
    respond pk' .ok (zextCount pk'.nbits)

/-- PK.PUT (40_packer.md R86). -/
def execPkPut (len : BitVec 7) (pattern : BitVec 64) (s : State) : Host.Outcome State Fault Refusal :=
  s.afterPk (s.pk.cmdPut s.cfg len pattern)

/-! ### PK.FINISH -/

/-- PK.FINISH (40_packer.md R89): a stream with a rejected code cannot be sealed. -/
def Packer.cmdFinish (pk : Packer) : Effect Packer :=
  if pk.err ≠ .ok then respond pk pk.err 0#64
  else respond pk.seal .ok (zextCount pk.nbits)

/-- PK.FINISH (40_packer.md R89). -/
def execPkFinish (s : State) : Host.Outcome State Fault Refusal := s.afterPk s.pk.cmdFinish

/-! ### PK.RDBYTE -/

/-- PK.RDBYTE (40_packer.md R90). -/
def Packer.cmdRdbyte (cfg : Config) (idx : Index) (pk : Packer) : Effect Packer :=
  if idx.toNat ≥ pk.nbytes then respond pk .badArgument 0#64
  else match memRead .pkBuf cfg.pkCapBytes pk.buf idx.toNat with
    | .ok b => respond pk .ok (zextByte b)
    | .error f => .error f

/-- PK.RDBYTE (40_packer.md R90). -/
def execPkRdbyte (idx : Index) (s : State) : Host.Outcome State Fault Refusal :=
  s.afterPk (s.pk.cmdRdbyte s.cfg idx)

/-! ### PK.STAT -/

/-- PK.STAT (40_packer.md R91). -/
def Packer.cmdStat (pk : Packer) : Effect Packer := respond pk .ok pk.statusWord

/-- PK.STAT (40_packer.md R91). -/
def execPkStat (s : State) : Host.Outcome State Fault Refusal := s.afterPk s.pk.cmdStat

end Sys2Proof.Machine
end

