-- ==== Sys2Proof/Machine/Unpacker.lean ====
section
/-! DEFINITION. The unpacker's commands (41_unpacker.md R100 to R109), each over the unpacker unit, then as a
meaning. -/

namespace Sys2Proof.Machine

/-! ### UP.RESET -/

/-- UP.RESET (41_unpacker.md R100): every byte 0x00, every entry EMPTY, every register at its reset value, "exactly the
state rule R141 gives it" (70_reset_and_hazards.md R143). -/
def Unpacker.cmdReset (_up : Unpacker) : Effect Unpacker := respond Unpacker.reset .ok 0#64

/-- UP.RESET (41_unpacker.md R100). -/
def execUpReset (s : State) : Host.Outcome State Fault Refusal := s.afterUp s.up.cmdReset

/-! ### UP.REWIND -/

/-- UP.REWIND (41_unpacker.md R101). -/
def Unpacker.cmdRewind (up : Unpacker) : Effect Unpacker := respond { up.clearErr with cursor := 0#24 } .ok 0#64

/-- UP.REWIND (41_unpacker.md R101). -/
def execUpRewind (s : State) : Host.Outcome State Fault Refusal := s.afterUp s.up.cmdRewind

/-! ### UP.WRBYTE -/

/-- UP.WRBYTE (41_unpacker.md R102). -/
def Unpacker.cmdWrbyte (cfg : Config) (idx : Index) (byte : Byte) (up : Unpacker) : Effect Unpacker :=
  if idx.toNat ≥ cfg.upCapBytes then respond up .badArgument 0#64
  else respond { up with buf := memWrite up.buf idx.toNat byte } .ok 0#64

/-- UP.WRBYTE (41_unpacker.md R102). -/
def execUpWrbyte (idx : Index) (byte : Byte) (s : State) : Host.Outcome State Fault Refusal :=
  s.afterUp (s.up.cmdWrbyte s.cfg idx byte)

/-! ### UP.SETNBITS -/

/-- UP.SETNBITS (41_unpacker.md R103): the whole 64-bit value is checked; on success the stream is at its start. -/
def Unpacker.cmdSetnbits (cfg : Config) (n : BitVec 64) (up : Unpacker) : Effect Unpacker :=
  if n.toNat > 8 * cfg.upCapBytes then respond up .badArgument 0#64
  else respond { up.clearErr with nbits := n.setWidth 24, cursor := 0#24 } .ok 0#64

/-- UP.SETNBITS (41_unpacker.md R103). -/
def execUpSetnbits (n : BitVec 64) (s : State) : Host.Outcome State Fault Refusal :=
  s.afterUp (s.up.cmdSetnbits s.cfg n)

/-! ### UP.SETNODE -/

/-- UP.SETNODE (41_unpacker.md R104): the index is checked first, then KIND = 3. -/
def Unpacker.cmdSetnode (cfg : Config) (idx : Index) (kind : BitVec 2) (sym : Byte) (left right : Index)
    (up : Unpacker) : Effect Unpacker :=
  if idx.toNat ≥ cfg.upNodes then respond up .badArgument 0#64
  else match nodeOperand kind sym left right with
    | none => respond up .badArgument 0#64
    | some e => respond { up with nodes := nodeWrite up.nodes idx.toNat e } .ok 0#64

/-- UP.SETNODE (41_unpacker.md R104). -/
def execUpSetnode (idx : Index) (kind : BitVec 2) (sym : Byte) (left right : Index) (s : State) :
    Host.Outcome State Fault Refusal :=
  s.afterUp (s.up.cmdSetnode s.cfg idx kind sym left right)

/-! ### UP.SETROOT -/

/-- UP.SETROOT (41_unpacker.md R105). -/
def Unpacker.cmdSetroot (cfg : Config) (idx : Index) (up : Unpacker) : Effect Unpacker :=
  if idx.toNat ≥ cfg.upNodes then respond up .badArgument 0#64
  else respond { up with root := idx, rootValid := true } .ok 0#64

/-- UP.SETROOT (41_unpacker.md R105). -/
def execUpSetroot (idx : Index) (s : State) : Host.Outcome State Fault Refusal :=
  s.afterUp (s.up.cmdSetroot s.cfg idx)

/-! ### UP.DECODE -/

/-- UP.CURSOR <- UP.CURSOR + 1 (41_unpacker.md R106). -/
def Unpacker.advance (up : Unpacker) : Unpacker := { up with cursor := up.cursor + 1#24 }

/-- How many bits are left, UP.NBITS - UP.CURSOR. The loop of 41_unpacker.md R106 runs until UP.CURSOR = UP.NBITS, so
the subtraction is that of the 24-bit registers (70_reset_and_hazards.md R152). -/
def Unpacker.bitsLeft (up : Unpacker) : Nat := (up.nbits - up.cursor).toNat

/-- A single-leaf tree (41_unpacker.md R107): exactly one bit is consumed; 0 is the lone symbol's code. -/
def Unpacker.decodeLoneLeaf (cfg : Config) (up : Unpacker) (leaf : NodeEntry) : Effect Unpacker :=
  match getBit .upBuf cfg.upCapBytes up.buf up.cursor.toNat with
  | .error f => .error f
  | .ok b => if b then raiseUp up.advance .invalidCode else respond up.advance .ok (zextByte leaf.sym)

/-- The loop of 41_unpacker.md R106 at the internal node `n`, with `k` = UP.NBITS - UP.CURSOR bits left. A raise keeps
the bits already consumed. -/
def Unpacker.walk (cfg : Config) : Nat → Unpacker → NodeEntry → Effect Unpacker
  | 0, up, _ => raiseUp up .truncatedStream
  | k + 1, up, n =>
    match getBit .upBuf cfg.upCapBytes up.buf up.cursor.toNat with
    | .error f => .error f
    | .ok b =>
      if n.child b ≥ cfg.upNodes then raiseUp up.advance .malformedTree
      else
        match nodeRead cfg.upNodes up.nodes (n.child b) with
        | .error f => .error f
        | .ok n' =>
          match n'.kind with
          | .empty => raiseUp up.advance .malformedTree
          | .leaf => respond up.advance .ok (zextByte n'.sym)
          | .internal => Unpacker.walk cfg k up.advance n'

/-- UP.DECODE (41_unpacker.md R106): sticky error, end of the valid bits, the root, then the walk
(60_exceptions.md R132). -/
def Unpacker.cmdDecode (cfg : Config) (up : Unpacker) : Effect Unpacker :=
  if up.err ≠ .ok then respond up up.err 0#64
  else if up.cursor = up.nbits then respond up .done 0#64
  else if !up.rootValid then raiseUp up .malformedTree
  else
    match nodeRead cfg.upNodes up.nodes up.root.toNat with
    | .error f => .error f
    | .ok n =>
      match n.kind with
      | .empty => raiseUp up .malformedTree
      | .leaf => up.decodeLoneLeaf cfg n
      | .internal => Unpacker.walk cfg up.bitsLeft up n

/-- UP.DECODE (41_unpacker.md R106, R107, R108). -/
def execUpDecode (s : State) : Host.Outcome State Fault Refusal := s.afterUp (s.up.cmdDecode s.cfg)

/-! ### UP.STAT -/

/-- UP.STAT (41_unpacker.md R109). -/
def Unpacker.cmdStat (up : Unpacker) : Effect Unpacker := respond up .ok up.statusWord

/-- UP.STAT (41_unpacker.md R109). -/
def execUpStat (s : State) : Host.Outcome State Fault Refusal := s.afterUp s.up.cmdStat

end Sys2Proof.Machine
end

