-- ==== Sys2Proof/Machine/Dispatch.lean ====
section
/-! DEFINITION. One arm for each command: its meaning. -/

namespace Sys2Proof.Machine

def exec (i : Instr) (s : State) : Host.Outcome State Fault Refusal :=
  match i with
  | .nop => Sys2Proof.Machine.execNop s
  | .pkReset => Sys2Proof.Machine.execPkReset s
  | .pkPut len pattern => Sys2Proof.Machine.execPkPut len pattern s
  | .pkFinish => Sys2Proof.Machine.execPkFinish s
  | .pkRdbyte idx => Sys2Proof.Machine.execPkRdbyte idx s
  | .pkStat => Sys2Proof.Machine.execPkStat s
  | .upReset => Sys2Proof.Machine.execUpReset s
  | .upRewind => Sys2Proof.Machine.execUpRewind s
  | .upWrbyte idx byte => Sys2Proof.Machine.execUpWrbyte idx byte s
  | .upSetnbits n => Sys2Proof.Machine.execUpSetnbits n s
  | .upSetnode idx kind sym left right => Sys2Proof.Machine.execUpSetnode idx kind sym left right s
  | .upSetroot idx => Sys2Proof.Machine.execUpSetroot idx s
  | .upDecode => Sys2Proof.Machine.execUpDecode s
  | .upStat => Sys2Proof.Machine.execUpStat s

end Sys2Proof.Machine
end

