-- ==== Sys2Proof/Machine/Port.lean ====
section
/-! DEFINITION. The port: the pins and the handshake of 30_encoding.md R63 to R66 and the reset pin of
70_reset_and_hazards.md R141, R142, one rising edge of clk at a time; and running the command the port holds. -/

namespace Sys2Proof.Machine

/-! ### Pins -/

/-- What the host drives at the next rising edge; a host with nothing more to do drives a quiet edge (log 3). -/
def State.edge (s : State) : Edge := s.edges.headD Edge.quiet

/-- The command on cmd_word and cmd_data when cmd_valid = 1. -/
def Edge.offered (e : Edge) : Option Command := if e.cmdValid then some ⟨e.cmdWord, e.cmdData⟩ else none

/-- cmd_ready (30_encoding.md R63, R65): no command is outstanding, and rst = 0 (70_reset_and_hazards.md R141). -/
def State.cmdReady (s : State) : Bool := !s.edge.rst && decide (s.phase = .idle)

/-- The response offered: rsp_valid = 1 when there is one, with rsp_status and rsp_data (30_encoding.md R63); none while
rst = 1 (70_reset_and_hazards.md R141). -/
def State.rspOffered (s : State) : Option Response :=
  match s.phase with
  | .offering r => if s.edge.rst then none else some r
  | .idle => none
  | .busy _ => none

/-- rsp_valid (30_encoding.md R63). -/
def State.rspValid (s : State) : Bool := s.rspOffered.isSome

/-- The four pins of rsp_status while rsp_valid = 1 (60_exceptions.md R123); the spec gives them no level otherwise. -/
def State.rspStatus (s : State) : Option (BitVec 4) := s.rspOffered.map fun r => r.status.code

/-- The pins of rsp_data while rsp_valid = 1; the spec gives them no level otherwise. -/
def State.rspData (s : State) : Option (BitVec 64) := s.rspOffered.map fun r => r.data

/-- The host has changed a command it must hold (30_encoding.md R64): the one it offered at the last edge has not
transferred, cmd_valid is still 1, and cmd_word or cmd_data is another. -/
def breaksHandshake (held : Option Command) (e : Edge) : Bool :=
  match held, e.offered with
  | some c, some c' => decide (c ≠ c')
  | none, _ => false
  | some _, none => false

/-! ### The transaction (30_encoding.md R67) -/

/-- `Exec(state, w, d)`: the meaning of the command the words stand for, or the answer to an illegal one
(45_common.md R121). -/
def runCommand (c : Command) (s : State) : Host.Outcome State Fault Refusal :=
  match decode c with
  | .ok i => exec i s
  | .error _ => execIllegal s

/-! ### One rising edge -/

/-- The edge passes: the next edge is the one after it, and an offered command that does not transfer is held. -/
def State.pass (s : State) (e : Edge) : State := { s with edges := s.edges.tail, held := e.offered }

/-- rst = 1: every register takes its reset value, and a command in flight is abandoned (70_reset_and_hazards.md R141,
R142). -/
def State.resetEdge (s : State) (e : Edge) : State :=
  { s.pass e with pk := Packer.reset, up := Unpacker.reset, phase := .idle, trace := .reset :: s.trace }

/-- A command transfers (30_encoding.md R64). -/
def State.accept (s : State) (e : Edge) (c : Command) : State :=
  { s.pass e with phase := .busy c, held := none, trace := .command c :: s.trace }

/-- A response transfers (30_encoding.md R64), and the port is free again (R65). -/
def State.deliver (s : State) (e : Edge) (r : Response) : State :=
  { s.pass e with phase := .idle, trace := .response r :: s.trace }

/-- One rising edge of clk. -/
def clockEdge (s : State) : Host.Outcome State Fault Refusal :=
  let e := s.edge
  if e.rst then .next (s.resetEdge e)
  else if breaksHandshake s.held e then .refused .handshakeBroken
  else match s.phase with
    | .idle =>
      match e.offered with
      | some c => .next (s.accept e c)
      | none => .next (s.pass e)
    | .busy c => if e.stall then .next (s.pass e) else runCommand c (s.pass e)
    | .offering r => if e.rspReady then .next (s.deliver e r) else .next (s.pass e)

/-- `s` about to run the command `c`: it has just transferred, and the next edge is one at which the host does nothing
and the block completes it. What the host drives afterwards is as before (log 3). -/
def State.withCommand (s : State) (c : Command) : State :=
  { s with phase := .busy c, edges := Edge.quiet :: s.edges, trace := .command c :: s.trace }

end Sys2Proof.Machine
end

