-- ==== Sys2Proof/Machine/Step.lean ====
section
/-! DEFINITION. The step of the machine, one rising edge of clk, and where a command to run is placed. -/

namespace Sys2Proof.Machine

/-- One step: one rising edge of clk (30_encoding.md R63). -/
def step (s : State) : Host.Outcome State Fault Refusal := clockEdge s

/-- `s` with the command whose bits are `w` as the one its next step runs (log 3). -/
def State.withFetchWord (s : State) (nbits w : Nat) : State := s.withCommand (tableCommand nbits w)

end Sys2Proof.Machine
end

