-- ==== Sys2Proof/Machine/Assembler.lean ====
section
/-! DEFINITION. The assembler text (30_encoding.md R80), its pseudo-instructions (R81) and the disassembly (R82). Tooling
of the host: no step of the machine uses it. Lexical details the rules leave open are DESIGN CHOICEs (log 9, log 10). -/

namespace Sys2Proof.Machine

/-! ### Tokens of a line (30_encoding.md R80) -/

/-- A token of an assembler line. Words are kept in upper case, since "mnemonics are case-insensitive". -/
inductive Token where
  | word (letters : List Char)
  | literal (c : Char)
  | comma
deriving DecidableEq, Repr

/-- Why a line is no statement. -/
inductive AsmError where
  /-- No mnemonic of R80 or R81, or operands of another form. -/
  | badStatement
  /-- "An operand outside its range is an assembly error; the assembler emits no word for it." -/
  | outOfRange
deriving DecidableEq, Repr

/-- White space between tokens. -/
def isBlank (c : Char) : Bool := c == ' ' || c == '\t' || c == '\r'

/-- The word read so far (in reverse), as a token. -/
def endWord (w : List Char) : List Token := if w.isEmpty then [] else [.word w.reverse]

/-- The tokens of one line: words, character literals and commas, up to the comment that `;` starts. -/
def tokens : List Char → List Char → List Token
  | [], w => endWord w
  | '\'' :: c :: '\'' :: rest, w => endWord w ++ .literal c :: tokens rest []
  | c :: rest, w =>
    if c = ';' then endWord w
    else if c = ',' then endWord w ++ .comma :: tokens rest []
    else if isBlank c then endWord w ++ tokens rest []
    else tokens rest (c.toUpper :: w)

/-- The operands between the commas; at least one, perhaps empty. -/
def splitAtCommas : List Token → List (List Token)
  | [] => [[]]
  | .comma :: rest => [] :: splitAtCommas rest
  | t :: rest =>
    match splitAtCommas rest with
    | [] => [[t]]
    | op :: ops => (t :: op) :: ops

/-! ### Numbers: "decimal or `0x`/`0b` prefixed" -/

/-- The value of a digit, if it is one of the base. -/
def digitValue (base : Nat) (c : Char) : Option Nat :=
  let v := if '0' ≤ c ∧ c ≤ '9' then c.toNat - '0'.toNat else if 'A' ≤ c ∧ c ≤ 'F' then c.toNat - 'A'.toNat + 10 else base
  if v < base then some v else none

/-- The value of digits after those whose value is `acc`. -/
def digitsValue (base : Nat) : List Char → Nat → Option Nat
  | [], acc => some acc
  | c :: rest, acc =>
    match digitValue base c with
    | some v => digitsValue base rest (acc * base + v)
    | none => none

/-- A number; there is at least one digit. -/
def numberValue : List Char → Option Nat
  | [] => none
  | ['0', 'X'] => none
  | ['0', 'B'] => none
  | '0' :: 'X' :: ds => digitsValue 16 ds 0
  | '0' :: 'B' :: ds => digitsValue 2 ds 0
  | ds => digitsValue 10 ds 0

/-! ### Operands -/

/-- A number operand below `bound`. -/
def numberOperand (bound : Nat) : List Token → Except AsmError Nat
  | [.word ds] =>
    match numberValue ds with
    | some n => if n < bound then .ok n else .error .outOfRange
    | none => .error .badStatement
  | _ => .error .badStatement

/-- A symbol operand: a number, or a character literal, "meaning its byte value". -/
def symbolOperand : List Token → Except AsmError Nat
  | [.literal c] => if c.toNat < 128 then .ok c.toNat else .error .outOfRange
  | op => numberOperand 256 op

/-- An index operand, 0 to 65535. -/
def indexOperand (op : List Token) : Except AsmError Index := do
  let n ← numberOperand 65536 op
  return BitVec.ofNat 16 n

/-- A code written out in 1 to 64 binary digits (R81), as LEN and PATTERN. -/
def binaryCode : List Token → Except AsmError Instr
  | [.word ds] =>
    match digitsValue 2 ds 0 with
    | some v =>
      if 1 ≤ ds.length ∧ ds.length ≤ 64 then .ok (.pkPut (BitVec.ofNat 7 ds.length) (BitVec.ofNat 64 v))
      else .error .outOfRange
    | none => .error .badStatement
  | _ => .error .badStatement

/-- UP.WRBYTE for each byte operand, from index `i` on (R81, UP.LOAD). -/
def loadBytes : Nat → List (List Token) → Except AsmError (List Instr)
  | _, [] => .ok []
  | i, b :: bs => do
    let v ← numberOperand 256 b
    let rest ← loadBytes (i + 1) bs
    if i < 65536 then return .upWrbyte (BitVec.ofNat 16 i) (BitVec.ofNat 8 v) :: rest
    else .error .outOfRange

/-! ### Statements -/

/-- UP.SETNODE idx, EMPTY | LEAF sym | INTERNAL left, right (R80). -/
def setnodeStatement : List (List Token) → Except AsmError (List Instr)
  | [idx, [.word k]] => do
    let i ← indexOperand idx
    if String.ofList k = "EMPTY" then return [.upSetnode i 0#2 0#8 0#16 0#16] else .error .badStatement
  | [idx, .word k :: sym] => do
    let i ← indexOperand idx
    let v ← symbolOperand sym
    if String.ofList k = "LEAF" then return [.upSetnode i 1#2 (BitVec.ofNat 8 v) 0#16 0#16]
    else .error .badStatement
  | [idx, .word k :: left, right] => do
    let i ← indexOperand idx
    let l ← indexOperand left
    let r ← indexOperand right
    if String.ofList k = "INTERNAL" then return [.upSetnode i 2#2 0#8 l r] else .error .badStatement
  | _ => .error .badStatement

/-- A statement of one operand list: the rows of R80, then those of R81. -/
def statement (mnemonic : String) (ops : List (List Token)) : Except AsmError (List Instr) :=
  match mnemonic, ops with
  | "NOP", [[]] => .ok [.nop]
  | "PK.RESET", [[]] => .ok [.pkReset]
  | "PK.PUT", [len, pattern] => do
    let l ← numberOperand 128 len
    let p ← numberOperand (2 ^ 64) pattern
    return [.pkPut (BitVec.ofNat 7 l) (BitVec.ofNat 64 p)]
  | "PK.FINISH", [[]] => .ok [.pkFinish]
  | "PK.RDBYTE", [idx] => do return [.pkRdbyte (← indexOperand idx)]
  | "PK.STAT", [[]] => .ok [.pkStat]
  | "UP.RESET", [[]] => .ok [.upReset]
  | "UP.REWIND", [[]] => .ok [.upRewind]
  | "UP.WRBYTE", [idx, byte] => do
    let i ← indexOperand idx
    let b ← numberOperand 256 byte
    return [.upWrbyte i (BitVec.ofNat 8 b)]
  | "UP.SETNBITS", [n] => do
    let v ← numberOperand (2 ^ 64) n
    return [.upSetnbits (BitVec.ofNat 64 v)]
  | "UP.SETNODE", ops => setnodeStatement ops
  | "UP.SETROOT", [idx] => do return [.upSetroot (← indexOperand idx)]
  | "UP.DECODE", [[]] => .ok [.upDecode]
  | "UP.STAT", [[]] => .ok [.upStat]
  | "PK.PUTB", [code] => do return [← binaryCode code]
  | "UP.LEAF", [idx, sym] => setnodeStatement [idx, .word "LEAF".toList :: sym]
  | "UP.NODE", [idx, left, right] => setnodeStatement [idx, .word "INTERNAL".toList :: left, right]
  | "UP.CLEAR", [idx] => setnodeStatement [idx, [.word "EMPTY".toList]]
  | "UP.LOAD", n :: b :: bs => do
    let v ← numberOperand (2 ^ 64) n
    let writes ← loadBytes 0 (b :: bs)
    return writes ++ [.upSetnbits (BitVec.ofNat 64 v)]
  | _, _ => .error .badStatement

/-- The commands a line of text stands for; a blank line, or one of a comment alone, stands for none. -/
def assembleLine (line : List Char) : Except AsmError (List Instr) :=
  match tokens line [] with
  | [] => .ok []
  | .word m :: rest => statement (String.ofList m) (splitAtCommas rest)
  | .literal _ :: _ => .error .badStatement
  | .comma :: _ => .error .badStatement

/-- The words a line of text assembles to (R80): "One command per line". -/
def assemble (line : String) : Except AsmError (List Command) := do
  return (← assembleLine line.toList).map encode

/-! ### Disassembly (30_encoding.md R82) -/

/-- One hexadecimal digit, in upper case. -/
def hexDigit (n : Nat) : Char := if n < 10 then Char.ofNat (48 + n) else Char.ofNat (55 + n)

/-- `0x` and the given number of hexadecimal digits. -/
def hexText (digits n : Nat) : String :=
  "0x" ++ String.ofList ((List.range digits).reverse.map fun k => hexDigit (n / 16 ^ k % 16))

/-- A number in decimal. -/
def decimalText (n : Nat) : String := String.ofList (Nat.toDigits 10 n)

/-- The node operand of UP.SETNODE as text; "For UP.SETNODE the data word selects the printed form". -/
def nodeText (d : BitVec 64) : String :=
  if kindField d = 0#2 then "EMPTY"
  else if kindField d = 1#2 then "LEAF " ++ decimalText (symOperand d).toNat
  else if kindField d = 2#2 then
    "INTERNAL " ++ decimalText (leftOperand d).toNat ++ ", " ++ decimalText (rightOperand d).toNat
  else "KIND3 " ++ hexText 16 d.toNat

/-- A command as text: its row with its fields. -/
def commandText (i : Instr) (d : BitVec 64) : String :=
  match i with
  | .nop => i.mnemonic
  | .pkReset => i.mnemonic
  | .pkPut len pattern => i.mnemonic ++ " " ++ decimalText len.toNat ++ ", " ++ decimalText pattern.toNat
  | .pkFinish => i.mnemonic
  | .pkRdbyte idx => i.mnemonic ++ " " ++ decimalText idx.toNat
  | .pkStat => i.mnemonic
  | .upReset => i.mnemonic
  | .upRewind => i.mnemonic
  | .upWrbyte idx byte => i.mnemonic ++ " " ++ decimalText idx.toNat ++ ", " ++ decimalText byte.toNat
  | .upSetnbits n => i.mnemonic ++ " " ++ decimalText n.toNat
  | .upSetnode idx _ _ _ _ => i.mnemonic ++ " " ++ decimalText idx.toNat ++ ", " ++ nodeText d
  | .upSetroot idx => i.mnemonic ++ " " ++ decimalText idx.toNat
  | .upDecode => i.mnemonic
  | .upStat => i.mnemonic

/-- The text of any two words: a command, or `.illegal` with the command word. -/
def disassemble (c : Command) : String :=
  match decode c with
  | .ok i => commandText i c.data
  | .error _ => ".illegal " ++ hexText 8 c.word.toNat

end Sys2Proof.Machine
end

