-- ==== Sys2Proof/Safety.lean ====
section
/-! DEFINITION. What the claims speak of: the invariants of the two units (10_state.md R29, R37), of the port
(30_encoding.md R65) and of a run (R56, R67); paths in the node table (41_unpacker.md R106, R110); what a run yields
(70_reset_and_hazards.md R153); the expansions of assembler text (30_encoding.md R81). -/

namespace Sys2Proof

/-! ### Which unit a command belongs to (10_state.md R20, R44) -/

/-- The commands that read or write the packer. -/
def Instr.usesPacker : Instr → Bool
  | .pkReset | .pkPut _ _ | .pkFinish | .pkRdbyte _ | .pkStat => true
  | .nop | .upReset | .upRewind | .upWrbyte _ _ | .upSetnbits _ | .upSetnode _ _ _ _ _ | .upSetroot _ | .upDecode
  | .upStat => false

/-- The commands that read or write the unpacker. -/
def Instr.usesUnpacker : Instr → Bool
  | .upReset | .upRewind | .upWrbyte _ _ | .upSetnbits _ | .upSetnode _ _ _ _ _ | .upSetroot _ | .upDecode
  | .upStat => true
  | .nop | .pkReset | .pkPut _ _ | .pkFinish | .pkRdbyte _ | .pkStat => false

end Sys2Proof

namespace Sys2Proof.Machine

/-! ### Invariants of the units -/

/-- The packer's invariants: 10_state.md R29 (count, padding, sealedClean), the legal values of R28, and PK.BUF a
memory in canonical form inside its index space (20_memory.md R48). -/
structure Packer.Inv (cfg : Config) (pk : Packer) : Prop where
  canonical : Memory.wf unlistedByte pk.buf
  inside : Memory.within cfg.pkCapBytes pk.buf
  /-- R29(a). -/
  count : pk.nbits.toNat ≤ 8 * cfg.pkCapBytes
  /-- R29(b): the bits of the last byte past the cursor are zero. -/
  padding : ∀ q < 8 * pk.nbytes, pk.nbits.toNat ≤ q → streamBit pk.buf q = false
  /-- R29(c). -/
  sealedClean : pk.sealed = true → pk.err = .ok
  legalErr : pk.err.legalPkErr = true

/-- The unpacker's invariants: 10_state.md R37 (cursor, count, rootInside), the legal values of R36, the entries of R34,
and both memories in canonical form inside their index spaces (20_memory.md R49, R50). -/
structure Unpacker.Inv (cfg : Config) (up : Unpacker) : Prop where
  canonical : Memory.wf unlistedByte up.buf
  inside : Memory.within cfg.upCapBytes up.buf
  /-- R37(a). -/
  cursor : up.cursor.toNat ≤ up.nbits.toNat
  /-- R37(a). -/
  count : up.nbits.toNat ≤ 8 * cfg.upCapBytes
  nodesCanonical : Memory.wf NodeEntry.empty up.nodes
  nodesInside : Memory.within cfg.upNodes up.nodes
  /-- R34: the fields a kind does not use are 0. -/
  entries : ∀ c ∈ up.nodes, c.2.canonical = true
  /-- R37(b). -/
  rootInside : up.rootValid = true → up.root.toNat < cfg.upNodes
  legalErr : up.err.legalUpErr = true

/-- The invariant of the block: legal parameters (00_scope.md R6) and both units' invariants. -/
structure State.Inv (s : State) : Prop where
  cfg : s.cfg.Valid
  pk : s.pk.Inv s.cfg
  up : s.up.Inv s.cfg

/-! ### Invariant of the port -/

/-- A run (newest event first) in which commands and responses alternate: a response answers the command transferred
just before it, and a command transfers only when no other is outstanding (30_encoding.md R65). A reset abandons the
command outstanding (70_reset_and_hazards.md R142). -/
def alternates : List PortEvent → Bool
  | [] => true
  | .response _ :: .command c :: rest => alternates (.command c :: rest)
  | .response _ :: _ => false
  | .command _ :: .command _ :: _ => false
  | .command _ :: rest => alternates rest
  | .reset :: rest => alternates rest

/-- The command of a run that has no response yet. -/
def outstanding : List PortEvent → Option Command
  | .command c :: _ => some c
  | _ => none

/-- The port agrees with the run: it is idle when nothing is outstanding, and holds the command that is. -/
def State.PortInv (s : State) : Prop :=
  alternates s.trace = true ∧
  match s.phase with
  | .idle => outstanding s.trace = none
  | .busy c => outstanding s.trace = some c
  | .offering _ => (outstanding s.trace).isSome = true

/-- The host, holding `held`, keeps the handshake at each of the edges it will drive, as long as no command transfers
there (30_encoding.md R64; 70_reset_and_hazards.md R149). -/
def keepsHandshake : Option Command → List Edge → Bool
  | _, [] => true
  | held, e :: rest => !breaksHandshake held e && keepsHandshake e.offered rest

/-! ### A run as a sequence of transactions (20_memory.md R56; 30_encoding.md R67) -/

/-- The block with the two units as given and an idle port. -/
def State.ofUnits (cfg : Config) (pk : Packer) (up : Unpacker) : State :=
  { State.resetWith cfg with pk := pk, up := up }

/-- The units a run leaves when no command is outstanding: each answered command is one transaction, with the response
the run shows; a reset starts afresh, whatever came before. -/
inductive Replays (cfg : Config) : List PortEvent → Packer → Unpacker → Prop where
  | start : Replays cfg [] Packer.reset Unpacker.reset
  | reset (before : List PortEvent) : Replays cfg (.reset :: before) Packer.reset Unpacker.reset
  | answered {before : List PortEvent} {pk : Packer} {up : Unpacker} {c : Command} {u : State} {r : Response}
      (prior : Replays cfg before pk up) (ran : runCommand c (State.ofUnits cfg pk up) = .next u)
      (answer : u.phase = .offering r) : Replays cfg (.response r :: .command c :: before) u.pk u.up

/-- The clocked machine is where its run says: the transactions of the run, and the one outstanding, give its units and
the response it offers. -/
def State.Faithful (s : State) : Prop :=
  match s.phase with
  | .idle => Replays s.cfg s.trace s.pk s.up
  | .busy c => ∃ before, s.trace = .command c :: before ∧ Replays s.cfg before s.pk s.up
  | .offering r => ∃ c before pk up u, s.trace = .command c :: before ∧ Replays s.cfg before pk up ∧
      runCommand c (State.ofUnits s.cfg pk up) = .next u ∧ u.pk = s.pk ∧ u.up = s.up ∧ u.phase = .offering r

/-! ### Paths in the node table -/

/-- Following the bits `bits` from the entry `n` leads to the entry `m`: every entry on the way but the last is
INTERNAL, and each bit takes a child inside the table (41_unpacker.md R106). -/
inductive Path (cfg : Config) (nodes : List (Nat × NodeEntry)) : NodeEntry → List Bool → NodeEntry → Prop where
  | here (n : NodeEntry) : Path cfg nodes n [] n
  | child {n m : NodeEntry} {b : Bool} {bits : List Bool} (internal : n.kind = .internal)
      (inside : n.child b < cfg.upNodes)
      (rest : Path cfg nodes (Memory.read NodeEntry.empty nodes (n.child b)) bits m) : Path cfg nodes n (b :: bits) m

/-- The root entry. -/
def Unpacker.rootEntry (up : Unpacker) : NodeEntry := Memory.read NodeEntry.empty up.nodes up.root.toNat

/-- The bits of a code in stream order (00_scope.md R12). -/
def codeBits (len : Nat) (pattern : BitVec 64) : List Bool := (List.range len).map (codeBit pattern len)

/-- (len, pattern) is the code of the symbol `sym` in the unpacker's tree (41_unpacker.md R110(b)): the branch bits from
the root to a leaf of `sym`, or the single bit 0 when the root itself is that leaf. -/
def Unpacker.IsCodeOf (cfg : Config) (up : Unpacker) (sym : Byte) (len : BitVec 7) (pattern : BitVec 64) : Prop :=
  (up.rootEntry.kind = .leaf ∧ up.rootEntry.sym = sym ∧ codeBits len.toNat pattern = [false]) ∨
  (up.rootEntry.kind = .internal ∧ ∃ leaf, leaf.kind = .leaf ∧ leaf.sym = sym ∧
    Path cfg up.nodes up.rootEntry (codeBits len.toNat pattern) leaf)

/-! ### Sequences of commands -/

/-- Commands executed one after another, with their responses in order (20_memory.md R56). -/
def execAll : List Instr → State → Option (State × List Response)
  | [], s => some (s, [])
  | i :: rest, s =>
    match exec i s with
    | .next t =>
      match t.phase with
      | .offering r =>
        match execAll rest t with
        | some (u, rs) => some (u, r :: rs)
        | none => none
      | .idle => none
      | .busy _ => none
    | .fault _ => none
    | .refused _ => none

/-- A code as PK.PUT receives it. -/
structure Code where
  len : BitVec 7
  pattern : BitVec 64
deriving DecidableEq, Repr

/-- PK.RESET, then one PK.PUT for each code, in order (70_reset_and_hazards.md R145). -/
def packCommands (codes : List Code) : List Instr := .pkReset :: codes.map fun c => .pkPut c.len c.pattern

/-- The concatenation of the codes' bit sequences (40_packer.md R92). -/
def concatBits (codes : List Code) : List Bool := codes.flatMap fun c => codeBits c.len.toNat c.pattern

/-- The host copies the packer's stream into the unpacker (41_unpacker.md R110(d)): UP.WRBYTE for bytes 0 to
PK.NBYTES - 1, then UP.SETNBITS. -/
def copyCommands (pk : Packer) : List Instr :=
  ((List.range pk.nbytes).map fun i => .upWrbyte (BitVec.ofNat 16 i) (Memory.read unlistedByte pk.buf i)) ++
  [.upSetnbits (zextCount pk.nbits)]

/-! ### What a run yields (70_reset_and_hazards.md R153)

The responses, in order, the final state (the state itself), the packer's output and the unpacker's output. -/

/-- The responses of a run (newest event first) since the last reset, in order. -/
def runResponses : List PortEvent → List Response
  | .response r :: before => runResponses before ++ [r]
  | .command _ :: before => runResponses before
  | .reset :: _ => []
  | [] => []

/-- The bytes 0 to PK.NBYTES - 1 and the valid bit count, as the packer holds them; a run's output only once the stream
is finished (`packedStream`). -/
def Packer.stream (pk : Packer) : List Byte × Nat :=
  ((List.range pk.nbytes).map (Memory.read unlistedByte pk.buf), pk.nbits.toNat)

/-- A PK.FINISH of the run (newest event first) returned OK, with neither a PK.RESET answered nor a reset since. -/
def finished : List PortEvent → Bool
  | .response r :: .command c :: before =>
    if decode c = .ok .pkReset then false
    else if decode c = .ok .pkFinish then decide (r.status = .ok) || finished before
    else finished before
  | .response _ :: before => finished before
  | .command _ :: before => finished before
  | .reset :: _ => false
  | [] => false

/-- The packer's output of the run that led to `s`, when no command is outstanding: the PackedStream, read after a
PK.FINISH that returned OK. A run whose stream is not finished has none; DESIGN CHOICE: nor has one that starts a new
stream after it (log 13). -/
def packedStream (s : State) : Option (List Byte × Nat) :=
  if s.phase = .idle ∧ finished s.trace = true then some s.pk.stream else none

/-- The host finishes the stream and reads it out: PK.FINISH, then PK.RDBYTE for bytes 0 to PK.NBYTES - 1
(70_reset_and_hazards.md R145). -/
def finishAndRead (pk : Packer) : List Instr :=
  .pkFinish :: (List.range pk.nbytes).map fun i => .pkRdbyte (BitVec.ofNat 16 i)

/-- The responses of a run (newest event first) to UP.DECODE commands since the last reset, in order. -/
def decodeResponses : List PortEvent → List Response
  | .response r :: .command c :: before =>
    decodeResponses before ++ (if decode c = .ok .upDecode then [r] else [])
  | .reset :: _ => []
  | .response _ :: before => decodeResponses before
  | .command _ :: before => decodeResponses before
  | [] => []

/-- The symbols returned with OK up to the first DONE; none of it is valid if a response before that is an error. DESIGN
CHOICE: where no DONE has been returned, which R153 does not treat, they are the symbols returned so far (log 13). -/
def symbolsUpToDone : List Response → Option (List Byte)
  | [] => some []
  | r :: rest =>
    if r.status = .done then some []
    else if r.status = .ok then (symbolsUpToDone rest).map (r.data.setWidth 8 :: ·)
    else none

/-- The unpacker's output of a run. -/
def unpackedSymbols (trace : List PortEvent) : Option (List Byte) := symbolsUpToDone (decodeResponses trace)

/-! ### Assembler text (30_encoding.md R81) -/

/-- Statements one after another. -/
def statements : List (String × List (List Token)) → Except AsmError (List Instr)
  | [] => .ok []
  | (mnemonic, ops) :: rest => do
    let first ← statement mnemonic ops
    let others ← statements rest
    return first ++ others

/-- A number written in decimal, as an operand. -/
def decimalOperand (n : Nat) : List Token := [.word (Nat.toDigits 10 n)]

/-- The expansion of `UP.LOAD n, b0, ..., bm`: `UP.WRBYTE i, bi` for each byte operand, then `UP.SETNBITS n`. -/
def loadExpansion (n : List Token) (bytes : List (List Token)) : List (String × List (List Token)) :=
  bytes.zipIdx.map (fun b => ("UP.WRBYTE", [decimalOperand b.2, b.1])) ++ [("UP.SETNBITS", [n])]

end Sys2Proof.Machine
end

