-- ==== Sys2Proof/Certificates/Slice0/Obligations.lean ====
section
/-! DEFINITION. The statements for the provers. Each docstring names the rule it formalises. -/

open Sys2Proof Sys2Proof.Machine

/-! ### Encoding -/

/-- One word of each family, written out from the patterns of 30_encoding.md R73: LEN = 0b0000011 in PK.PUT, IDX = 5 in
PK.RDBYTE and UP.SETROOT, a LEAF of 'a' and an INTERNAL 1, 2 in UP.SETNODE (R79), an illegal word (R121). -/
def Obligations.SpecWordsDecode : Prop :=
  decode ⟨0b00000000000000000000000000000000#32, 7#64⟩ = .ok .nop ∧
  decode ⟨0b00000000000000000000001100000010#32, 0b101#64⟩ = .ok (.pkPut 3#7 5#64) ∧
  decode ⟨0b00000000000001010000000000000100#32, 7#64⟩ = .ok (.pkRdbyte 5#16) ∧
  decode ⟨0b00000000000000010000000000010100#32, 0x4000000000000061#64⟩ = .ok (.upSetnode 1#16 1#2 0x61#8 0#16 0#16) ∧
  decode ⟨0b00000000000000000000000000010100#32, 0x8000000000020001#64⟩ = .ok (.upSetnode 0#16 2#2 0#8 1#16 2#16) ∧
  decode ⟨0b00000000000001010000000000010101#32, 7#64⟩ = .ok (.upSetroot 5#16) ∧
  decode ⟨0b00000000000000000000000000010110#32, 7#64⟩ = .ok .upDecode ∧
  decode ⟨0b00000000000000000000000100000001#32, 7#64⟩ = .error .unusedLen

/-- Decoding the words of a well-formed command gives it back, with every operand (30_encoding.md R68, R70, R73,
R79, R80). -/
def Obligations.DecodeOfEncode : Prop :=
  ∀ i : Instr, i.wf = true → decode (encode i) = .ok i

/-- Every command word that decodes is the one its command is written as, and what it decodes to is well formed
(30_encoding.md R73, R74). -/
def Obligations.EncodeOfDecode : Prop :=
  ∀ (c : Command) (i : Instr), decode c = .ok i → i.wf = true ∧ (encode i).word = c.word

/-- 30_encoding.md R73: a word is a command of a row exactly when (w AND mask) = match; a word that matches no row is
none; no word matches two rows. -/
def Obligations.DecoderSelectsTheTableRow : Prop :=
  (∀ (c : Command) (row : OpcodeRow), row ∈ opcodeTable →
    (c.word &&& row.mask = row.value ↔ ∃ i, decode c = .ok i ∧ i.mnemonic = row.mnemonic)) ∧
  (∀ c : Command, (∀ row ∈ opcodeTable, c.word &&& row.mask ≠ row.value) → ∃ why, decode c = .error why) ∧
  (∀ w : BitVec 32, opcodeTable.Pairwise fun a b => ¬(w &&& a.mask = a.value ∧ w &&& b.mask = b.value))

/-- 30_encoding.md R70, R75, R79: the data bits a command does not name do not change what the words decode to. -/
def Obligations.UnnamedDataBitsAreIgnored : Prop :=
  ∀ (w : BitVec 32) (d d' : BitVec 64),
    (opField w ≠ 0x02#8 → opField w ≠ 0x12#8 → opField w ≠ 0x13#8 → opField w ≠ 0x14#8 →
      decode ⟨w, d⟩ = decode ⟨w, d'⟩) ∧
    (opField w = 0x12#8 → d.extractLsb' 0 8 = d'.extractLsb' 0 8 → decode ⟨w, d⟩ = decode ⟨w, d'⟩) ∧
    (opField w = 0x14#8 → d.extractLsb' 62 2 = d'.extractLsb' 62 2 →
      (d.extractLsb' 62 2 = 1#2 → d.extractLsb' 0 8 = d'.extractLsb' 0 8) →
      (d.extractLsb' 62 2 = 2#2 → d.extractLsb' 0 32 = d'.extractLsb' 0 32) → decode ⟨w, d⟩ = decode ⟨w, d'⟩)

/-- 45_common.md R121 with 30_encoding.md R76: a word that matches no row answers ILLEGAL_COMMAND with data 0, whatever
the data word, and no register changes. -/
def Obligations.IllegalWordIsAnsweredAndChangesNothing : Prop :=
  ∀ (w : BitVec 32) (d : BitVec 64) (s : State), (∀ row ∈ opcodeTable, w &&& row.mask ≠ row.value) →
    runCommand ⟨w, d⟩ s = .next { s with phase := .offering ⟨.illegalCommand, 0#64⟩ }

/-! ### The step -/

/-- At an edge at which the block completes the command it holds (rst = 0, the handshake kept, no further cycle needed),
the step is that command's meaning at the state in which the edge has passed (30_encoding.md R66, R67; log 3, 4). -/
def Obligations.StepRunsTheDecodedCommand : Prop :=
  ∀ (s : State) (c : Command) (i : Instr), s.phase = .busy c → decode c = .ok i → s.edge.rst = false →
    breaksHandshake s.held s.edge = false → s.edge.stall = false →
    step s = exec i { s with edges := s.edges.tail, held := s.edge.offered }

/-- A command placed as the next one to run is the one the next step runs; what the host drives afterwards is as before
(log 3). -/
def Obligations.PlacedWordIsRunByTheNextStep : Prop :=
  ∀ (s : State) (nbits w : Nat) (i : Instr), decodeTableWord nbits w = some i →
    step (s.withFetchWord nbits w) = exec i { s with phase := .busy (tableCommand nbits w), held := none,
                                                     trace := .command (tableCommand nbits w) :: s.trace }

/-- 70_reset_and_hazards.md R141, R142: at an edge with rst = 1 every register takes its reset value, whatever the port
was doing; the command in flight is dropped, and cmd_ready and rsp_valid are 0 while rst = 1. PK.BUF is left open
(10_state.md R42). -/
def Obligations.ResetPinResetsEveryRegister : Prop :=
  ∀ s : State, s.edge.rst = true → s.cmdReady = false ∧ s.rspValid = false ∧
    ∃ t, step s = .next t ∧ t.phase = .idle ∧ t.pk.nbits = 0#24 ∧ t.pk.sealed = false ∧ t.pk.err = .ok ∧
      (∀ i, Memory.read unlistedByte t.up.buf i = 0x00#8) ∧ t.up.nbits = 0#24 ∧ t.up.cursor = 0#24 ∧
      (∀ i, Memory.read NodeEntry.empty t.up.nodes i = { kind := .empty, sym := 0#8, left := 0#16, right := 0#16 }) ∧
      t.up.root = 0#16 ∧ t.up.rootValid = false ∧ t.up.err = .ok

/-- The model's choice, no rule of the spec: the whole state after an edge with rst = 1. The units are those of the state
after reset, PK.BUF with no byte listed among them (log 2); the parameters stay (log 1), the host's script goes on
(log 3), a command offered at the edge is held (log 6), and the run notes the reset (log 5). -/
def Obligations.ResetPinLeavesTheModelsResetState : Prop :=
  ∀ s : State, s.edge.rst = true →
    step s = .next { State.resetWith s.cfg with edges := s.edges.tail, held := s.edge.offered,
                                                trace := .reset :: s.trace }

/-- 30_encoding.md R64: a command transfers exactly when cmd_valid = 1 and cmd_ready = 1, and what is sampled is
cmd_word and cmd_data of that edge; no register of a unit changes. -/
def Obligations.CommandTransfersWhenValidAndReady : Prop :=
  ∀ s : State, s.edge.rst = false → breaksHandshake s.held s.edge = false →
    (s.cmdReady = true → s.edge.cmdValid = true →
      step s = .next { s with phase := .busy ⟨s.edge.cmdWord, s.edge.cmdData⟩, held := none, edges := s.edges.tail,
                              trace := .command ⟨s.edge.cmdWord, s.edge.cmdData⟩ :: s.trace }) ∧
    (s.cmdReady = true → s.edge.cmdValid = false →
      step s = .next { s with held := none, edges := s.edges.tail }) ∧
    (s.cmdReady = false → ∀ t, step s = .next t → ∀ c, t.phase = .busy c → s.phase = .busy c)

/-- 30_encoding.md R64, R65: a response transfers when rsp_valid = 1 and rsp_ready = 1, and only then is cmd_ready 1
again; until then rsp_status and rsp_data hold their values. -/
def Obligations.ResponseHoldsUntilItTransfers : Prop :=
  ∀ (s : State) (r : Response), s.phase = .offering r → s.edge.rst = false → breaksHandshake s.held s.edge = false →
    s.cmdReady = false ∧ s.rspStatus = some r.status.code ∧ s.rspData = some r.data ∧
    (s.edge.rspReady = true →
      step s = .next { s with phase := .idle, held := s.edge.offered, edges := s.edges.tail,
                              trace := .response r :: s.trace }) ∧
    (s.edge.rspReady = false → step s = .next { s with held := s.edge.offered, edges := s.edges.tail })

/-- 93_implementation_defined.md S19: a host that changes a command it must hold is refused, unless the edge resets the
block (log 6). -/
def Obligations.BrokenHandshakeIsRefused : Prop :=
  ∀ (s : State) (c : Command), s.held = some c → s.edge.rst = false → s.edge.cmdValid = true →
    (⟨s.edge.cmdWord, s.edge.cmdData⟩ : Command) ≠ c → step s = .refused .handshakeBroken

/-- 30_encoding.md R65: every step keeps the strict alternation of commands and responses, at most one outstanding. -/
def Obligations.StepKeepsAlternation : Prop :=
  ∀ s t : State, s.PortInv → step s = .next t → t.PortInv

/-- 20_memory.md R56 and 30_encoding.md R67: every step keeps the units, and the response offered, those of the run's
transactions one after another. So the clocked machine refines `Exec`. -/
def Obligations.StepKeepsTheRunOfTransactions : Prop :=
  ∀ s t : State, s.Faithful → step s = .next t → t.Faithful

/-- 70_reset_and_hazards.md R151: every command completes. With a host that does not reset the block and keeps the
handshake, whatever next command it offers and holds meanwhile, the response is offered after at most one more edge than
the host's script has (log 3, 4). -/
def Obligations.HeldCommandIsAnswered : Prop :=
  ∀ (s : State) (c : Command), s.Inv → s.phase = .busy c → (∀ e ∈ s.edges, e.rst = false) →
    keepsHandshake s.held s.edges = true → ∃ k t r, k ≤ s.edges.length + 1 ∧
      Host.Core.run Sys2Proof.core k s = .next t ∧ t.phase = .offering r

/-! ### Invariants -/

/-- 00_scope.md R7 (with R6): in a legal build every bit count that fits a buffer is a value of the counter registers;
and no counter can wrap: PK.NBITS grows by exactly LEN, UP.NBITS takes exactly N and UP.CURSOR never goes back, but where
a command sets the counter to 0. -/
def Obligations.CountersCannotWrap : Prop :=
  (∀ cfg : Config, cfg.Valid → 8 * cfg.pkCapBytes ≤ 524288 ∧ 8 * cfg.upCapBytes ≤ 524288 ∧
    8 * cfg.pkCapBytes < 2 ^ 24 ∧ 8 * cfg.upCapBytes < 2 ^ 24 ∧
    (∀ n, n ≤ 8 * cfg.pkCapBytes ∨ n ≤ 8 * cfg.upCapBytes → (BitVec.ofNat _ n : Count).toNat = n)) ∧
  (∀ (i : Instr) (s t : State), s.Inv → exec i s = .next t →
    (t.pk.nbits.toNat = s.pk.nbits.toNat ∨ (i = .pkReset ∧ t.pk.nbits.toNat = 0) ∨
      ∃ len pattern, i = .pkPut len pattern ∧ t.pk.nbits.toNat = s.pk.nbits.toNat + len.toNat) ∧
    (t.up.nbits.toNat = s.up.nbits.toNat ∨ (i = .upReset ∧ t.up.nbits.toNat = 0) ∨
      ∃ n, i = .upSetnbits n ∧ t.up.nbits.toNat = n.toNat) ∧
    (s.up.cursor.toNat ≤ t.up.cursor.toNat ∨
      ((i = .upReset ∨ i = .upRewind ∨ ∃ n, i = .upSetnbits n) ∧ t.up.cursor.toNat = 0)))

/-- 10_state.md R42: the state after reset meets every invariant, in every legal build. -/
def Obligations.ResetMeetsTheInvariants : Prop :=
  (∀ cfg : Config, cfg.Valid →
    (State.resetWith cfg).Inv ∧ (State.resetWith cfg).PortInv ∧ (State.resetWith cfg).Faithful) ∧
  State.reset.Inv ∧ State.reset.PortInv ∧ State.reset.Faithful

/-- 10_state.md R29, R37: every step keeps the packer's and the unpacker's invariants. -/
def Obligations.StepKeepsTheInvariant : Prop :=
  ∀ s t : State, s.Inv → step s = .next t → t.Inv

/-- 30_encoding.md R67 and 93_implementation_defined.md section 2: every command, legal or not, completes and is
answered, and the invariant is kept. -/
def Obligations.EveryCommandIsAnswered : Prop :=
  ∀ (c : Command) (s : State), s.Inv → ∃ t r, runCommand c s = .next t ∧ t.phase = .offering r ∧ t.Inv

/-- No step faults: the one stop of the machine is a host that breaks the handshake (S19). -/
def Obligations.StepStopsOnlyOnABrokenHandshake : Prop :=
  ∀ s : State, s.Inv → (∃ t, step s = .next t) ∨
    (step s = .refused .handshakeBroken ∧ s.edge.rst = false ∧
      ∃ c, s.held = some c ∧ s.edge.cmdValid = true ∧ c ≠ ⟨s.edge.cmdWord, s.edge.cmdData⟩)

/-! ### Rules over all commands -/

/-- 10_state.md R20: no command of one unit reads or writes the other unit's state: the other unit is unchanged, and the
outcome is the same whatever it holds. -/
def Obligations.UnitsShareNothing : Prop :=
  ∀ (i : Instr) (s t : State), exec i s = .next t →
    (i.usesUnpacker = false → t.up = s.up ∧ ∀ up, exec i { s with up := up } = .next { t with up := up }) ∧
    (i.usesPacker = false → t.pk = s.pk ∧ ∀ pk, exec i { s with pk := pk } = .next { t with pk := pk })

/-- A command touches the two units and offers its response; the parameters and the host's side stay as they are. -/
def Obligations.CommandsLeaveTheHostSideAlone : Prop :=
  ∀ (i : Instr) (s t : State), exec i s = .next t →
    ∃ r, t = { s with pk := t.pk, up := t.up, phase := .offering r }

/-- 10_state.md R44, the writes (w) of both tables, with R27 and R40: which command can change each register. -/
def Obligations.OnlyTheListedCommandsWriteARegister : Prop :=
  ∀ (i : Instr) (s t : State), exec i s = .next t →
    (t.pk.buf ≠ s.pk.buf → ∃ len pattern, i = .pkPut len pattern) ∧
    (t.pk.nbits ≠ s.pk.nbits → i = .pkReset ∨ ∃ len pattern, i = .pkPut len pattern) ∧
    (t.pk.sealed ≠ s.pk.sealed → (i = .pkReset ∧ t.pk.sealed = false) ∨ (i = .pkFinish ∧ t.pk.sealed = true)) ∧
    (t.pk.err ≠ s.pk.err → i = .pkReset ∨ ∃ len pattern, i = .pkPut len pattern) ∧
    (t.up.buf ≠ s.up.buf → i = .upReset ∨ ∃ idx byte, i = .upWrbyte idx byte) ∧
    (t.up.nbits ≠ s.up.nbits → i = .upReset ∨ ∃ n, i = .upSetnbits n) ∧
    (t.up.cursor ≠ s.up.cursor → i = .upReset ∨ i = .upRewind ∨ i = .upDecode ∨ ∃ n, i = .upSetnbits n) ∧
    (t.up.nodes ≠ s.up.nodes → i = .upReset ∨ ∃ idx kind sym left right, i = .upSetnode idx kind sym left right) ∧
    (t.up.root ≠ s.up.root → i = .upReset ∨ ∃ idx, i = .upSetroot idx) ∧
    (t.up.rootValid ≠ s.up.rootValid → i = .upReset ∨ ∃ idx, i = .upSetroot idx) ∧
    (t.up.err ≠ s.up.err → i = .upReset ∨ i = .upRewind ∨ i = .upDecode ∨ ∃ n, i = .upSetnbits n)

/-- 60_exceptions.md R128: a sticky error keeps its value until one of the clearing commands. -/
def Obligations.StickyErrorIsClearedOnlyByItsCommands : Prop :=
  ∀ (i : Instr) (s t : State), exec i s = .next t →
    (s.pk.err ≠ .ok → t.pk.err = s.pk.err ∨ (i = .pkReset ∧ t.pk.err = .ok)) ∧
    (s.up.err ≠ .ok → t.up.err = s.up.err ∨
      ((i = .upReset ∨ i = .upRewind ∨ ∃ n, i = .upSetnbits n) ∧ t.up.err = .ok))

/-- 60_exceptions.md R127: while PK.ERR is not OK, PK.PUT and PK.FINISH return it with data 0 and change nothing; while
UP.ERR is not OK, so does UP.DECODE. Every other command runs as usual, whatever the two error registers hold: its
status and every register but those two are the same. An error of one unit never blocks a command of the other. -/
def Obligations.StickyErrorBlocks : Prop :=
  ∀ s : State,
    (s.pk.err ≠ .ok →
      (∀ len pattern, exec (.pkPut len pattern) s = .next { s with phase := .offering ⟨s.pk.err, 0#64⟩ }) ∧
      exec .pkFinish s = .next { s with phase := .offering ⟨s.pk.err, 0#64⟩ }) ∧
    (s.up.err ≠ .ok → exec .upDecode s = .next { s with phase := .offering ⟨s.up.err, 0#64⟩ }) ∧
    (∀ (i : Instr) (t : State) (r : Response) (e e' : Status), (∀ len pattern, i ≠ .pkPut len pattern) →
      i ≠ .pkFinish → i ≠ .upDecode → exec i s = .next t → t.phase = .offering r →
      ∃ u r', exec i { s with pk := s.pk.latch e, up := s.up.latch e' } = .next u ∧ u.phase = .offering r' ∧
        r'.status = r.status ∧ u.pk.latch .ok = t.pk.latch .ok ∧ u.up.latch .ok = t.up.latch .ok) ∧
    (∀ (i : Instr) (t : State) (e : Status), exec i s = .next t →
      (i.usesUnpacker = false → exec i { s with up := s.up.latch e } = .next { t with up := t.up.latch e }) ∧
      (i.usesPacker = false → exec i { s with pk := s.pk.latch e } = .next { t with pk := t.pk.latch e }))

/-- 60_exceptions.md R125, R126 and 30_encoding.md R71, R124, of every command word, legal or not: a rejection changes no
register, a sticky status stands in its unit's ERR afterwards, a status other than OK comes with data 0, and EMPTY_INPUT
is never returned. -/
def Obligations.StatusClassesAreKept : Prop :=
  ∀ (c : Command) (s t : State) (r : Response), s.Inv → runCommand c s = .next t → t.phase = .offering r →
    (r.status.rejection = true → t = { s with phase := .offering r }) ∧
    (r.status.stickyPk = true →
      t.pk.err = r.status ∧ ((∃ len pattern, decode c = .ok (.pkPut len pattern)) ∨ decode c = .ok .pkFinish)) ∧
    (r.status.stickyUp = true → t.up.err = r.status ∧ decode c = .ok .upDecode) ∧
    (r.status = .done → t = { s with phase := .offering r } ∧ decode c = .ok .upDecode) ∧
    (r.status ≠ .ok → r.data = 0#64) ∧ r.status ≠ .emptyInput

/-- 20_memory.md R55: PK.RDBYTE, PK.STAT and UP.STAT change no state, and repeating one returns the same data. -/
def Obligations.ReadCommandsChangeNothing : Prop :=
  ∀ (i : Instr) (s t : State), (∃ idx, i = .pkRdbyte idx) ∨ i = .pkStat ∨ i = .upStat → exec i s = .next t →
    (∃ r, t = { s with phase := .offering r }) ∧ exec i t = .next t

/-! ### Packer commands -/

/-- 45_common.md R120: NOP. -/
def Obligations.NopAnswersOkAndChangesNothing : Prop :=
  (∀ (d : BitVec 64) (s : State),
    runCommand ⟨0x00000000#32, d⟩ s = exec .nop s ∧
    exec .nop s = .next { s with phase := .offering ⟨.ok, 0#64⟩ }) ∧
  (∀ (w : BitVec 32) (d : BitVec 64) (s : State), w.extractLsb' 0 8 = 0x00#8 → w ≠ 0#32 →
    runCommand ⟨w, d⟩ s = .next { s with phase := .offering ⟨.illegalCommand, 0#64⟩ })

/-- 40_packer.md R85: PK.RESET. PK.BUF is not cleared. -/
def Obligations.PkResetStartsAnEmptyStream : Prop :=
  ∀ (d : BitVec 64) (s : State), decode ⟨0x00000001#32, d⟩ = .ok .pkReset ∧
    exec .pkReset s = .next { s with pk := { buf := s.pk.buf, nbits := 0#24, sealed := false, err := .ok },
                                     phase := .offering ⟨.ok, 0#64⟩ }

/-- 40_packer.md R87 (the closed form of R86's loop, with R88): a successful PK.PUT with c = PK.NBITS before it. The
response is OK with the new count; no other register and no byte outside those of positions c to c + LEN - 1 changes. -/
def Obligations.PkPutAppendsTheCode : Prop :=
  ∀ (len : BitVec 7) (pattern : BitVec 64) (s : State), s.Inv → s.pk.err = .ok → s.pk.sealed = false →
    1 ≤ len.toNat → len.toNat ≤ 64 → s.pk.nbits.toNat + len.toNat ≤ 8 * s.cfg.pkCapBytes →
    ∃ (buf : List Host.Cell) (nbits : BitVec 24),
      exec (.pkPut len pattern) s = .next { s with pk := { s.pk with buf := buf, nbits := nbits },
                                                   phase := .offering ⟨.ok, nbits.setWidth 64⟩ } ∧
      nbits.toNat = s.pk.nbits.toNat + len.toNat ∧
      (∀ j < len.toNat, streamBit buf (s.pk.nbits.toNat + j) = pattern.getLsbD (len.toNat - 1 - j)) ∧
      (∀ q, nbits.toNat ≤ q → q < 8 * ceil8 nbits.toNat → streamBit buf q = false) ∧
      (∀ q < s.pk.nbits.toNat, streamBit buf q = streamBit s.pk.buf q) ∧
      (∀ a, a < s.pk.nbits.toNat / 8 ∨ ceil8 (s.pk.nbits.toNat + len.toNat) ≤ a →
        Memory.read unlistedByte buf a = Memory.read unlistedByte s.pk.buf a)

/-- 40_packer.md R86, the checks, in the order of 60_exceptions.md R132; each leaves the stream and PK.SEALED as they
were, and the three raised ones latch in PK.ERR. -/
def Obligations.PkPutChecksInOrder : Prop :=
  ∀ (len : BitVec 7) (pattern : BitVec 64) (s : State),
    decode ⟨0#17 ++ len ++ 0x02#8, pattern⟩ = .ok (.pkPut len pattern) ∧
    (s.pk.err ≠ .ok → exec (.pkPut len pattern) s = .next { s with phase := .offering ⟨s.pk.err, 0#64⟩ }) ∧
    (s.pk.err = .ok → s.pk.sealed = true →
      exec (.pkPut len pattern) s = .next { s with phase := .offering ⟨.streamSealed, 0#64⟩ }) ∧
    (s.pk.err = .ok → s.pk.sealed = false → len = 0#7 →
      exec (.pkPut len pattern) s =
        .next { s with pk := { s.pk with err := .zeroLengthCode }, phase := .offering ⟨.zeroLengthCode, 0#64⟩ }) ∧
    (s.pk.err = .ok → s.pk.sealed = false → 65 ≤ len.toNat →
      exec (.pkPut len pattern) s =
        .next { s with pk := { s.pk with err := .codeLengthOverflow },
                       phase := .offering ⟨.codeLengthOverflow, 0#64⟩ }) ∧
    (s.pk.err = .ok → s.pk.sealed = false → 1 ≤ len.toNat → len.toNat ≤ 64 →
      8 * s.cfg.pkCapBytes < s.pk.nbits.toNat + len.toNat →
      exec (.pkPut len pattern) s =
        .next { s with pk := { s.pk with err := .bufferFull }, phase := .offering ⟨.bufferFull, 0#64⟩ })

/-- 40_packer.md R86(b), 93_implementation_defined.md S10: pattern bits at positions LEN and up are ignored. -/
def Obligations.PkPutIgnoresPatternBitsAboveLen : Prop :=
  ∀ (len : BitVec 7) (pattern pattern' : BitVec 64) (s : State),
    (∀ j < len.toNat, pattern.getLsbD j = pattern'.getLsbD j) →
    exec (.pkPut len pattern) s = exec (.pkPut len pattern') s

/-- 40_packer.md R89: PK.FINISH. -/
def Obligations.PkFinishSealsACleanStream : Prop :=
  ∀ (d : BitVec 64) (s : State), decode ⟨0x00000003#32, d⟩ = .ok .pkFinish ∧
    (s.pk.err ≠ .ok → exec .pkFinish s = .next { s with phase := .offering ⟨s.pk.err, 0#64⟩ }) ∧
    (s.pk.err = .ok →
      exec .pkFinish s = .next { s with pk := { s.pk with sealed := true },
                                        phase := .offering ⟨.ok, s.pk.nbits.setWidth 64⟩ })

/-- 40_packer.md R90: PK.RDBYTE. -/
def Obligations.PkRdbyteReadsAByteOfTheStream : Prop :=
  ∀ (idx : BitVec 16) (d : BitVec 64) (s : State), decode ⟨idx ++ 0x0004#16, d⟩ = .ok (.pkRdbyte idx) ∧
    (s.pk.nbits.toNat ≤ 8 * s.cfg.pkCapBytes → idx.toNat < ceil8 s.pk.nbits.toNat →
      exec (.pkRdbyte idx) s =
        .next { s with phase := .offering ⟨.ok, (Memory.read unlistedByte s.pk.buf idx.toNat).setWidth 64⟩ }) ∧
    (ceil8 s.pk.nbits.toNat ≤ idx.toNat →
      exec (.pkRdbyte idx) s = .next { s with phase := .offering ⟨.badArgument, 0#64⟩ })

/-- 40_packer.md R91 with the layout of 10_state.md R38: PK.STAT. -/
def Obligations.PkStatReportsTheControlState : Prop :=
  ∀ (d : BitVec 64) (s : State), decode ⟨0x00000005#32, d⟩ = .ok .pkStat ∧
    ∃ w : BitVec 64, exec .pkStat s = .next { s with phase := .offering ⟨.ok, w⟩ } ∧
      w.extractLsb' 0 24 = s.pk.nbits ∧ w.extractLsb' 24 4 = s.pk.err.code ∧ w.getLsbD 28 = s.pk.sealed ∧
      w.extractLsb' 29 35 = 0#35

/-- 40_packer.md R92: the stream law, from PK.RESET or from the reset pin. -/
def Obligations.StreamHoldsTheConcatenatedCodes : Prop :=
  ∀ (s t : State) (codes : List Code) (rs : List Response), s.Inv →
    (execAll (packCommands codes) s = some (t, rs) ∨
      s.pk = Packer.reset ∧ execAll (codes.map fun c => .pkPut c.len c.pattern) s = some (t, rs)) →
    (∀ r ∈ rs, r.status = .ok) →
    t.pk.nbits.toNat = (codes.map fun c => c.len.toNat).sum ∧
    (∀ q (h : q < (concatBits codes).length), q < t.pk.nbits.toNat ∧ streamBit t.pk.buf q = (concatBits codes)[q]) ∧
    (concatBits codes).length = t.pk.nbits.toNat ∧
    t.pk.nbytes = ceil8 t.pk.nbits.toNat ∧
    (∀ q, t.pk.nbits.toNat ≤ q → q < 8 * t.pk.nbytes → streamBit t.pk.buf q = false)

/-- 40_packer.md R93: the boundary law. -/
def Obligations.FullBytesHaveNoPadding : Prop :=
  ∀ pk : Packer, pk.nbits.toNat % 8 = 0 → pk.nbits.toNat = 8 * pk.nbytes ∧ pk.stream.1.length * 8 = pk.stream.2

/-- 40_packer.md R94: the degenerate-alphabet law: n commands PK.PUT 1, 0 that fit give n bits and ceil8(n) zero
bytes. -/
def Obligations.LoneCodePacksToZeroBytes : Prop :=
  ∀ (n : Nat) (s : State), s.Inv → n ≤ 8 * s.cfg.pkCapBytes →
    ∃ t rs, execAll (packCommands (List.replicate n ⟨1#7, 0#64⟩)) s = some (t, rs) ∧ (∀ r ∈ rs, r.status = .ok) ∧
      t.pk.nbits.toNat = n ∧ t.pk.stream = (List.replicate (ceil8 n) 0x00#8, n)

/-- 40_packer.md R95: the error law: a PK.PUT that is not answered OK changes neither the stream nor the count, and
after a sticky error no command but PK.RESET changes the packer, and PK.FINISH answers the error. -/
def Obligations.RejectedCodeLeavesTheStream : Prop :=
  (∀ (len : BitVec 7) (pattern : BitVec 64) (s t : State) (r : Response), exec (.pkPut len pattern) s = .next t →
    t.phase = .offering r → r.status ≠ .ok → t.pk.buf = s.pk.buf ∧ t.pk.nbits = s.pk.nbits) ∧
  (∀ (cmds : List Instr) (s t : State) (rs : List Response), s.pk.err ≠ .ok → Instr.pkReset ∉ cmds →
    execAll cmds s = some (t, rs) →
    t.pk = s.pk ∧ exec .pkFinish t = .next { t with phase := .offering ⟨s.pk.err, 0#64⟩ })

/-- 10_state.md R24, 93_implementation_defined.md S9: the bytes of PK.BUF at indices PK.NBYTES and up cannot be
observed: two states that differ in them alone answer every command alike, and differ in nothing else afterwards. -/
def Obligations.BytesPastTheStreamAreUnobservable : Prop :=
  ∀ (i : Instr) (s t : State) (buf : List Host.Cell), s.Inv → Memory.wf unlistedByte buf →
    (∀ a < s.pk.nbytes, Memory.read unlistedByte buf a = Memory.read unlistedByte s.pk.buf a) →
    exec i s = .next t →
    ∃ buf', exec i { s with pk := { s.pk with buf := buf } } = .next { t with pk := { t.pk with buf := buf' } } ∧
      ∀ a < t.pk.nbytes, Memory.read unlistedByte buf' a = Memory.read unlistedByte t.pk.buf a

/-- 70_reset_and_hazards.md R153: in a run whose commands are all answered, PK.SEALED says whether a PK.FINISH returned
OK since the last PK.RESET or reset, so that the packer's output of the run is there exactly when the stream is sealed.
That a PK.RESET after the finish leaves none is the model's choice (log 13). -/
def Obligations.RunIsFinishedExactlyWhenSealed : Prop :=
  ∀ s : State, s.Faithful → s.phase = .idle →
    s.pk.sealed = finished s.trace ∧ (packedStream s = if s.pk.sealed then some s.pk.stream else none)

/-- 70_reset_and_hazards.md R153, R145: while PK.ERR is OK, PK.FINISH returns OK with the valid bit count and PK.RDBYTE 0
to PK.NBYTES - 1 return the bytes of the PackedStream, which stands sealed and unchanged; otherwise PK.FINISH returns
PK.ERR and the stream stays unsealed. -/
def Obligations.FinishingThenReadingGivesThePackedStream : Prop :=
  ∀ s : State, s.Inv →
    (s.pk.err = .ok → ∃ t, execAll (finishAndRead s.pk) s =
        some (t, ⟨.ok, BitVec.ofNat 64 s.pk.stream.2⟩ :: s.pk.stream.1.map fun b => ⟨.ok, b.setWidth 64⟩) ∧
      t.pk = { s.pk with sealed := true } ∧ t.pk.stream = s.pk.stream) ∧
    (s.pk.err ≠ .ok → s.pk.sealed = false ∧
      exec .pkFinish s = .next { s with phase := .offering ⟨s.pk.err, 0#64⟩ })

/-! ### Unpacker commands -/

/-- 41_unpacker.md R100 with 70_reset_and_hazards.md R143: UP.RESET. -/
def Obligations.UpResetClearsTheUnpacker : Prop :=
  ∀ (d : BitVec 64) (s : State), decode ⟨0x00000010#32, d⟩ = .ok .upReset ∧
    ∃ buf nodes,
      exec .upReset s = .next { s with up := { buf := buf, nbits := 0#24, cursor := 0#24, nodes := nodes,
                                               root := 0#16, rootValid := false, err := .ok },
                                       phase := .offering ⟨.ok, 0#64⟩ } ∧
      (∀ i, Memory.read unlistedByte buf i = 0x00#8) ∧
      (∀ i, Memory.read NodeEntry.empty nodes i = { kind := .empty, sym := 0#8, left := 0#16, right := 0#16 })

/-- 41_unpacker.md R101: UP.REWIND. -/
def Obligations.UpRewindRestartsTheStream : Prop :=
  ∀ (d : BitVec 64) (s : State), decode ⟨0x00000011#32, d⟩ = .ok .upRewind ∧
    exec .upRewind s = .next { s with up := { s.up with cursor := 0#24, err := .ok }, phase := .offering ⟨.ok, 0#64⟩ }

/-- 41_unpacker.md R102: UP.WRBYTE: its byte, and no other, reads as written; the canonical form is kept. -/
def Obligations.UpWrbyteWritesOneByte : Prop :=
  ∀ (idx : BitVec 16) (byte : BitVec 8) (d : BitVec 64) (s : State),
    (d.extractLsb' 0 8 = byte → decode ⟨idx ++ 0x0012#16, d⟩ = .ok (.upWrbyte idx byte)) ∧
    (s.cfg.upCapBytes ≤ idx.toNat →
      exec (.upWrbyte idx byte) s = .next { s with phase := .offering ⟨.badArgument, 0#64⟩ }) ∧
    (idx.toNat < s.cfg.upCapBytes → Memory.wf unlistedByte s.up.buf →
      ∃ buf, exec (.upWrbyte idx byte) s = .next { s with up := { s.up with buf := buf },
                                                          phase := .offering ⟨.ok, 0#64⟩ } ∧
        Memory.wf unlistedByte buf ∧ Memory.read unlistedByte buf idx.toNat = byte ∧
        ∀ a, a ≠ idx.toNat → Memory.read unlistedByte buf a = Memory.read unlistedByte s.up.buf a)

/-- 41_unpacker.md R103: UP.SETNBITS: the whole 64-bit value is checked and, on success, kept. -/
def Obligations.UpSetnbitsStartsAStream : Prop :=
  ∀ (n : BitVec 64) (s : State), decode ⟨0x00000013#32, n⟩ = .ok (.upSetnbits n) ∧
    (8 * s.cfg.upCapBytes < n.toNat →
      exec (.upSetnbits n) s = .next { s with phase := .offering ⟨.badArgument, 0#64⟩ }) ∧
    (s.cfg.Valid → n.toNat ≤ 8 * s.cfg.upCapBytes →
      ∃ nbits : BitVec 24, nbits.toNat = n.toNat ∧
        exec (.upSetnbits n) s = .next { s with up := { s.up with nbits := nbits, cursor := 0#24, err := .ok },
                                                phase := .offering ⟨.ok, 0#64⟩ })

/-- 41_unpacker.md R104: UP.SETNODE: the index is checked first, then KIND = 3; its entry, and no other, is written, the
fields its kind does not use as 0. -/
def Obligations.UpSetnodeWritesOneEntry : Prop :=
  ∀ (idx : BitVec 16) (kind : BitVec 2) (sym : BitVec 8) (left right : BitVec 16) (s : State),
    decode ⟨idx ++ 0x0014#16, 1#2 ++ 0#54 ++ sym⟩ = .ok (.upSetnode idx 1#2 sym 0#16 0#16) ∧
    decode ⟨idx ++ 0x0014#16, 2#2 ++ 0#30 ++ right ++ left⟩ = .ok (.upSetnode idx 2#2 0#8 left right) ∧
    (s.cfg.upNodes ≤ idx.toNat →
      exec (.upSetnode idx kind sym left right) s = .next { s with phase := .offering ⟨.badArgument, 0#64⟩ }) ∧
    (kind = 3#2 →
      exec (.upSetnode idx kind sym left right) s = .next { s with phase := .offering ⟨.badArgument, 0#64⟩ }) ∧
    (idx.toNat < s.cfg.upNodes → kind ≠ 3#2 → Memory.wf NodeEntry.empty s.up.nodes →
      ∃ nodes, exec (.upSetnode idx kind sym left right) s =
          .next { s with up := { s.up with nodes := nodes }, phase := .offering ⟨.ok, 0#64⟩ } ∧
        Memory.wf NodeEntry.empty nodes ∧
        (kind = 0#2 → Memory.read NodeEntry.empty nodes idx.toNat = ⟨.empty, 0#8, 0#16, 0#16⟩) ∧
        (kind = 1#2 → Memory.read NodeEntry.empty nodes idx.toNat = ⟨.leaf, sym, 0#16, 0#16⟩) ∧
        (kind = 2#2 → Memory.read NodeEntry.empty nodes idx.toNat = ⟨.internal, 0#8, left, right⟩) ∧
        ∀ a, a ≠ idx.toNat → Memory.read NodeEntry.empty nodes a = Memory.read NodeEntry.empty s.up.nodes a)

/-- 41_unpacker.md R105: UP.SETROOT. -/
def Obligations.UpSetrootChoosesTheRoot : Prop :=
  ∀ (idx : BitVec 16) (d : BitVec 64) (s : State), decode ⟨idx ++ 0x0015#16, d⟩ = .ok (.upSetroot idx) ∧
    (s.cfg.upNodes ≤ idx.toNat →
      exec (.upSetroot idx) s = .next { s with phase := .offering ⟨.badArgument, 0#64⟩ }) ∧
    (idx.toNat < s.cfg.upNodes →
      exec (.upSetroot idx) s = .next { s with up := { s.up with root := idx, rootValid := true },
                                               phase := .offering ⟨.ok, 0#64⟩ })

/-- 41_unpacker.md R109 with the layout of 10_state.md R39: UP.STAT. -/
def Obligations.UpStatReportsTheControlState : Prop :=
  ∀ (d : BitVec 64) (s : State), decode ⟨0x00000017#32, d⟩ = .ok .upStat ∧
    ∃ w : BitVec 64, exec .upStat s = .next { s with phase := .offering ⟨.ok, w⟩ } ∧
      w.extractLsb' 0 24 = s.up.cursor ∧ w.extractLsb' 24 24 = s.up.nbits ∧ w.extractLsb' 48 4 = s.up.err.code ∧
      w.getLsbD 52 = s.up.rootValid ∧ w.extractLsb' 53 11 = 0#11

/-- 41_unpacker.md R106, the checks before the walk, in the order of 60_exceptions.md R132. -/
def Obligations.UpDecodeChecksInOrder : Prop :=
  ∀ (d : BitVec 64) (s : State), decode ⟨0x00000016#32, d⟩ = .ok .upDecode ∧
    (s.up.err ≠ .ok → exec .upDecode s = .next { s with phase := .offering ⟨s.up.err, 0#64⟩ }) ∧
    (s.up.err = .ok → s.up.cursor = s.up.nbits →
      exec .upDecode s = .next { s with phase := .offering ⟨.done, 0#64⟩ }) ∧
    (s.up.err = .ok → s.up.cursor ≠ s.up.nbits →
      s.up.rootValid = false ∨ (s.up.root.toNat < s.cfg.upNodes ∧ s.up.rootEntry.kind = .empty) →
      exec .upDecode s = .next { s with up := { s.up with err := .malformedTree },
                                        phase := .offering ⟨.malformedTree, 0#64⟩ })

/-- 41_unpacker.md R107: a leaf at the root consumes exactly one bit: 0 emits its symbol, 1 raises INVALID_CODE. -/
def Obligations.UpDecodeSingleLeafTree : Prop :=
  ∀ s : State, s.Inv → s.up.err = .ok → s.up.cursor ≠ s.up.nbits → s.up.rootValid = true →
    s.up.rootEntry.kind = .leaf →
    ∃ cursor : BitVec 24, cursor.toNat = s.up.cursor.toNat + 1 ∧
      (streamBit s.up.buf s.up.cursor.toNat = false →
        exec .upDecode s = .next { s with up := { s.up with cursor := cursor },
                                          phase := .offering ⟨.ok, s.up.rootEntry.sym.setWidth 64⟩ }) ∧
      (streamBit s.up.buf s.up.cursor.toNat = true →
        exec .upDecode s = .next { s with up := { s.up with cursor := cursor, err := .invalidCode },
                                          phase := .offering ⟨.invalidCode, 0#64⟩ })

/-- 41_unpacker.md R106, R108: when the bits from the cursor lead from an INTERNAL root to a leaf within the valid bits,
UP.DECODE emits its symbol at once and the cursor is past exactly those bits. -/
def Obligations.UpDecodeEmitsTheLeafOnItsPath : Prop :=
  ∀ (s : State) (bits : List Bool) (leaf : NodeEntry), s.Inv → s.up.err = .ok → s.up.rootValid = true →
    s.up.rootEntry.kind = .internal → Path s.cfg s.up.nodes s.up.rootEntry bits leaf → leaf.kind = .leaf →
    s.up.cursor.toNat + bits.length ≤ s.up.nbits.toNat →
    (∀ j (h : j < bits.length), streamBit s.up.buf (s.up.cursor.toNat + j) = bits[j]) →
    ∃ cursor : BitVec 24, cursor.toNat = s.up.cursor.toNat + bits.length ∧
      exec .upDecode s = .next { s with up := { s.up with cursor := cursor },
                                        phase := .offering ⟨.ok, leaf.sym.setWidth 64⟩ }

/-- 41_unpacker.md R106(a): when the valid bits run out at an INTERNAL entry, UP.DECODE raises TRUNCATED_STREAM and the
cursor is at UP.NBITS. -/
def Obligations.UpDecodeReportsATruncatedStream : Prop :=
  ∀ (s : State) (bits : List Bool) (last : NodeEntry), s.Inv → s.up.err = .ok → s.up.rootValid = true →
    s.up.cursor ≠ s.up.nbits → Path s.cfg s.up.nodes s.up.rootEntry bits last → last.kind = .internal →
    s.up.cursor.toNat + bits.length = s.up.nbits.toNat →
    (∀ j (h : j < bits.length), streamBit s.up.buf (s.up.cursor.toNat + j) = bits[j]) →
    exec .upDecode s = .next { s with up := { s.up with cursor := s.up.nbits, err := .truncatedStream },
                                      phase := .offering ⟨.truncatedStream, 0#64⟩ }

/-- 41_unpacker.md R106(b): when the next bit takes a child outside the table or an EMPTY one, UP.DECODE raises
MALFORMED_TREE and the cursor is one past that bit. -/
def Obligations.UpDecodeReportsABadChild : Prop :=
  ∀ (s : State) (bits : List Bool) (last : NodeEntry) (b : Bool), s.Inv → s.up.err = .ok → s.up.rootValid = true →
    Path s.cfg s.up.nodes s.up.rootEntry bits last → last.kind = .internal →
    s.up.cursor.toNat + bits.length < s.up.nbits.toNat →
    (∀ j (h : j < bits.length), streamBit s.up.buf (s.up.cursor.toNat + j) = bits[j]) →
    streamBit s.up.buf (s.up.cursor.toNat + bits.length) = b →
    s.cfg.upNodes ≤ last.child b ∨ (Memory.read NodeEntry.empty s.up.nodes (last.child b)).kind = .empty →
    ∃ cursor : BitVec 24, cursor.toNat = s.up.cursor.toNat + bits.length + 1 ∧
      exec .upDecode s = .next { s with up := { s.up with cursor := cursor, err := .malformedTree },
                                        phase := .offering ⟨.malformedTree, 0#64⟩ }

/-- 70_reset_and_hazards.md R152 and 20_memory.md R52: UP.DECODE consumes between 0 and UP.NBITS - UP.CURSOR bits, at
least one when it answers OK, and always completes, however the table is linked. -/
def Obligations.UpDecodeTerminatesWithinTheValidBits : Prop :=
  ∀ s : State, s.Inv → ∃ t r, exec .upDecode s = .next t ∧ t.phase = .offering r ∧
    s.up.cursor.toNat ≤ t.up.cursor.toNat ∧ t.up.cursor.toNat ≤ s.up.nbits.toNat ∧
    (r.status = .ok → s.up.cursor.toNat < t.up.cursor.toNat)

/-- 41_unpacker.md R111: padding bits and trailing bytes never affect a response: two states whose streams agree below
UP.NBITS decode alike. -/
def Obligations.UpDecodeIgnoresBitsPastTheCount : Prop :=
  ∀ (s t : State) (buf : List Host.Cell), s.up.cursor.toNat ≤ s.up.nbits.toNat →
    (∀ p < s.up.nbits.toNat, streamBit buf p = streamBit s.up.buf p) → exec .upDecode s = .next t →
    exec .upDecode { s with up := { s.up with buf := buf } } = .next { t with up := { t.up with buf := buf } }

/-- 41_unpacker.md R110: the round-trip law. From any legal state with a tree in the node table, the codes of the
symbols are packed, each accepted; the host copies the stream into the unpacker; then one UP.DECODE for each symbol
returns it, and the next returns DONE. -/
def Obligations.RoundTrip : Prop :=
  ∀ (s t : State) (syms : List (Byte × Code)) (rs : List Response), s.Inv → s.up.rootValid = true →
    (∀ x ∈ syms, s.up.IsCodeOf s.cfg x.1 x.2.len x.2.pattern) →
    execAll (packCommands (syms.map (·.2))) s = some (t, rs) → (∀ r ∈ rs, r.status = .ok) →
    t.pk.nbits.toNat ≤ 8 * t.cfg.upCapBytes →
    ∃ u us v, execAll (copyCommands t.pk) t = some (u, us) ∧ (∀ r ∈ us, r = ⟨.ok, 0#64⟩) ∧
      execAll (List.replicate (syms.length + 1) .upDecode) u =
        some (v, syms.map (fun x => (⟨.ok, x.1.setWidth 64⟩ : Response)) ++ [⟨.done, 0#64⟩]) ∧
      symbolsUpToDone (syms.map (fun x => (⟨.ok, x.1.setWidth 64⟩ : Response)) ++ [⟨.done, 0#64⟩]) =
        some (syms.map (·.1))

/-! ### Assembler text -/

/-- 30_encoding.md R81: each pseudo-instruction and its expansion. PK.PUTB takes every word of 1 to 64 binary digits, and
no other: it is PK.PUT with their number and value, whose code is the digits in order. UP.LOAD takes every non-empty list
of bytes: it is the statements of its expansion, in order, where each of those is one. Words stand in upper case, as the
assembler's reader leaves them (log 9). -/
def Obligations.PseudoInstructionsExpand : Prop :=
  (∀ idx sym, statement "UP.LEAF" [idx, sym] = statement "UP.SETNODE" [idx, .word ['L', 'E', 'A', 'F'] :: sym]) ∧
  (∀ idx left right, statement "UP.NODE" [idx, left, right] =
    statement "UP.SETNODE" [idx, .word ['I', 'N', 'T', 'E', 'R', 'N', 'A', 'L'] :: left, right]) ∧
  (∀ idx, statement "UP.CLEAR" [idx] = statement "UP.SETNODE" [idx, [.word ['E', 'M', 'P', 'T', 'Y']]]) ∧
  (∀ digits : List Char, 1 ≤ digits.length → digits.length ≤ 64 → (∀ c ∈ digits, c = '0' ∨ c = '1') →
    statement "PK.PUTB" [[.word digits]] =
      statement "PK.PUT" [decimalOperand digits.length, [.word ('0' :: 'B' :: digits)]] ∧
    ∃ pattern, statement "PK.PUTB" [[.word digits]] = .ok [.pkPut (BitVec.ofNat 7 digits.length) pattern] ∧
      codeBits digits.length pattern = digits.map (· == '1')) ∧
  (∀ (digits : List Char) (instrs : List Instr), statement "PK.PUTB" [[.word digits]] = .ok instrs →
    1 ≤ digits.length ∧ digits.length ≤ 64 ∧ ∀ c ∈ digits, c = '0' ∨ c = '1') ∧
  (∀ (n : List Token) (bytes : List (List Token)) (instrs : List Instr), bytes ≠ [] →
    (statement "UP.LOAD" (n :: bytes) = .ok instrs ↔ statements (loadExpansion n bytes) = .ok instrs))

/-- 30_encoding.md R82: disassembly is total: words that are no command print as .illegal, UP.SETNODE with KIND = 3 prints
its index and its data word, and every other command prints with its row's mnemonic. That fields are decimal and
hexadecimal digits upper case is the model's choice (log 10). The two words are V-C13 and V-C14 of
95_test_vectors.md. -/
def Obligations.DisassemblyOfSpecWords : Prop :=
  disassemble ⟨0x00000101#32, 0#64⟩ = ".illegal 0x00000101" ∧
  disassemble ⟨0x00030014#32, 0xC000000000000000#64⟩ = "UP.SETNODE 3, KIND3 0xC000000000000000" ∧
  (∀ c why, decode c = .error why → disassemble c = ".illegal " ++ hexText 8 c.word.toNat) ∧
  (∀ (idx : BitVec 16) (d : BitVec 64), d.extractLsb' 62 2 = 3#2 → disassemble ⟨idx ++ 0x0014#16, d⟩ =
    "UP.SETNODE " ++ decimalText idx.toNat ++ ", KIND3 " ++ hexText 16 d.toNat) ∧
  (∀ c i, decode c = .ok i → ∃ fields, disassemble c = i.mnemonic ++ fields)
end

