-- ==== Sys2Proof/Laws/Assembler.lean ====
section
/-! SUPPORT. Numbers of the assembler text (30_encoding.md R80): a number printed in decimal reads as itself. -/

namespace Sys2Proof.Machine

/-- Digits are read from left to right. -/
theorem digitsValue_append (base : Nat) (xs ys : List Char) (acc : Nat) :
    digitsValue base (xs ++ ys) acc = (digitsValue base xs acc).bind (digitsValue base ys) := by
  induction xs generalizing acc with
  | nil => rfl
  | cons c xs ih =>
    simp only [List.cons_append, digitsValue]
    cases digitValue base c with
    | none => rfl
    | some v => exact ih _

theorem digitValue_digitChar : ∀ n < 10, digitValue 10 (Nat.digitChar n) = some n := by decide

/-- The decimal digits of a number have its value. -/
theorem digitsValue_toDigits (n : Nat) : digitsValue 10 (Nat.toDigits 10 n) 0 = some n := by
  induction n using Nat.strongRecOn with
  | _ n ih =>
    by_cases h : n < 10
    · rw [Nat.toDigits_of_lt_base h]
      simp only [digitsValue, digitValue_digitChar n h, Nat.zero_mul, Nat.zero_add]
    · rw [Nat.toDigits_of_base_le (by omega) (by omega), digitsValue_append, ih _ (by omega)]
      simp only [Option.bind_some, digitsValue, digitValue_digitChar (n % 10) (by omega), Option.some.injEq]
      omega

/-- No prefix stands before them. -/
theorem numberValue_toDigits (n : Nat) : numberValue (Nat.toDigits 10 n) = some n := by
  have hv := digitsValue_toDigits n
  have hd : ∀ c ∈ Nat.toDigits 10 n, c ≠ 'X' ∧ c ≠ 'B' := by
    intro c hc
    have := Nat.isDigit_of_mem_toDigits (b := 10) (by omega) (by omega) hc
    constructor <;> (rintro rfl; cases this)
  have hn : Nat.toDigits 10 n ≠ [] := Nat.toDigits_ne_nil
  revert hv hd hn
  generalize Nat.toDigits 10 n = digits
  intro hv hd hn
  unfold numberValue
  split <;> simp_all

/-- A number written in decimal is the operand of its value, where that is in range. -/
theorem numberOperand_decimalOperand (bound n : Nat) :
    numberOperand bound (decimalOperand n) = if n < bound then .ok n else .error .outOfRange := by
  simp only [numberOperand, decimalOperand, numberValue_toDigits]

end Sys2Proof.Machine
end

