-- ==== Sys2Proof/Laws/Memory.lean ====
section
/-! SUPPORT. The laws of memory: a read after a write, the canonical form is kept, and two canonical memories that read
alike are equal. -/

namespace Sys2Proof.Machine

variable {α : Type} {dflt : α}

@[simp] theorem Memory.read_nil (a : Nat) : Memory.read dflt [] a = dflt := rfl

/-- Below every listed index nothing is listed. -/
theorem Memory.read_below {m : List (Nat × α)} {a : Nat} (h : ∀ c ∈ m, a < c.1) : Memory.read dflt m a = dflt := by
  induction m with
  | nil => rfl
  | cons c m ih =>
    have hc := h c (by simp)
    have : c.1 ≠ a := by omega
    simp only [Memory.read, this, if_false]
    exact ih fun c hc => h c (by simp [hc])

/-- What a read gives is the default or an entry. -/
theorem Memory.read_cases (m : List (Nat × α)) (a : Nat) :
    Memory.read dflt m a = dflt ∨ (a, Memory.read dflt m a) ∈ m := by
  induction m with
  | nil => exact .inl rfl
  | cons d m ih =>
    by_cases h : d.1 = a
    · right; subst h; simp [Memory.read]
    · simp only [Memory.read, h, if_false]
      rcases ih with ih | ih
      · exact .inl ih
      · exact .inr (by simp [ih])

/-- An index outside the space reads as unlisted. -/
theorem Memory.read_outside {m : List (Nat × α)} {size a : Nat} (h : Memory.within size m) (ha : size ≤ a) :
    Memory.read dflt m a = dflt := by
  rcases Memory.read_cases (dflt := dflt) m a with h' | h'
  · exact h'
  · exact absurd (h _ h') (by simp only; omega)

variable [DecidableEq α]

/-- The indices of a canonical memory rise after its first. -/
theorem Memory.wf_tail {c : Nat × α} {m : List (Nat × α)} (h : Memory.wf dflt (c :: m)) :
    Memory.wf dflt m ∧ (∀ d ∈ m, c.1 < d.1) ∧ c.2 ≠ dflt := by
  obtain ⟨hs, hd⟩ := h
  rw [List.pairwise_cons] at hs
  exact ⟨⟨hs.2, fun d hm => hd d (by simp [hm])⟩, hs.1, hd c (by simp)⟩

/-- Every index listed after a write was listed before or is the one written. -/
theorem Memory.mem_write {m : List (Nat × α)} {a : Nat} {v : α} {c : Nat × α} (h : c ∈ Memory.write dflt m a v) :
    c ∈ m ∨ (c = (a, v) ∧ v ≠ dflt) := by
  induction m with
  | nil =>
    simp only [Memory.write] at h
    split at h <;> simp_all
  | cons d m ih =>
    simp only [Memory.write] at h
    split_ifs at h <;> simp_all
    · tauto
    · tauto
    · rcases h with h | h
      · tauto
      · rcases ih h with h | h <;> tauto

/-- A write keeps the canonical form. -/
theorem Memory.write_wf {m : List (Nat × α)} (h : Memory.wf dflt m) (a : Nat) (v : α) :
    Memory.wf dflt (Memory.write dflt m a v) := by
  induction m with
  | nil =>
    simp only [Memory.write]
    split_ifs <;> simp_all [Memory.wf]
  | cons d m ih =>
    obtain ⟨ht, hlt, hd⟩ := Memory.wf_tail h
    simp only [Memory.write]
    split_ifs with h1 h2 h2 h3
    · exact h
    · refine ⟨?_, ?_⟩
      · refine List.pairwise_cons.2 ⟨?_, h.1⟩
        intro c hc
        rcases List.mem_cons.1 hc with rfl | hc
        · exact h1
        · have := hlt c hc; simp only; omega
      · intro c hc
        rcases List.mem_cons.1 hc with rfl | hc
        · exact h2
        · exact h.2 c hc
    · exact ht
    · refine ⟨?_, ?_⟩
      · refine List.pairwise_cons.2 ⟨?_, ht.1⟩
        intro c hc
        have := hlt c hc; simp only; omega
      · intro c hc
        rcases List.mem_cons.1 hc with rfl | hc
        · exact h3
        · exact ht.2 c hc
    · have hw := ih ht
      refine ⟨?_, ?_⟩
      · refine List.pairwise_cons.2 ⟨?_, hw.1⟩
        intro c hc
        rcases Memory.mem_write hc with hc | ⟨rfl, -⟩
        · exact hlt c hc
        · simp only; omega
      · intro c hc
        rcases List.mem_cons.1 hc with rfl | hc
        · exact hd
        · exact hw.2 c hc

/-- A write inside the space lists no index outside it. -/
theorem Memory.write_within {m : List (Nat × α)} {size a : Nat} (h : Memory.within size m) (ha : a < size) (v : α) :
    Memory.within size (Memory.write dflt m a v) := by
  intro c hc
  rcases Memory.mem_write hc with hc | ⟨rfl, -⟩
  · exact h c hc
  · exact ha

/-- A read after a write: the value written at its index, the old value elsewhere. -/
theorem Memory.read_write {m : List (Nat × α)} (h : Memory.wf dflt m) (a b : Nat) (v : α) :
    Memory.read dflt (Memory.write dflt m a v) b = if b = a then v else Memory.read dflt m b := by
  induction m with
  | nil =>
    by_cases hv : v = dflt <;> by_cases hb : b = a <;> simp_all [Memory.write, Memory.read, eq_comm]
  | cons d m ih =>
    obtain ⟨ht, hlt, hd⟩ := Memory.wf_tail h
    simp only [Memory.write]
    split_ifs with h1 h2 h3 h3 h2 h4 h5 h6 h7
    · subst h3
      rw [Memory.read_below, h2]
      intro c hc
      rcases List.mem_cons.1 hc with rfl | hc
      · exact h1
      · have := hlt c hc; omega
    · rfl
    · simp [Memory.read, h3]
    · simp [Memory.read, Ne.symm h3]
    · subst h5
      exact h4 ▸ Memory.read_below fun c hc => h2 ▸ hlt c hc
    · have : d.1 ≠ b := fun e => h5 (by omega)
      simp [Memory.read, this]
    · simp [Memory.read, h6]
    · have hb : a ≠ b := fun e => h6 e.symm
      have hd' : d.1 ≠ b := by omega
      simp [Memory.read, hb, hd']
    · have hdb : d.1 ≠ b := by omega
      rw [Memory.read, if_neg hdb, ih ht, if_pos h7]
    · simp only [Memory.read, ih ht, h7, if_false]

/-- A listed index reads as its entry. -/
theorem Memory.read_mem {m : List (Nat × α)} (h : Memory.wf dflt m) {c : Nat × α} (hc : c ∈ m) :
    Memory.read dflt m c.1 = c.2 := by
  induction m with
  | nil => simp at hc
  | cons d m ih =>
    obtain ⟨ht, hlt, -⟩ := Memory.wf_tail h
    rcases List.mem_cons.1 hc with rfl | hc
    · simp [Memory.read]
    · have : d.1 ≠ c.1 := by have := hlt c hc; omega
      simp [Memory.read, this, ih ht hc]

/-- Equal memories are equal data: canonical memories that read alike are the same list. -/
theorem Memory.wf_ext {m m' : List (Nat × α)} (h : Memory.wf dflt m) (h' : Memory.wf dflt m')
    (hr : ∀ a, Memory.read dflt m a = Memory.read dflt m' a) : m = m' := by
  induction m generalizing m' with
  | nil =>
    cases m' with
    | nil => rfl
    | cons d m' =>
      have := hr d.1
      rw [Memory.read_mem h' (by simp)] at this
      exact absurd this.symm (Memory.wf_tail h').2.2
  | cons c m ih =>
    obtain ⟨ht, hlt, hc⟩ := Memory.wf_tail h
    cases m' with
    | nil =>
      have := hr c.1
      rw [Memory.read_mem h (by simp)] at this
      exact absurd this hc
    | cons d m' =>
      obtain ⟨ht', hlt', hd⟩ := Memory.wf_tail h'
      have hcd : c.1 = d.1 := by
        rcases Nat.lt_trichotomy c.1 d.1 with hl | he | hg
        · have := hr c.1
          rw [Memory.read_mem h (by simp), Memory.read_below (m := d :: m')] at this
          · exact absurd this hc
          · intro e he
            rcases List.mem_cons.1 he with rfl | he
            · exact hl
            · have := hlt' e he; omega
        · exact he
        · have := hr d.1
          rw [Memory.read_mem h' (by simp), Memory.read_below (m := c :: m)] at this
          · exact absurd this.symm hd
          · intro e he
            rcases List.mem_cons.1 he with rfl | he
            · exact hg
            · have := hlt e he; omega
      have hv : c.2 = d.2 := by
        have := hr c.1
        rwa [Memory.read_mem h (by simp), hcd, Memory.read_mem h' (by simp)] at this
      have : m = m' := by
        refine ih ht ht' fun a => ?_
        by_cases ha : c.1 = a
        · subst ha
          rw [Memory.read_below hlt, Memory.read_below]
          intro e he; have := hlt' e he; omega
        · have := hr a
          have ha' : d.1 ≠ a := by omega
          simpa [Memory.read, ha, ha'] using this
      rw [this, Prod.ext hcd hv]

end Sys2Proof.Machine
end

