-- ==== Sys2Proof/Laws/Bits.lean ====
section
/-! SUPPORT. The laws of bit addressing (00_scope.md R11): one bit of one byte is put, every other stream bit keeps its
value. -/

namespace Sys2Proof.Machine

@[simp] theorem bitInByte_lt (p : Nat) : bitInByte p < 8 := by unfold bitInByte; omega

/-- A byte bit after `setByteBit`. -/
theorem getLsbD_setByteBit (b : Byte) {i j : Nat} (hi : i < 8) (hj : j < 8) (v : Bool) :
    (setByteBit b i v).getLsbD j = if j = i then v else b.getLsbD j := by
  unfold setByteBit
  by_cases h : j = i <;> cases v <;> simp [h, hi, hj, Ne.symm]

/-- A stream bit after a byte write. -/
theorem streamBit_memWrite {m : List Host.Cell} (h : Memory.wf unlistedByte m) (i q : Nat) (v : Byte) :
    streamBit (memWrite m i v) q = if byteIndex q = i then v.getLsbD (bitInByte q) else streamBit m q := by
  unfold streamBit memWrite
  rw [Memory.read_write h]
  split_ifs <;> rfl

/-- A stream bit after `PutBit`. -/
theorem streamBit_putBit {m : List Host.Cell} (h : Memory.wf unlistedByte m) (p q : Nat) (b : Bool) :
    streamBit (putBit m p b) q = if q = p then b else streamBit m q := by
  unfold putBit
  rw [streamBit_memWrite h]
  by_cases hq : q = p
  · subst hq
    rw [if_pos rfl, if_pos rfl, getLsbD_setByteBit _ (bitInByte_lt q) (bitInByte_lt q), if_pos rfl]
  · simp only [hq, if_false]
    split_ifs with hb
    · rw [getLsbD_setByteBit _ (bitInByte_lt p) (bitInByte_lt q), if_neg]
      · unfold streamBit; rw [hb]
      · unfold bitInByte byteIndex at *; omega
    · rfl

/-- Bytes other than the one written read as before. -/
theorem read_memWrite_other {m : List Host.Cell} (h : Memory.wf unlistedByte m) {i a : Nat} (ha : a ≠ i) (v : Byte) :
    Memory.read unlistedByte (memWrite m i v) a = Memory.read unlistedByte m a := by
  unfold memWrite; rw [Memory.read_write h, if_neg ha]

/-- The byte written reads as the value written. -/
theorem read_memWrite_same {m : List Host.Cell} (h : Memory.wf unlistedByte m) (i : Nat) (v : Byte) :
    Memory.read unlistedByte (memWrite m i v) i = v := by
  unfold memWrite; rw [Memory.read_write h, if_pos rfl]

theorem memWrite_wf {m : List Host.Cell} (h : Memory.wf unlistedByte m) (i : Nat) (v : Byte) :
    Memory.wf unlistedByte (memWrite m i v) := Memory.write_wf h i v

theorem putBit_wf {m : List Host.Cell} (h : Memory.wf unlistedByte m) (p : Nat) (b : Bool) :
    Memory.wf unlistedByte (putBit m p b) := Memory.write_wf h _ _

/-- `PutBit` changes no byte but the one that holds the bit. -/
theorem read_putBit_other {m : List Host.Cell} (h : Memory.wf unlistedByte m) {p a : Nat} (ha : a ≠ byteIndex p)
    (b : Bool) : Memory.read unlistedByte (putBit m p b) a = Memory.read unlistedByte m a :=
  read_memWrite_other h ha _

/-- `GetBit` inside the space is the stream bit. -/
theorem getBit_inside {space : Space} {size p : Nat} (m : List Host.Cell) (h : p < 8 * size) :
    getBit space size m p = .ok (streamBit m p) := by
  have : byteIndex p < size := by unfold byteIndex; omega
  simp [getBit, memRead, this, streamBit]

/-- `GetBit` outside the space is a fault. -/
theorem getBit_outside {space : Space} {size p : Nat} (m : List Host.Cell) (h : 8 * size ≤ p) :
    getBit space size m p = .error (.outsideSpace space) := by
  have : ¬ byteIndex p < size := by unfold byteIndex; omega
  simp [getBit, memRead, this]

/-- `MemRead` inside the space is the byte read. -/
theorem memRead_inside {space : Space} {size i : Nat} (m : List Host.Cell) (h : i < size) :
    memRead space size m i = .ok (Memory.read unlistedByte m i) := by simp [memRead, h]

/-- A node read inside the table is the entry read. -/
theorem nodeRead_inside {size i : Nat} (m : List (Nat × NodeEntry)) (h : i < size) :
    nodeRead size m i = .ok (Memory.read NodeEntry.empty m i) := by simp [nodeRead, h]

/-- A byte is its eight stream bits. -/
theorem read_eq_of_streamBits {m m' : List Host.Cell} {a : Nat}
    (h : ∀ q, byteIndex q = a → streamBit m q = streamBit m' q) :
    Memory.read unlistedByte m a = Memory.read unlistedByte m' a := by
  refine BitVec.eq_of_getLsbD_eq fun j hj => ?_
  have := h (8 * a + (7 - j)) (by unfold byteIndex; omega)
  unfold streamBit bitInByte byteIndex at this
  rwa [show (8 * a + (7 - j)) / 8 = a by omega, show 7 - (8 * a + (7 - j)) % 8 = j by omega] at this

/-! ### ceil8 -/

theorem ceil8_le {n c : Nat} (h : n ≤ 8 * c) : ceil8 n ≤ c := by unfold ceil8; omega

theorem le_ceil8 (n : Nat) : n ≤ 8 * ceil8 n := by unfold ceil8; omega

theorem ceil8_lt (n : Nat) : 8 * ceil8 n < n + 8 := by unfold ceil8; omega

theorem ceil8_mono {m n : Nat} (h : m ≤ n) : ceil8 m ≤ ceil8 n := by unfold ceil8; omega

end Sys2Proof.Machine
end

