-- ==== Sys2Proof/Laws/Decode.lean ====
section
/-! SUPPORT. The fields of a command word: reading a field of an assembled word gives it back, and a word is its fields
(30_encoding.md R68). -/

namespace Sys2Proof

/-- The bits of an assembled command word. -/
theorem commandWord_getLsbD (op : BitVec 8) (len : BitVec 7) (idx : Index) (j : Nat) :
    (commandWord op len idx).getLsbD j =
      if j < 8 then op.getLsbD j else if j < 15 then len.getLsbD (j - 8)
      else if j = 15 then false else idx.getLsbD (j - 16) := by
  unfold commandWord
  simp only [BitVec.getLsbD_append]
  by_cases h1 : j < 8
  · simp [h1]
  · by_cases h2 : j < 15
    · have : j - 8 < 7 := by omega
      simp only [h1, h2, this, if_true, if_false]
    · have h3 : ¬ j - 8 < 7 := by omega
      by_cases h4 : j = 15
      · subst h4; simp
      · have h5 : ¬ j - 8 - 7 < 1 := by omega
        simp only [h1, h2, h3, h4, h5, if_false]
        congr 1

@[simp] theorem opField_commandWord (op : BitVec 8) (len : BitVec 7) (idx : Index) :
    opField (commandWord op len idx) = op := by
  refine BitVec.eq_of_getLsbD_eq fun j hj => ?_
  simp only [opField, BitVec.getLsbD_extractLsb', commandWord_getLsbD, Nat.zero_add, hj, if_true, decide_true,
    Bool.true_and]

@[simp] theorem lenField_commandWord (op : BitVec 8) (len : BitVec 7) (idx : Index) :
    lenField (commandWord op len idx) = len := by
  refine BitVec.eq_of_getLsbD_eq fun j hj => ?_
  have h1 : ¬ 8 + j < 8 := by omega
  have h2 : 8 + j < 15 := by omega
  simp only [lenField, BitVec.getLsbD_extractLsb', commandWord_getLsbD, hj, h1, h2, if_true, if_false, decide_true,
    Bool.true_and, Nat.add_sub_cancel_left]

@[simp] theorem rsvField_commandWord (op : BitVec 8) (len : BitVec 7) (idx : Index) :
    rsvField (commandWord op len idx) = false := by
  simp only [rsvField, commandWord_getLsbD]; simp

@[simp] theorem idxField_commandWord (op : BitVec 8) (len : BitVec 7) (idx : Index) :
    idxField (commandWord op len idx) = idx := by
  refine BitVec.eq_of_getLsbD_eq fun j hj => ?_
  have h1 : ¬ 16 + j < 8 := by omega
  have h2 : ¬ 16 + j < 15 := by omega
  have h3 : ¬ 16 + j = 15 := by omega
  simp only [idxField, BitVec.getLsbD_extractLsb', commandWord_getLsbD, hj, h1, h2, h3, if_false, decide_true,
    Bool.true_and, Nat.add_sub_cancel_left]

/-- A word with RSV = 0 is assembled from its fields. -/
theorem commandWord_fields {w : BitVec 32} (h : rsvField w = false) :
    commandWord (opField w) (lenField w) (idxField w) = w := by
  refine BitVec.eq_of_getLsbD_eq fun j hj => ?_
  rw [commandWord_getLsbD]
  unfold rsvField at h
  split_ifs with h1 h2 h3
  · simp [opField, h1]
  · have : j - 8 < 7 := by omega
    rw [lenField, BitVec.getLsbD_extractLsb', show 8 + (j - 8) = j by omega]
    simp [this]
  · subst h3; exact h.symm
  · have : j - 16 < 16 := by omega
    rw [idxField, BitVec.getLsbD_extractLsb', show 16 + (j - 16) = j by omega]
    simp [this]

/-- The word of a command with IDX, as 30_encoding.md R80 writes it: (idx << 16) OR OP. -/
theorem append_eq_commandWord (idx : Index) (op : BitVec 8) : idx ++ (0#8 ++ op) = commandWord op 0#7 idx := by
  refine BitVec.eq_of_getLsbD_eq fun j hj => ?_
  rw [commandWord_getLsbD]
  simp only [BitVec.getLsbD_append]
  split_ifs <;> first | rfl | omega | simp

/-! ### The data word of UP.SETNODE (30_encoding.md R79) -/

theorem kindField_nodeData (kind : BitVec 2) (sym : Byte) (left right : Index) :
    kindField (nodeData kind sym left right) = kind := by
  refine BitVec.eq_of_getLsbD_eq fun j hj => ?_
  unfold kindField nodeData
  simp only [BitVec.getLsbD_extractLsb', hj, decide_true, Bool.true_and]
  split_ifs <;> simp only [BitVec.getLsbD_append] <;> (split_ifs <;> first | omega | (congr 1; omega))

theorem symOperand_nodeData {kind : BitVec 2} {sym : Byte} (left right : Index) (h : kind ≠ 1#2 → sym = 0#8) :
    symOperand (nodeData kind sym left right) = sym := by
  unfold symOperand
  rw [kindField_nodeData]
  split_ifs with hk
  · refine BitVec.eq_of_getLsbD_eq fun j hj => ?_
    simp only [nodeData, hk, if_true, BitVec.getLsbD_extractLsb', BitVec.getLsbD_append, hj, Nat.zero_add,
      decide_true, Bool.true_and]
  · exact (h hk).symm

theorem leftOperand_nodeData {kind : BitVec 2} (sym : Byte) {left : Index} (right : Index)
    (h : kind ≠ 2#2 → left = 0#16) : leftOperand (nodeData kind sym left right) = left := by
  unfold leftOperand
  rw [kindField_nodeData]
  split_ifs with hk
  · subst hk
    refine BitVec.eq_of_getLsbD_eq fun j hj => ?_
    have h1 : ¬ (2#2 = 1#2) := by decide
    simp only [nodeData, h1, if_true, if_false, BitVec.getLsbD_extractLsb', BitVec.getLsbD_append, hj, Nat.zero_add,
      decide_true, Bool.true_and]
  · exact (h hk).symm

theorem rightOperand_nodeData {kind : BitVec 2} (sym : Byte) (left : Index) {right : Index}
    (h : kind ≠ 2#2 → right = 0#16) : rightOperand (nodeData kind sym left right) = right := by
  unfold rightOperand
  rw [kindField_nodeData]
  split_ifs with hk
  · subst hk
    refine BitVec.eq_of_getLsbD_eq fun j hj => ?_
    have h1 : ¬ (2#2 = 1#2) := by decide
    have h2 : ¬ (16 + j < 16) := by omega
    simp only [nodeData, h1, h2, if_true, if_false, BitVec.getLsbD_extractLsb', BitVec.getLsbD_append, hj,
      decide_true, Bool.true_and, Nat.add_sub_cancel_left]
  · exact (h hk).symm

/-! ### When a form is accepted -/

theorem plainForm_ok {w : BitVec 32} {i j : Instr} (h : plainForm w i = .ok j) :
    j = i ∧ rsvField w = false ∧ lenField w = 0#7 ∧ idxField w = 0#16 := by
  unfold plainForm at h
  split_ifs at h; simp_all

theorem lenForm_ok {w : BitVec 32} {i j : Instr} (h : lenForm w i = .ok j) :
    j = i ∧ rsvField w = false ∧ idxField w = 0#16 := by
  unfold lenForm at h
  split_ifs at h; simp_all

theorem idxForm_ok {w : BitVec 32} {i j : Instr} (h : idxForm w i = .ok j) :
    j = i ∧ rsvField w = false ∧ lenField w = 0#7 := by
  unfold idxForm at h
  split_ifs at h; simp_all

end Sys2Proof
end

