-- ==== Sys2Proof/Laws/State.lean ====
section
/-! SUPPORT. One lemma per field per update of the state, so that no later proof unfolds a record update. -/

namespace Sys2Proof.Machine

/-! ### Units -/

@[simp] theorem Packer.latch_buf (pk : Packer) (st : Status) : (pk.latch st).buf = pk.buf := rfl
@[simp] theorem Packer.latch_nbits (pk : Packer) (st : Status) : (pk.latch st).nbits = pk.nbits := rfl
@[simp] theorem Packer.latch_sealed (pk : Packer) (st : Status) : (pk.latch st).sealed = pk.sealed := rfl
@[simp] theorem Packer.latch_err (pk : Packer) (st : Status) : (pk.latch st).err = st := rfl
@[simp] theorem Packer.seal_buf (pk : Packer) : pk.seal.buf = pk.buf := rfl
@[simp] theorem Packer.seal_nbits (pk : Packer) : pk.seal.nbits = pk.nbits := rfl
@[simp] theorem Packer.seal_sealed (pk : Packer) : pk.seal.sealed = true := rfl
@[simp] theorem Packer.seal_err (pk : Packer) : pk.seal.err = pk.err := rfl
@[simp] theorem Packer.clearErr_buf (pk : Packer) : pk.clearErr.buf = pk.buf := rfl
@[simp] theorem Packer.clearErr_nbits (pk : Packer) : pk.clearErr.nbits = pk.nbits := rfl
@[simp] theorem Packer.clearErr_sealed (pk : Packer) : pk.clearErr.sealed = pk.sealed := rfl
@[simp] theorem Packer.clearErr_err (pk : Packer) : pk.clearErr.err = .ok := rfl

@[simp] theorem Unpacker.latch_buf (up : Unpacker) (st : Status) : (up.latch st).buf = up.buf := rfl
@[simp] theorem Unpacker.latch_nbits (up : Unpacker) (st : Status) : (up.latch st).nbits = up.nbits := rfl
@[simp] theorem Unpacker.latch_cursor (up : Unpacker) (st : Status) : (up.latch st).cursor = up.cursor := rfl
@[simp] theorem Unpacker.latch_nodes (up : Unpacker) (st : Status) : (up.latch st).nodes = up.nodes := rfl
@[simp] theorem Unpacker.latch_root (up : Unpacker) (st : Status) : (up.latch st).root = up.root := rfl
@[simp] theorem Unpacker.latch_rootValid (up : Unpacker) (st : Status) : (up.latch st).rootValid = up.rootValid := rfl
@[simp] theorem Unpacker.latch_err (up : Unpacker) (st : Status) : (up.latch st).err = st := rfl
@[simp] theorem Unpacker.clearErr_buf (up : Unpacker) : up.clearErr.buf = up.buf := rfl
@[simp] theorem Unpacker.clearErr_nbits (up : Unpacker) : up.clearErr.nbits = up.nbits := rfl
@[simp] theorem Unpacker.clearErr_cursor (up : Unpacker) : up.clearErr.cursor = up.cursor := rfl
@[simp] theorem Unpacker.clearErr_nodes (up : Unpacker) : up.clearErr.nodes = up.nodes := rfl
@[simp] theorem Unpacker.clearErr_root (up : Unpacker) : up.clearErr.root = up.root := rfl
@[simp] theorem Unpacker.clearErr_rootValid (up : Unpacker) : up.clearErr.rootValid = up.rootValid := rfl
@[simp] theorem Unpacker.clearErr_err (up : Unpacker) : up.clearErr.err = .ok := rfl
@[simp] theorem Unpacker.advance_buf (up : Unpacker) : up.advance.buf = up.buf := rfl
@[simp] theorem Unpacker.advance_nbits (up : Unpacker) : up.advance.nbits = up.nbits := rfl
@[simp] theorem Unpacker.advance_cursor (up : Unpacker) : up.advance.cursor = up.cursor + 1#24 := rfl
@[simp] theorem Unpacker.advance_nodes (up : Unpacker) : up.advance.nodes = up.nodes := rfl
@[simp] theorem Unpacker.advance_root (up : Unpacker) : up.advance.root = up.root := rfl
@[simp] theorem Unpacker.advance_rootValid (up : Unpacker) : up.advance.rootValid = up.rootValid := rfl
@[simp] theorem Unpacker.advance_err (up : Unpacker) : up.advance.err = up.err := rfl

/-! ### The state -/

@[simp] theorem State.offer_cfg (s : State) (r : Response) : (s.offer r).cfg = s.cfg := rfl
@[simp] theorem State.offer_pk (s : State) (r : Response) : (s.offer r).pk = s.pk := rfl
@[simp] theorem State.offer_up (s : State) (r : Response) : (s.offer r).up = s.up := rfl
@[simp] theorem State.offer_phase (s : State) (r : Response) : (s.offer r).phase = .offering r := rfl
@[simp] theorem State.offer_held (s : State) (r : Response) : (s.offer r).held = s.held := rfl
@[simp] theorem State.offer_edges (s : State) (r : Response) : (s.offer r).edges = s.edges := rfl
@[simp] theorem State.offer_trace (s : State) (r : Response) : (s.offer r).trace = s.trace := rfl

@[simp] theorem State.pass_cfg (s : State) (e : Edge) : (s.pass e).cfg = s.cfg := rfl
@[simp] theorem State.pass_pk (s : State) (e : Edge) : (s.pass e).pk = s.pk := rfl
@[simp] theorem State.pass_up (s : State) (e : Edge) : (s.pass e).up = s.up := rfl
@[simp] theorem State.pass_phase (s : State) (e : Edge) : (s.pass e).phase = s.phase := rfl
@[simp] theorem State.pass_held (s : State) (e : Edge) : (s.pass e).held = e.offered := rfl
@[simp] theorem State.pass_edges (s : State) (e : Edge) : (s.pass e).edges = s.edges.tail := rfl
@[simp] theorem State.pass_trace (s : State) (e : Edge) : (s.pass e).trace = s.trace := rfl

@[simp] theorem State.resetEdge_cfg (s : State) (e : Edge) : (s.resetEdge e).cfg = s.cfg := rfl
@[simp] theorem State.resetEdge_pk (s : State) (e : Edge) : (s.resetEdge e).pk = Packer.reset := rfl
@[simp] theorem State.resetEdge_up (s : State) (e : Edge) : (s.resetEdge e).up = Unpacker.reset := rfl
@[simp] theorem State.resetEdge_phase (s : State) (e : Edge) : (s.resetEdge e).phase = .idle := rfl
@[simp] theorem State.resetEdge_held (s : State) (e : Edge) : (s.resetEdge e).held = e.offered := rfl
@[simp] theorem State.resetEdge_edges (s : State) (e : Edge) : (s.resetEdge e).edges = s.edges.tail := rfl
@[simp] theorem State.resetEdge_trace (s : State) (e : Edge) : (s.resetEdge e).trace = .reset :: s.trace := rfl

@[simp] theorem State.accept_cfg (s : State) (e : Edge) (c : Command) : (s.accept e c).cfg = s.cfg := rfl
@[simp] theorem State.accept_pk (s : State) (e : Edge) (c : Command) : (s.accept e c).pk = s.pk := rfl
@[simp] theorem State.accept_up (s : State) (e : Edge) (c : Command) : (s.accept e c).up = s.up := rfl
@[simp] theorem State.accept_phase (s : State) (e : Edge) (c : Command) : (s.accept e c).phase = .busy c := rfl
@[simp] theorem State.accept_held (s : State) (e : Edge) (c : Command) : (s.accept e c).held = none := rfl
@[simp] theorem State.accept_edges (s : State) (e : Edge) (c : Command) : (s.accept e c).edges = s.edges.tail := rfl
@[simp] theorem State.accept_trace (s : State) (e : Edge) (c : Command) :
    (s.accept e c).trace = .command c :: s.trace := rfl

@[simp] theorem State.deliver_cfg (s : State) (e : Edge) (r : Response) : (s.deliver e r).cfg = s.cfg := rfl
@[simp] theorem State.deliver_pk (s : State) (e : Edge) (r : Response) : (s.deliver e r).pk = s.pk := rfl
@[simp] theorem State.deliver_up (s : State) (e : Edge) (r : Response) : (s.deliver e r).up = s.up := rfl
@[simp] theorem State.deliver_phase (s : State) (e : Edge) (r : Response) : (s.deliver e r).phase = .idle := rfl
@[simp] theorem State.deliver_held (s : State) (e : Edge) (r : Response) : (s.deliver e r).held = e.offered := rfl
@[simp] theorem State.deliver_edges (s : State) (e : Edge) (r : Response) :
    (s.deliver e r).edges = s.edges.tail := rfl
@[simp] theorem State.deliver_trace (s : State) (e : Edge) (r : Response) :
    (s.deliver e r).trace = .response r :: s.trace := rfl

@[simp] theorem State.withCommand_cfg (s : State) (c : Command) : (s.withCommand c).cfg = s.cfg := rfl
@[simp] theorem State.withCommand_pk (s : State) (c : Command) : (s.withCommand c).pk = s.pk := rfl
@[simp] theorem State.withCommand_up (s : State) (c : Command) : (s.withCommand c).up = s.up := rfl
@[simp] theorem State.withCommand_phase (s : State) (c : Command) : (s.withCommand c).phase = .busy c := rfl
@[simp] theorem State.withCommand_held (s : State) (c : Command) : (s.withCommand c).held = s.held := rfl
@[simp] theorem State.withCommand_edges (s : State) (c : Command) :
    (s.withCommand c).edges = Edge.quiet :: s.edges := rfl
@[simp] theorem State.withCommand_trace (s : State) (c : Command) : (s.withCommand c).trace = .command c :: s.trace := rfl

end Sys2Proof.Machine
end

