-- ==== Sys2Proof/Laws/Packer.lean ====
section
/-! SUPPORT. What appending bits does to the packer: the closed form of 40_packer.md R87, once, for any sequence of
bits, and the cases of PK.PUT. -/

namespace Sys2Proof.Machine

/-- Appending bits one by one, first bit first. -/
def Packer.appendBits (bits : List Bool) (pk : Packer) : Packer := bits.foldl Packer.appendBit pk

@[simp] theorem Packer.appendBits_nil (pk : Packer) : Packer.appendBits [] pk = pk := rfl

@[simp] theorem Packer.appendBits_cons (b : Bool) (bits : List Bool) (pk : Packer) :
    Packer.appendBits (b :: bits) pk = Packer.appendBits bits (pk.appendBit b) := rfl

theorem Packer.appendBits_append (bits bits' : List Bool) (pk : Packer) :
    Packer.appendBits (bits ++ bits') pk = Packer.appendBits bits' (Packer.appendBits bits pk) := by
  simp [Packer.appendBits]

@[simp] theorem codeBits_length (k : Nat) (pattern : BitVec 64) : (codeBits k pattern).length = k := by simp [codeBits]

theorem codeBits_getElem (k : Nat) (pattern : BitVec 64) (j : Nat) (h : j < (codeBits k pattern).length) :
    (codeBits k pattern)[j] = pattern.getLsbD (k - 1 - j) := by simp [codeBits, codeBit]

theorem codeBits_succ (k : Nat) (pattern : BitVec 64) :
    codeBits (k + 1) pattern = pattern.getLsbD k :: codeBits k pattern := by
  refine List.ext_getElem (by simp) fun j h h' => ?_
  rw [codeBits_getElem]
  cases j with
  | zero => simp
  | succ j => simp only [List.getElem_cons_succ, codeBits_getElem]; congr 1; omega

/-- The loop of PK.PUT appends the code's bits in stream order. -/
theorem Packer.appendCode_eq (pattern : BitVec 64) (k : Nat) (pk : Packer) :
    Packer.appendCode pattern k pk = Packer.appendBits (codeBits k pattern) pk := by
  induction k generalizing pk with
  | zero => rfl
  | succ k ih => rw [codeBits_succ, Packer.appendBits_cons, ← ih]; rfl

/-- What appending `bits` does (40_packer.md R87, R88). -/
structure Packer.Appended (bits : List Bool) (pk pk' : Packer) : Prop where
  canonical : Memory.wf unlistedByte pk'.buf
  count : pk'.nbits.toNat = pk.nbits.toNat + bits.length
  sealed : pk'.sealed = pk.sealed
  err : pk'.err = pk.err
  new : ∀ j (h : j < bits.length), streamBit pk'.buf (pk.nbits.toNat + j) = bits[j]
  old : ∀ q < pk.nbits.toNat, streamBit pk'.buf q = streamBit pk.buf q
  padding : (∀ q, pk.nbits.toNat ≤ q → q < 8 * ceil8 pk.nbits.toNat → streamBit pk.buf q = false) →
    ∀ q, pk'.nbits.toNat ≤ q → q < 8 * ceil8 pk'.nbits.toNat → streamBit pk'.buf q = false
  bytes : ∀ a, a < pk.nbits.toNat / 8 ∨ ceil8 (pk.nbits.toNat + bits.length) ≤ a →
    Memory.read unlistedByte pk'.buf a = Memory.read unlistedByte pk.buf a
  listed : ∀ c ∈ pk'.buf, c ∈ pk.buf ∨ c.1 < ceil8 (pk.nbits.toNat + bits.length)

/-- The cursor after one bit, when the counter does not wrap. -/
theorem Packer.appendBit_nbits (pk : Packer) (b : Bool) (h : pk.nbits.toNat + 1 < 2 ^ 24) :
    (pk.appendBit b).nbits.toNat = pk.nbits.toNat + 1 := by
  simp only [Packer.appendBit, BitVec.toNat_add]
  simp; omega

/-- A stream bit after one bit is appended. -/
theorem Packer.appendBit_streamBit {pk : Packer} (hw : Memory.wf unlistedByte pk.buf) (b : Bool) (q : Nat) :
    streamBit (pk.appendBit b).buf q =
      if q = pk.nbits.toNat then b
      else if pk.nbits.toNat % 8 = 0 ∧ byteIndex q = byteIndex pk.nbits.toNat then false
      else streamBit pk.buf q := by
  simp only [Packer.appendBit]
  by_cases h8 : pk.nbits.toNat % 8 = 0
  · rw [if_pos h8, streamBit_putBit (memWrite_wf hw _ _), streamBit_memWrite hw]
    simp [h8]
  · rw [if_neg h8, streamBit_putBit hw]
    simp [h8]

theorem Packer.appendBit_wf {pk : Packer} (hw : Memory.wf unlistedByte pk.buf) (b : Bool) :
    Memory.wf unlistedByte (pk.appendBit b).buf := by
  simp only [Packer.appendBit]
  split_ifs
  · exact putBit_wf (memWrite_wf hw _ _) _ _
  · exact putBit_wf hw _ _

theorem Packer.appendBit_read {pk : Packer} (hw : Memory.wf unlistedByte pk.buf) (b : Bool) {a : Nat}
    (ha : a ≠ byteIndex pk.nbits.toNat) :
    Memory.read unlistedByte (pk.appendBit b).buf a = Memory.read unlistedByte pk.buf a := by
  simp only [Packer.appendBit]
  split_ifs
  · rw [read_putBit_other (memWrite_wf hw _ _) ha, read_memWrite_other hw ha]
  · rw [read_putBit_other hw ha]

theorem Packer.appendBit_listed (pk : Packer) (b : Bool) {c : Host.Cell} (hc : c ∈ (pk.appendBit b).buf) :
    c ∈ pk.buf ∨ c.1 = byteIndex pk.nbits.toNat := by
  simp only [Packer.appendBit, putBit, memWrite] at hc
  rcases Memory.mem_write hc with hc | ⟨rfl, -⟩
  · split_ifs at hc
    · rcases Memory.mem_write hc with hc | ⟨rfl, -⟩
      · exact .inl hc
      · exact .inr rfl
    · exact .inl hc
  · exact .inr rfl

/-- What appending bits does, when the counter does not wrap. -/
theorem Packer.appendBits_spec (bits : List Bool) (pk : Packer) (hw : Memory.wf unlistedByte pk.buf)
    (hn : pk.nbits.toNat + bits.length < 2 ^ 24) : Packer.Appended bits pk (Packer.appendBits bits pk) := by
  induction bits generalizing pk with
  | nil =>
    exact { canonical := hw, count := by simp, sealed := rfl, err := rfl, new := by simp, old := fun _ _ => rfl,
            padding := fun h => h, bytes := fun _ _ => rfl, listed := fun _ h => .inl h }
  | cons b bits ih =>
    simp only [List.length_cons] at hn
    have hc := Packer.appendBit_nbits pk b (by omega)
    have hb := Packer.appendBit_streamBit hw b
    have A := ih (pk.appendBit b) (Packer.appendBit_wf hw b) (by omega)
    rw [Packer.appendBits_cons]
    refine { canonical := A.canonical, count := ?_, sealed := A.sealed, err := A.err, new := ?_, old := ?_,
             padding := ?_, bytes := ?_, listed := ?_ }
    · rw [A.count, hc]; simp only [List.length_cons]; omega
    · intro j hj
      cases j with
      | zero => rw [A.old _ (by omega), hb]; simp
      | succ j =>
        have := A.new j (by simpa using hj)
        rw [hc] at this
        simpa [Nat.add_assoc, Nat.add_comm 1 j] using this
    · intro q hq
      rw [A.old q (by omega), hb, if_neg (by omega), if_neg]
      unfold byteIndex; omega
    · intro hp
      refine A.padding fun q h1 h2 => ?_
      rw [hc] at h1 h2
      rw [hb, if_neg (by omega)]
      split_ifs with h8
      · rfl
      · refine hp q (by omega) ?_
        unfold byteIndex ceil8 at *; omega
    · intro a ha
      simp only [List.length_cons] at ha
      rw [A.bytes a (by rw [hc]; unfold ceil8 at *; omega)]
      refine Packer.appendBit_read hw b ?_
      unfold byteIndex ceil8 at *; omega
    · intro c hmem
      simp only [List.length_cons]
      rcases A.listed c hmem with h | h
      · rcases Packer.appendBit_listed pk b h with h | h
        · exact .inl h
        · right; rw [h]; unfold byteIndex ceil8; omega
      · right; rw [hc] at h; rwa [show pk.nbits.toNat + (bits.length + 1) = pk.nbits.toNat + 1 + bits.length by omega]

/-- A count of bits that fits a legal buffer is below 2^24 (00_scope.md R7). -/
theorem pkCount_lt {cfg : Config} (h : cfg.Valid) {n : Nat} (hn : n ≤ 8 * cfg.pkCapBytes) :
    n < 2 ^ 24 := by
  have := h.1.2; unfold Config.maxEntries at this; omega

/-- The same for the unpacker's buffer. -/
theorem upCount_lt {cfg : Config} (h : cfg.Valid) {n : Nat} (hn : n ≤ 8 * cfg.upCapBytes) :
    n < 2 ^ 24 := by
  have := h.2.1.2; unfold Config.maxEntries at this; omega

/-! ### The cases of PK.PUT (40_packer.md R86; 60_exceptions.md R132) -/

theorem Packer.cmdPut_sticky {pk : Packer} (h : pk.err ≠ .ok) (cfg : Config) (len : BitVec 7) (pattern : BitVec 64) :
    pk.cmdPut cfg len pattern = .ok (pk, ⟨pk.err, 0#64⟩) := by simp [Packer.cmdPut, h, respond]

/-- An accepted code. -/
theorem Packer.cmdPut_accepted {pk : Packer} {cfg : Config} {len : BitVec 7} (he : pk.err = .ok)
    (hs : pk.sealed = false) (h1 : 1 ≤ len.toNat) (h2 : len.toNat ≤ 64)
    (h3 : pk.nbits.toNat + len.toNat ≤ 8 * cfg.pkCapBytes) (pattern : BitVec 64) :
    pk.cmdPut cfg len pattern =
      .ok (Packer.appendBits (codeBits len.toNat pattern) pk,
        ⟨.ok, zextCount (Packer.appendBits (codeBits len.toNat pattern) pk).nbits⟩) := by
  have h1' : ¬ len.toNat = 0 := by omega
  have h2' : ¬ Config.maxCodeLen < len.toNat := by unfold Config.maxCodeLen; omega
  have h3' : ¬ 8 * cfg.pkCapBytes < pk.nbits.toNat + len.toNat := by omega
  simp only [Packer.cmdPut, he, hs, h1', h2', h3', if_false, ne_eq, not_true, respond,
    Packer.appendCode_eq, Bool.false_eq_true]

/-- Everything PK.PUT can do: accept the code, or answer with a status other than OK and change PK.ERR at most. -/
theorem Packer.cmdPut_cases (cfg : Config) (len : BitVec 7) (pattern : BitVec 64) (pk : Packer) :
    (pk.err = .ok ∧ pk.sealed = false ∧ 1 ≤ len.toNat ∧ len.toNat ≤ 64 ∧
      pk.nbits.toNat + len.toNat ≤ 8 * cfg.pkCapBytes ∧
      pk.cmdPut cfg len pattern = .ok (Packer.appendBits (codeBits len.toNat pattern) pk,
        ⟨.ok, zextCount (Packer.appendBits (codeBits len.toNat pattern) pk).nbits⟩)) ∨
    (pk.err ≠ .ok ∧ pk.cmdPut cfg len pattern = .ok (pk, ⟨pk.err, 0#64⟩)) ∨
    (pk.err = .ok ∧ pk.sealed = true ∧ pk.cmdPut cfg len pattern = .ok (pk, ⟨.streamSealed, 0#64⟩)) ∨
    (pk.err = .ok ∧ pk.sealed = false ∧ ∃ st : Status, st.stickyPk = true ∧
      pk.cmdPut cfg len pattern = .ok (pk.latch st, ⟨st, 0#64⟩)) := by
  by_cases he : pk.err = .ok
  · by_cases hs : pk.sealed = true
    · exact .inr (.inr (.inl ⟨he, hs, by simp [Packer.cmdPut, he, hs, respond]⟩))
    · have hs : pk.sealed = false := by simpa using hs
      by_cases h1 : len.toNat = 0
      · exact .inr (.inr (.inr ⟨he, hs, .zeroLengthCode, rfl,
          by simp [Packer.cmdPut, he, hs, h1, raisePk, respond, Status.stickyPk]⟩))
      · by_cases h2 : len.toNat > Config.maxCodeLen
        · exact .inr (.inr (.inr ⟨he, hs, .codeLengthOverflow, rfl,
            by simp [Packer.cmdPut, he, hs, h1, h2, raisePk, respond, Status.stickyPk]⟩))
        · by_cases h3 : pk.nbits.toNat + len.toNat > 8 * cfg.pkCapBytes
          · exact .inr (.inr (.inr ⟨he, hs, .bufferFull, rfl,
              by simp [Packer.cmdPut, he, hs, h1, h2, h3, raisePk, respond, Status.stickyPk]⟩))
          · have h2 : len.toNat ≤ 64 := by unfold Config.maxCodeLen at h2; omega
            exact .inl ⟨he, hs, by omega, h2, by omega,
              Packer.cmdPut_accepted he hs (by omega) h2 (by omega) pattern⟩
  · exact .inr (.inl ⟨he, Packer.cmdPut_sticky he cfg len pattern⟩)

end Sys2Proof.Machine
end

