-- ==== Sys2Proof/Laws/Unpacker.lean ====
section
/-! SUPPORT. What UP.DECODE can do (41_unpacker.md R106, R107): the walk along a path, and everything any walk can
answer. -/

namespace Sys2Proof.Machine

/-- The cursor moved by `j` bits. -/
def Unpacker.advanceBy (up : Unpacker) (j : Nat) : Unpacker := { up with cursor := up.cursor + BitVec.ofNat 24 j }

@[simp] theorem Unpacker.advanceBy_buf (up : Unpacker) (j : Nat) : (up.advanceBy j).buf = up.buf := rfl
@[simp] theorem Unpacker.advanceBy_nbits (up : Unpacker) (j : Nat) : (up.advanceBy j).nbits = up.nbits := rfl
@[simp] theorem Unpacker.advanceBy_nodes (up : Unpacker) (j : Nat) : (up.advanceBy j).nodes = up.nodes := rfl
@[simp] theorem Unpacker.advanceBy_root (up : Unpacker) (j : Nat) : (up.advanceBy j).root = up.root := rfl
@[simp] theorem Unpacker.advanceBy_rootValid (up : Unpacker) (j : Nat) :
    (up.advanceBy j).rootValid = up.rootValid := rfl
@[simp] theorem Unpacker.advanceBy_err (up : Unpacker) (j : Nat) : (up.advanceBy j).err = up.err := rfl
@[simp] theorem Unpacker.advanceBy_zero (up : Unpacker) : up.advanceBy 0 = up := by simp [Unpacker.advanceBy]

theorem Unpacker.advanceBy_one (up : Unpacker) : up.advanceBy 1 = up.advance := rfl

theorem Unpacker.advance_advanceBy (up : Unpacker) (j : Nat) : up.advance.advanceBy j = up.advanceBy (j + 1) := by
  simp only [Unpacker.advanceBy, Unpacker.advance, BitVec.add_assoc]
  congr 2
  rw [Nat.add_comm, BitVec.ofNat_add]

/-- The cursor after `j` bits, when it does not wrap. -/
theorem Unpacker.advanceBy_cursor (up : Unpacker) {j : Nat} (h : up.cursor.toNat + j < 2 ^ 24) :
    (up.advanceBy j).cursor.toNat = up.cursor.toNat + j := by
  simp only [Unpacker.advanceBy, BitVec.toNat_add, BitVec.toNat_ofNat]
  omega

theorem Unpacker.advance_toNat (up : Unpacker) (h : up.cursor.toNat + 1 < 2 ^ 24) :
    (up.cursor + 1#24).toNat = up.cursor.toNat + 1 := Unpacker.advanceBy_cursor up h

/-- The unit after a status: latched if the status is sticky. -/
def Unpacker.after (up : Unpacker) (st : Status) : Unpacker := if st.stickyUp then up.latch st else up

theorem raiseUp_eq (up : Unpacker) (st : Status) : raiseUp up st = .ok (up.after st, ⟨st, 0#64⟩) := rfl

/-- The bits a walk reads are those of the stream. -/
def Unpacker.Reads (up : Unpacker) (bits : List Bool) : Prop :=
  ∀ j (h : j < bits.length), streamBit up.buf (up.cursor.toNat + j) = bits[j]

theorem Unpacker.Reads.tail {up : Unpacker} {b : Bool} {bits : List Bool} (h : up.Reads (b :: bits))
    (hc : up.cursor.toNat + 1 < 2 ^ 24) : up.advance.Reads bits := by
  intro j hj
  have := h (j + 1) (by simpa using hj)
  simp only [Unpacker.advance_buf, Unpacker.advance_cursor, Unpacker.advance_toNat up hc]
  simpa [Nat.add_assoc, Nat.add_comm 1 j] using this

section
variable {cfg : Config} {up : Unpacker} {n m : NodeEntry} {bits : List Bool} {k : Nat}

/-- One pass of the loop. -/
theorem Unpacker.walk_succ (hin : up.cursor.toNat < 8 * cfg.upCapBytes) {b : Bool}
    (hb : streamBit up.buf up.cursor.toNat = b) :
    Unpacker.walk cfg (k + 1) up n =
      if n.child b ≥ cfg.upNodes then raiseUp up.advance .malformedTree
      else match (Memory.read NodeEntry.empty up.nodes (n.child b)).kind with
        | .empty => raiseUp up.advance .malformedTree
        | .leaf => respond up.advance .ok (zextByte (Memory.read NodeEntry.empty up.nodes (n.child b)).sym)
        | .internal => Unpacker.walk cfg k up.advance (Memory.read NodeEntry.empty up.nodes (n.child b)) := by
  rw [Unpacker.walk, getBit_inside _ hin, hb]
  simp only
  split_ifs with h
  · rfl
  · rw [nodeRead_inside _ (by omega)] <;> rfl

/-- A walk goes along any path of internal nodes whose bits it reads. -/
theorem Unpacker.walk_along (hp : Path cfg up.nodes n bits m) (hm : m.kind = .internal)
    (hr : up.Reads bits) (hk : bits.length ≤ k) (hc : up.cursor.toNat + bits.length ≤ 8 * cfg.upCapBytes)
    (hv : 8 * cfg.upCapBytes < 2 ^ 24) :
    Unpacker.walk cfg k up n = Unpacker.walk cfg (k - bits.length) (up.advanceBy bits.length) m := by
  generalize hnodes : up.nodes = nodes at hp
  induction hp generalizing up k with
  | here n => simp
  | @child n m b bits hn hin hrest ih =>
    simp only [List.length_cons] at hk hc ⊢
    obtain ⟨k, rfl⟩ : ∃ k', k = k' + 1 := ⟨k - 1, by omega⟩
    have hb := hr 0 (by simp)
    simp only [Nat.add_zero, List.getElem_cons_zero] at hb
    have hkind : (Memory.read NodeEntry.empty up.nodes (n.child b)).kind = .internal := by
      rw [hnodes]; cases hrest with
      | here => exact hm
      | child h _ _ => exact h
    rw [Unpacker.walk_succ (by omega) hb, if_neg (by omega), hkind, hnodes]
    simp only
    rw [ih (up := up.advance) hm (hr.tail (by omega)) (by omega)
      (by rw [Unpacker.advance_cursor, Unpacker.advance_toNat up (by omega)]; omega) hnodes,
      Unpacker.advance_advanceBy]
    congr 1; omega

/-- A walk that reaches a leaf emits its symbol. -/
theorem Unpacker.walk_leaf (hp : Path cfg up.nodes n bits m) (hn : n.kind = .internal) (hm : m.kind = .leaf)
    (hr : up.Reads bits) (hk : bits.length ≤ k) (hc : up.cursor.toNat + bits.length ≤ 8 * cfg.upCapBytes)
    (hv : 8 * cfg.upCapBytes < 2 ^ 24) :
    Unpacker.walk cfg k up n = .ok (up.advanceBy bits.length, ⟨.ok, zextByte m.sym⟩) := by
  generalize hnodes : up.nodes = nodes at hp
  induction hp generalizing up k with
  | here n => rw [hn] at hm; cases hm
  | @child n m b bits _ hin hrest ih =>
    simp only [List.length_cons] at hk hc ⊢
    obtain ⟨k, rfl⟩ : ∃ k', k = k' + 1 := ⟨k - 1, by omega⟩
    have hb := hr 0 (by simp)
    simp only [Nat.add_zero, List.getElem_cons_zero] at hb
    rw [Unpacker.walk_succ (by omega) hb, if_neg (by omega), hnodes]
    cases hrest with
    | here => rw [hm]; rfl
    | child h h' h'' =>
      rw [h]
      simp only
      rw [ih (up := up.advance) h hm (hr.tail (by omega)) (by simpa using hk)
        (by rw [Unpacker.advance_cursor, Unpacker.advance_toNat up (by omega)]; omega) hnodes,
        Unpacker.advance_advanceBy]

/-- Everything a walk can answer, in a state whose cursor and bit count lie in the buffer. -/
theorem Unpacker.walk_result (cfg : Config) (hv : 8 * cfg.upCapBytes < 2 ^ 24) (k : Nat) (up : Unpacker)
    (n : NodeEntry) (hc : up.cursor.toNat + k ≤ 8 * cfg.upCapBytes) :
    ∃ j st data, Unpacker.walk cfg k up n = .ok ((up.advanceBy j).after st, ⟨st, data⟩) ∧ j ≤ k ∧
      ((st = .ok ∧ 1 ≤ j) ∨ (st = .malformedTree ∧ 1 ≤ j ∧ data = 0#64) ∨
        (st = .truncatedStream ∧ j = k ∧ data = 0#64)) := by
  induction k generalizing up n with
  | zero => exact ⟨0, .truncatedStream, 0#64, by simp [Unpacker.walk, raiseUp_eq], by simp, by simp⟩
  | succ k ih =>
    rw [Unpacker.walk_succ (by omega) rfl]
    split_ifs with h
    · exact ⟨1, .malformedTree, 0#64, by rw [raiseUp_eq, Unpacker.advanceBy_one], by omega, by simp⟩
    · split
      · exact ⟨1, .malformedTree, 0#64, by rw [raiseUp_eq, Unpacker.advanceBy_one], by omega, by simp⟩
      · exact ⟨1, .ok, _, by rw [Unpacker.advanceBy_one]; rfl, by omega, by simp⟩
      · obtain ⟨j, st, data, hw, hj, hst⟩ := ih up.advance _
          (by rw [Unpacker.advance_cursor, Unpacker.advance_toNat up (by omega)]; omega)
        refine ⟨j + 1, st, data, by rw [hw, Unpacker.advance_advanceBy], by omega, ?_⟩
        rcases hst with h | h | h
        · exact .inl ⟨h.1, by omega⟩
        · exact .inr (.inl ⟨h.1, by omega, h.2.2⟩)
        · exact .inr (.inr ⟨h.1, by omega, h.2.2⟩)

end

/-- The bits left, when the cursor is not past the count. -/
theorem Unpacker.bitsLeft_eq {up : Unpacker} (h : up.cursor.toNat ≤ up.nbits.toNat) :
    up.bitsLeft = up.nbits.toNat - up.cursor.toNat := by
  unfold Unpacker.bitsLeft
  rw [BitVec.toNat_sub_of_le (by simpa [BitVec.le_def] using h)]

/-- Everything UP.DECODE can answer (41_unpacker.md R106, R107), in a state that meets the unpacker's invariant. -/
theorem Unpacker.cmdDecode_result {cfg : Config} {up : Unpacker} (hv : cfg.Valid) (hi : up.Inv cfg) :
    ∃ j st data, up.cmdDecode cfg = .ok ((up.advanceBy j).after st, ⟨st, data⟩) ∧
      up.cursor.toNat + j ≤ up.nbits.toNat ∧ (st ≠ .ok → data = 0#64) ∧
      (st = .ok → 1 ≤ j) ∧ (st = .ok ∨ st = .done ∨ st.stickyUp = true) := by
  have hlt : 8 * cfg.upCapBytes < 2 ^ 24 := upCount_lt hv (Nat.le_refl _)
  have hcur := hi.cursor
  have hcnt := hi.count
  unfold Unpacker.cmdDecode
  split_ifs with h1 h2 h3
  · refine ⟨0, up.err, 0#64, ?_, by omega, by simp, fun h => absurd h h1, ?_⟩
    · simp only [Unpacker.advanceBy_zero, respond, Unpacker.after]
      split_ifs <;> rfl
    · have := hi.legalErr
      simp only [Status.legalUpErr, Bool.or_eq_true, beq_iff_eq] at this
      tauto
  · exact ⟨0, .done, 0#64, by simp [respond, Unpacker.after, Status.stickyUp], by omega, by simp, by simp, by simp⟩
  · exact ⟨0, .malformedTree, 0#64, by simp [raiseUp_eq], by omega, by simp, by simp, by simp [Status.stickyUp]⟩
  · have h3 : up.rootValid = true := by simpa using h3
    have hne : up.cursor.toNat ≠ up.nbits.toNat := fun h => h2 (BitVec.eq_of_toNat_eq h)
    rw [nodeRead_inside _ (hi.rootInside h3)]
    simp only
    split
    · exact ⟨0, .malformedTree, 0#64, by simp [raiseUp_eq], by omega, by simp, by simp, by simp [Status.stickyUp]⟩
    · unfold Unpacker.decodeLoneLeaf
      rw [getBit_inside _ (by omega)]
      simp only
      split_ifs
      · exact ⟨1, .invalidCode, 0#64, by rw [raiseUp_eq, Unpacker.advanceBy_one], by omega, by simp, by simp,
          by simp [Status.stickyUp]⟩
      · exact ⟨1, .ok, _, by rw [Unpacker.advanceBy_one]; rfl, by omega, by simp, by simp, by simp⟩
    · obtain ⟨j, st, data, hw, hj, hst⟩ := Unpacker.walk_result cfg hlt up.bitsLeft up
        (Memory.read NodeEntry.empty up.nodes up.root.toNat) (by rw [Unpacker.bitsLeft_eq hcur]; omega)
      rw [Unpacker.bitsLeft_eq hcur] at hj
      refine ⟨j, st, data, hw, by omega, ?_⟩
      rcases hst with ⟨rfl, h⟩ | ⟨rfl, h, rfl⟩ | ⟨rfl, h, rfl⟩ <;> simp [Status.stickyUp, h]

end Sys2Proof.Machine
end

