-- ==== Sys2Proof/Laws/Exec.lean ====
section
/-! SUPPORT. What any command can do to the state: which unit it runs on, and that it leaves everything but its unit
and the port's phase alone. -/

namespace Sys2Proof.Machine

theorem State.afterPk_ok (s : State) (pk : Packer) (r : Response) :
    s.afterPk (.ok (pk, r)) = .next { s with pk := pk, phase := .offering r } := rfl

theorem State.afterUp_ok (s : State) (up : Unpacker) (r : Response) :
    s.afterUp (.ok (up, r)) = .next { s with up := up, phase := .offering r } := rfl

/-- A packer command that answers a next state had an effect on the packer, and that is all. -/
theorem State.afterPk_next {s t : State} {e : Effect Packer} (h : s.afterPk e = .next t) :
    ∃ pk r, e = .ok (pk, r) ∧ t = { s with pk := pk, phase := .offering r } := by
  unfold State.afterPk at h
  split at h
  · exact ⟨_, _, rfl, by simpa using h.symm⟩
  · cases h

/-- An unpacker command that answers a next state had an effect on the unpacker, and that is all. -/
theorem State.afterUp_next {s t : State} {e : Effect Unpacker} (h : s.afterUp e = .next t) :
    ∃ up r, e = .ok (up, r) ∧ t = { s with up := up, phase := .offering r } := by
  unfold State.afterUp at h
  split at h
  · exact ⟨_, _, rfl, by simpa using h.symm⟩
  · cases h

/-- A packer command is a function of the parameters and the packer. -/
theorem exec_packer {i : Instr} (h : i.usesPacker = true) :
    ∃ f : Config → Packer → Effect Packer, ∀ s, exec i s = s.afterPk (f s.cfg s.pk) := by
  cases i with
  | pkReset => exact ⟨fun _ pk => pk.cmdReset, fun _ => rfl⟩
  | pkPut len pattern => exact ⟨fun cfg pk => pk.cmdPut cfg len pattern, fun _ => rfl⟩
  | pkFinish => exact ⟨fun _ pk => pk.cmdFinish, fun _ => rfl⟩
  | pkRdbyte idx => exact ⟨fun cfg pk => pk.cmdRdbyte cfg idx, fun _ => rfl⟩
  | pkStat => exact ⟨fun _ pk => pk.cmdStat, fun _ => rfl⟩
  | _ => cases h

/-- An unpacker command is a function of the parameters and the unpacker. -/
theorem exec_unpacker {i : Instr} (h : i.usesUnpacker = true) :
    ∃ f : Config → Unpacker → Effect Unpacker, ∀ s, exec i s = s.afterUp (f s.cfg s.up) := by
  cases i with
  | upReset => exact ⟨fun _ up => up.cmdReset, fun _ => rfl⟩
  | upRewind => exact ⟨fun _ up => up.cmdRewind, fun _ => rfl⟩
  | upWrbyte idx byte => exact ⟨fun cfg up => up.cmdWrbyte cfg idx byte, fun _ => rfl⟩
  | upSetnbits n => exact ⟨fun cfg up => up.cmdSetnbits cfg n, fun _ => rfl⟩
  | upSetnode idx kind sym left right => exact ⟨fun cfg up => up.cmdSetnode cfg idx kind sym left right, fun _ => rfl⟩
  | upSetroot idx => exact ⟨fun cfg up => up.cmdSetroot cfg idx, fun _ => rfl⟩
  | upDecode => exact ⟨fun cfg up => up.cmdDecode cfg, fun _ => rfl⟩
  | upStat => exact ⟨fun _ up => up.cmdStat, fun _ => rfl⟩
  | _ => cases h

/-- The one command of neither unit. -/
theorem Instr.eq_nop {i : Instr} (hp : i.usesPacker = false) (hu : i.usesUnpacker = false) : i = .nop := by
  cases i <;> simp_all [Instr.usesPacker, Instr.usesUnpacker]

/-- No command belongs to both units. -/
theorem Instr.one_unit (i : Instr) : i.usesPacker = false ∨ i.usesUnpacker = false := by
  cases i <;> simp [Instr.usesPacker, Instr.usesUnpacker]

/-- What any command can do: nothing but its answer, or an effect on its one unit, with its answer. -/
theorem exec_next {i : Instr} {s t : State} (h : exec i s = .next t) :
    ∃ pk up r, t = { s with pk := pk, up := up, phase := .offering r } ∧
      (i.usesPacker = false → pk = s.pk) ∧ (i.usesUnpacker = false → up = s.up) := by
  by_cases hp : i.usesPacker = true
  · obtain ⟨f, hf⟩ := exec_packer hp
    rw [hf] at h
    obtain ⟨pk, r, -, rfl⟩ := State.afterPk_next h
    exact ⟨pk, s.up, r, rfl, by simp [hp], fun _ => rfl⟩
  · by_cases hu : i.usesUnpacker = true
    · obtain ⟨f, hf⟩ := exec_unpacker hu
      rw [hf] at h
      obtain ⟨up, r, -, rfl⟩ := State.afterUp_next h
      exact ⟨s.pk, up, r, rfl, fun _ => rfl, by simp [hu]⟩
    · have := Instr.eq_nop (by simpa using hp) (by simpa using hu)
      subst this
      simp only [exec, execNop, State.offer, Host.Outcome.next.injEq] at h
      exact ⟨s.pk, s.up, _, h.symm, fun _ => rfl, fun _ => rfl⟩

/-- A command reads the parameters and the two units alone: what else the state holds is carried over. -/
theorem exec_congr {i : Instr} {s t s' : State} (h : exec i s = .next t) (hc : s'.cfg = s.cfg) (hp : s'.pk = s.pk)
    (hu : s'.up = s.up) : exec i s' = .next { s' with pk := t.pk, up := t.up, phase := t.phase } := by
  by_cases hip : i.usesPacker = true
  · obtain ⟨f, hf⟩ := exec_packer hip
    rw [hf] at h ⊢
    obtain ⟨pk, r, he, rfl⟩ := State.afterPk_next h
    rw [hc, hp, he, State.afterPk_ok]
    simp only [hc, ← hu]
  · by_cases hiu : i.usesUnpacker = true
    · obtain ⟨f, hf⟩ := exec_unpacker hiu
      rw [hf] at h ⊢
      obtain ⟨up, r, he, rfl⟩ := State.afterUp_next h
      rw [hc, hu, he, State.afterUp_ok]
      simp only [hc, ← hp]
    · have := Instr.eq_nop (by simpa using hip) (by simpa using hiu)
      subst this
      simp only [exec, execNop, State.offer, Host.Outcome.next.injEq] at h ⊢
      subst h
      simp [← hp, ← hu]

/-- The same of a transaction, illegal words among them. -/
theorem runCommand_next {c : Command} {s t : State} (h : runCommand c s = .next t) :
    ∃ pk up r, t = { s with pk := pk, up := up, phase := .offering r } := by
  unfold runCommand at h
  split at h
  · obtain ⟨pk, up, r, ht, -⟩ := exec_next h
    exact ⟨pk, up, r, ht⟩
  · simp only [execIllegal, State.offer, Host.Outcome.next.injEq] at h
    exact ⟨s.pk, s.up, _, h.symm⟩

theorem runCommand_congr {c : Command} {s t s' : State} (h : runCommand c s = .next t) (hc : s'.cfg = s.cfg)
    (hp : s'.pk = s.pk) (hu : s'.up = s.up) :
    runCommand c s' = .next { s' with pk := t.pk, up := t.up, phase := t.phase } := by
  unfold runCommand at h ⊢
  cases hd : decode c with
  | ok i => rw [hd] at h; exact exec_congr h hc hp hu
  | error why =>
    rw [hd] at h
    simp only [execIllegal, State.offer, Host.Outcome.next.injEq] at h ⊢
    subst h
    simp [← hp, ← hu]

end Sys2Proof.Machine
end

