-- ==== Sys2Proof/Laws/Step.lean ====
section
/-! SUPPORT. Everything one step can do: one inversion lemma for the clock edge, its guards included. -/

namespace Sys2Proof.Machine

/-- The cases of a step that answers a next state. -/
theorem step_cases {s t : State} (h : step s = .next t) :
    (s.edge.rst = true ∧ t = s.resetEdge s.edge) ∨
    (s.edge.rst = false ∧ breaksHandshake s.held s.edge = false ∧
      ((s.phase = .idle ∧ ∃ c, s.edge.offered = some c ∧ t = s.accept s.edge c) ∨
       (s.phase = .idle ∧ s.edge.offered = none ∧ t = s.pass s.edge) ∨
       (∃ c, s.phase = .busy c ∧ s.edge.stall = true ∧ t = s.pass s.edge) ∨
       (∃ c, s.phase = .busy c ∧ s.edge.stall = false ∧ runCommand c (s.pass s.edge) = .next t) ∨
       (∃ r, s.phase = .offering r ∧ s.edge.rspReady = true ∧ t = s.deliver s.edge r) ∨
       (∃ r, s.phase = .offering r ∧ s.edge.rspReady = false ∧ t = s.pass s.edge))) := by
  unfold step clockEdge at h
  by_cases hr : s.edge.rst = true
  · simp only [hr, if_true, Host.Outcome.next.injEq] at h
    exact .inl ⟨hr, h.symm⟩
  · by_cases hb : breaksHandshake s.held s.edge = true
    · simp [hr, hb] at h
    · have hr : s.edge.rst = false := by simpa using hr
      have hb : breaksHandshake s.held s.edge = false := by simpa using hb
      refine .inr ⟨hr, hb, ?_⟩
      simp only [hr, hb, Bool.false_eq_true, if_false] at h
      cases hp : s.phase with
      | idle =>
        rw [hp] at h
        cases ho : s.edge.offered with
        | some c =>
          simp only [ho, Host.Outcome.next.injEq] at h
          exact .inl ⟨rfl, c, rfl, h.symm⟩
        | none =>
          simp only [ho, Host.Outcome.next.injEq] at h
          exact .inr (.inl ⟨rfl, rfl, h.symm⟩)
      | busy c =>
        rw [hp] at h
        cases hs : s.edge.stall with
        | true =>
          simp only [hs, if_true, Host.Outcome.next.injEq] at h
          exact .inr (.inr (.inl ⟨c, rfl, rfl, h.symm⟩))
        | false =>
          simp only [hs, Bool.false_eq_true, if_false] at h
          exact .inr (.inr (.inr (.inl ⟨c, rfl, rfl, h⟩)))
      | offering r =>
        rw [hp] at h
        cases hs : s.edge.rspReady with
        | true =>
          simp only [hs, if_true, Host.Outcome.next.injEq] at h
          exact .inr (.inr (.inr (.inr (.inl ⟨r, rfl, rfl, h.symm⟩))))
        | false =>
          simp only [hs, Bool.false_eq_true, if_false, Host.Outcome.next.injEq] at h
          exact .inr (.inr (.inr (.inr (.inr ⟨r, rfl, rfl, h.symm⟩))))

end Sys2Proof.Machine
end

