-- ==== Sys2Proof/Laws/Invariant.lean ====
section
/-! SUPPORT. What the shared operations keep of the units' invariants (10_state.md R29, R37). -/

namespace Sys2Proof.Machine

/-- The packer after the reset pin. -/
theorem Packer.reset_inv (cfg : Config) : Packer.reset.Inv cfg where
  canonical := ⟨List.Pairwise.nil, by simp [Packer.reset]⟩
  inside := by simp [Packer.reset]
  count := by simp [Packer.reset]
  padding := by simp [Packer.reset, Packer.nbytes, ceil8]
  sealedClean := by simp [Packer.reset]
  legalErr := rfl

/-- The unpacker after the reset pin. -/
theorem Unpacker.reset_inv (cfg : Config) : Unpacker.reset.Inv cfg where
  canonical := ⟨List.Pairwise.nil, by simp [Unpacker.reset]⟩
  inside := by simp [Unpacker.reset]
  cursor := by simp [Unpacker.reset]
  count := by simp [Unpacker.reset]
  nodesCanonical := ⟨List.Pairwise.nil, by simp [Unpacker.reset]⟩
  nodesInside := by simp [Unpacker.reset]
  entries := by simp [Unpacker.reset]
  rootInside := by simp [Unpacker.reset]
  legalErr := rfl

/-- Appending bits that fit keeps the packer's invariant. -/
theorem Packer.appendBits_inv {cfg : Config} {pk : Packer} (hv : cfg.Valid) (hi : pk.Inv cfg) (bits : List Bool)
    (hb : pk.nbits.toNat + bits.length ≤ 8 * cfg.pkCapBytes) : (Packer.appendBits bits pk).Inv cfg := by
  have A := Packer.appendBits_spec bits pk hi.canonical (pkCount_lt hv hb)
  refine { canonical := A.canonical, inside := ?_, count := by rw [A.count]; exact hb, padding := ?_,
           sealedClean := by rw [A.sealed, A.err]; exact hi.sealedClean, legalErr := by rw [A.err]; exact hi.legalErr }
  · intro c hc
    rcases A.listed c hc with h | h
    · exact hi.inside c h
    · exact lt_of_lt_of_le h (ceil8_le hb)
  · exact fun q h1 h2 => A.padding (fun q h3 h4 => hi.padding q h4 h3) q h2 h1

/-- Latching a sticky status in an unsealed packer keeps its invariant. -/
theorem Packer.latch_inv {cfg : Config} {pk : Packer} (hi : pk.Inv cfg) (hs : pk.sealed = false) {st : Status}
    (hst : st.stickyPk = true) : (pk.latch st).Inv cfg where
  canonical := hi.canonical
  inside := hi.inside
  count := hi.count
  padding := hi.padding
  sealedClean := by simp [hs]
  legalErr := by simp [Status.legalPkErr, hst]

/-- PK.RESET's packer. -/
theorem Packer.cmdReset_inv {cfg : Config} {pk : Packer} (hi : pk.Inv cfg) :
    ({ pk.clearErr with nbits := 0#24, sealed := false } : Packer).Inv cfg where
  canonical := hi.canonical
  inside := hi.inside
  count := by simp
  padding := by simp [Packer.nbytes, ceil8]
  sealedClean := by simp
  legalErr := rfl

/-- A clean packer, sealed. -/
theorem Packer.seal_inv {cfg : Config} {pk : Packer} (hi : pk.Inv cfg) (he : pk.err = .ok) : pk.seal.Inv cfg where
  canonical := hi.canonical
  inside := hi.inside
  count := hi.count
  padding := hi.padding
  sealedClean := fun _ => he
  legalErr := hi.legalErr

/-- A cursor moved within the valid bits, with or without a sticky status, keeps the unpacker's invariant. -/
theorem Unpacker.advance_after_inv {cfg : Config} {up : Unpacker} (hv : cfg.Valid) (hi : up.Inv cfg) {j : Nat}
    (hj : up.cursor.toNat + j ≤ up.nbits.toNat) (st : Status) : ((up.advanceBy j).after st).Inv cfg := by
  have hc : (up.advanceBy j).cursor.toNat = up.cursor.toNat + j :=
    Unpacker.advanceBy_cursor up (upCount_lt hv (Nat.le_trans hj hi.count))
  have hadv : (up.advanceBy j).Inv cfg :=
    { canonical := hi.canonical, inside := hi.inside, cursor := by rw [hc]; exact hj, count := hi.count,
      nodesCanonical := hi.nodesCanonical, nodesInside := hi.nodesInside, entries := hi.entries,
      rootInside := hi.rootInside, legalErr := hi.legalErr }
  unfold Unpacker.after
  split_ifs with h
  · exact { canonical := hadv.canonical, inside := hadv.inside, cursor := hadv.cursor, count := hadv.count,
            nodesCanonical := hadv.nodesCanonical, nodesInside := hadv.nodesInside, entries := hadv.entries,
            rootInside := hadv.rootInside, legalErr := by simp [Status.legalUpErr, h] }
  · exact hadv

/-- The entry UP.SETNODE writes is canonical. -/
theorem nodeOperand_canonical {kind : BitVec 2} {sym : Byte} {left right : Index} {e : NodeEntry}
    (h : nodeOperand kind sym left right = some e) : e.canonical = true := by
  unfold nodeOperand at h
  split_ifs at h <;> (cases h; rfl)

/-- A byte written inside the buffer keeps the unpacker's invariant. -/
theorem Unpacker.write_inv {cfg : Config} {up : Unpacker} (hi : up.Inv cfg) {i : Nat} (h : i < cfg.upCapBytes)
    (v : Byte) : ({ up with buf := memWrite up.buf i v } : Unpacker).Inv cfg where
  canonical := memWrite_wf hi.canonical _ _
  inside := Memory.write_within hi.inside h v
  cursor := hi.cursor
  count := hi.count
  nodesCanonical := hi.nodesCanonical
  nodesInside := hi.nodesInside
  entries := hi.entries
  rootInside := hi.rootInside
  legalErr := hi.legalErr

/-- A canonical entry written inside the table keeps the unpacker's invariant. -/
theorem Unpacker.writeNode_inv {cfg : Config} {up : Unpacker} (hi : up.Inv cfg) {i : Nat} (h : i < cfg.upNodes)
    {e : NodeEntry} (he : e.canonical = true) : ({ up with nodes := nodeWrite up.nodes i e } : Unpacker).Inv cfg where
  canonical := hi.canonical
  inside := hi.inside
  cursor := hi.cursor
  count := hi.count
  nodesCanonical := Memory.write_wf hi.nodesCanonical _ _
  nodesInside := Memory.write_within hi.nodesInside h e
  entries := by
    intro c hc
    rcases Memory.mem_write hc with hc | ⟨rfl, -⟩
    · exact hi.entries c hc
    · exact he
  rootInside := hi.rootInside
  legalErr := hi.legalErr

end Sys2Proof.Machine
end

