-- ==== Sys2Proof/Laws/PerInstr.lean ====
section
/-! SUPPORT. Statements about every command, one lemma for each constructor: the word a command is written as selects
the row of the opcode table with its mnemonic (30_encoding.md R73, R80). -/

namespace Sys2Proof.Laws.RowMatch

/-- The words of `i` select a row of the opcode table that carries the mnemonic of `i`. -/
def Statement (i : Instr) : Prop :=
  ∃ row ∈ opcodeTable, row.mnemonic = i.mnemonic ∧ row.selectedBy (encode i).word = true

/-- The word of a command with IDX, whatever the index, selects the row of its OP. -/
theorem idx_selects (name : String) (op : BitVec 8) (idx : Index) :
    (OpcodeRow.mk name (0#24 ++ op) 0x0000FFFF#32).selectedBy (commandWord op 0#7 idx) = true := by
  simp only [OpcodeRow.selectedBy, beq_iff_eq]
  refine BitVec.eq_of_getLsbD_eq fun j hj => ?_
  have hm : (0x0000FFFF#32).getLsbD j = decide (j < 16) := by revert hj; revert j; decide
  rw [BitVec.getLsbD_and, commandWord_getLsbD, hm, BitVec.getLsbD_append]
  by_cases h8 : j < 8
  · simp [h8, show j < 16 by omega]
  · by_cases h16 : j < 16
    · by_cases h15 : j < 15 <;> simp [h8, h15]
      omega
    · simp [h8, h16]

/-- The word of PK.PUT, whatever the length, selects its row. -/
theorem len_selects : ∀ len : BitVec 7,
    (OpcodeRow.mk "PK.PUT" 0x00000002#32 0xFFFF80FF#32).selectedBy (commandWord 0x02#8 len 0#16) = true := by decide

theorem nop : Statement .nop := ⟨_, List.mem_of_getElem? (i := 0) rfl, by decide⟩

theorem pkReset : Statement .pkReset := ⟨_, List.mem_of_getElem? (i := 1) rfl, by decide⟩

theorem pkPut (len : BitVec 7) (pattern : BitVec 64) : Statement (.pkPut len pattern) :=
  ⟨_, List.mem_of_getElem? (i := 2) rfl, rfl, len_selects len⟩

theorem pkFinish : Statement .pkFinish := ⟨_, List.mem_of_getElem? (i := 3) rfl, by decide⟩

theorem pkRdbyte (idx : Index) : Statement (.pkRdbyte idx) :=
  ⟨_, List.mem_of_getElem? (i := 4) rfl, rfl, idx_selects _ 0x04#8 idx⟩

theorem pkStat : Statement .pkStat := ⟨_, List.mem_of_getElem? (i := 5) rfl, by decide⟩

theorem upReset : Statement .upReset := ⟨_, List.mem_of_getElem? (i := 6) rfl, by decide⟩

theorem upRewind : Statement .upRewind := ⟨_, List.mem_of_getElem? (i := 7) rfl, by decide⟩

theorem upWrbyte (idx : Index) (byte : Byte) : Statement (.upWrbyte idx byte) :=
  ⟨_, List.mem_of_getElem? (i := 8) rfl, rfl, idx_selects _ 0x12#8 idx⟩

theorem upSetnbits (n : BitVec 64) : Statement (.upSetnbits n) :=
  ⟨_, List.mem_of_getElem? (i := 9) rfl, rfl,
    show OpcodeRow.selectedBy _ (commandWord 0x13#8 0#7 0#16) = true by decide⟩

theorem upSetnode (idx : Index) (kind : BitVec 2) (sym : Byte) (left right : Index) :
    Statement (.upSetnode idx kind sym left right) :=
  ⟨_, List.mem_of_getElem? (i := 10) rfl, rfl, idx_selects _ 0x14#8 idx⟩

theorem upSetroot (idx : Index) : Statement (.upSetroot idx) :=
  ⟨_, List.mem_of_getElem? (i := 11) rfl, rfl, idx_selects _ 0x15#8 idx⟩

theorem upDecode : Statement .upDecode := ⟨_, List.mem_of_getElem? (i := 12) rfl, by decide⟩

theorem upStat : Statement .upStat := ⟨_, List.mem_of_getElem? (i := 13) rfl, by decide⟩

end Sys2Proof.Laws.RowMatch
end

