-- ==== Sys2Proof/Laws/Run.lean ====
section
/-! SUPPORT. What one event adds to what a run yields (70_reset_and_hazards.md R153), and what one edge adds to a host
that keeps the handshake (30_encoding.md R64). -/

namespace Sys2Proof.Machine

@[simp] theorem finished_nil : finished [] = false := rfl

@[simp] theorem finished_reset (before : List PortEvent) : finished (.reset :: before) = false := rfl

/-- Sending a command finishes nothing. -/
@[simp] theorem finished_command (c : Command) (before : List PortEvent) :
    finished (.command c :: before) = finished before := by cases before <;> rfl

/-- What an answered command does to a stream being finished. -/
theorem finished_answered (r : Response) (c : Command) (before : List PortEvent) :
    finished (.response r :: .command c :: before) =
      if decode c = .ok .pkReset then false
      else if decode c = .ok .pkFinish then decide (r.status = .ok) || finished before
      else finished before := rfl

@[simp] theorem runResponses_response (r : Response) (before : List PortEvent) :
    runResponses (.response r :: before) = runResponses before ++ [r] := rfl

@[simp] theorem runResponses_command (c : Command) (before : List PortEvent) :
    runResponses (.command c :: before) = runResponses before := rfl

@[simp] theorem runResponses_reset (before : List PortEvent) : runResponses (.reset :: before) = [] := rfl

theorem packedStream_of_finished {s : State} (hp : s.phase = .idle) (h : finished s.trace = true) :
    packedStream s = some s.pk.stream := by
  simp [packedStream, hp, h]

theorem packedStream_of_unfinished {s : State} (h : finished s.trace = false) : packedStream s = none := by
  simp [packedStream, h]

/-- A host keeps the handshake at an edge and at those after it. -/
theorem keepsHandshake_cons {held : Option Command} {e : Edge} {rest : List Edge} :
    keepsHandshake held (e :: rest) = true ↔ breaksHandshake held e = false ∧ keepsHandshake e.offered rest = true := by
  simp [keepsHandshake]

end Sys2Proof.Machine
end

