-- ==== Sys2Proof/Tests/Slice0.lean ====
section
/-! SUPPORT. The tests. Expected results come from the encodings of 30_encoding.md R73 and R79 and from the vectors of
95_test_vectors.md, whose names the docstrings give; and, for every obligation with hypotheses, a witness that meets
them together. -/

namespace Sys2Proof.Tests

open Sys2Proof.Machine

/-! ### Ill-formed terms -/

/-- SYM with KIND = INTERNAL. -/
theorem test_wf_refuses_sym_of_internal : (Instr.upSetnode 0#16 2#2 0x61#8 1#16 2#16).wf = false := by decide
/-- LEFT with KIND = LEAF. -/
theorem test_wf_refuses_left_of_leaf : (Instr.upSetnode 0#16 1#2 0x61#8 1#16 0#16).wf = false := by decide
/-- RIGHT with KIND = EMPTY. -/
theorem test_wf_refuses_right_of_empty : (Instr.upSetnode 0#16 0#2 0#8 0#16 2#16).wf = false := by decide

/-! ### Decoding: each command's word, bit by bit as IDX, RSV, LEN, OP (R68, R73) -/

theorem test_decode_nop : decode ⟨0b0000000000000000_0_0000000_00000000#32, 0#64⟩ = .ok .nop := by decide
theorem test_decode_pkReset : decode ⟨0b0000000000000000_0_0000000_00000001#32, 0#64⟩ = .ok .pkReset := by decide
/-- V-C11. -/
theorem test_decode_pkPut : decode ⟨0b0000000000000000_0_0000001_00000010#32, 1#64⟩ = .ok (.pkPut 1#7 1#64) := by decide
/-- V-P14: the largest LEN. -/
theorem test_decode_pkPut_longest :
    decode ⟨0b0000000000000000_0_1111111_00000010#32, 0#64⟩ = .ok (.pkPut 127#7 0#64) := by decide
theorem test_decode_pkFinish : decode ⟨0b0000000000000000_0_0000000_00000011#32, 0#64⟩ = .ok .pkFinish := by decide
/-- V-C12. -/
theorem test_decode_pkRdbyte :
    decode ⟨0b0000000000000101_0_0000000_00000100#32, 0#64⟩ = .ok (.pkRdbyte 5#16) := by decide
theorem test_decode_pkStat : decode ⟨0b0000000000000000_0_0000000_00000101#32, 0#64⟩ = .ok .pkStat := by decide
theorem test_decode_upReset : decode ⟨0b0000000000000000_0_0000000_00010000#32, 0#64⟩ = .ok .upReset := by decide
theorem test_decode_upRewind : decode ⟨0b0000000000000000_0_0000000_00010001#32, 0#64⟩ = .ok .upRewind := by decide
/-- V-U21: BYTE is d[7:0]. -/
theorem test_decode_upWrbyte :
    decode ⟨0b0000000000000000_0_0000000_00010010#32, 0x1FF#64⟩ = .ok (.upWrbyte 0#16 0xFF#8) := by decide
/-- V-U17: all 64 bits of N. -/
theorem test_decode_upSetnbits :
    decode ⟨0b0000000000000000_0_0000000_00010011#32, 0xFFFFFFFFFFFFFFFF#64⟩ =
      .ok (.upSetnbits 0xFFFFFFFFFFFFFFFF#64) := by decide
/-- V-U21: a LEAF with data bits that are ignored. -/
theorem test_decode_upSetnode_leaf :
    decode ⟨0b0000000000000000_0_0000000_00010100#32, 0x400000000000FF61#64⟩ =
      .ok (.upSetnode 0#16 1#2 0x61#8 0#16 0#16) := by decide
/-- V-U21: an INTERNAL with data bits that are ignored. -/
theorem test_decode_upSetnode_internal :
    decode ⟨0b0000000000000001_0_0000000_00010100#32, 0x8123456700030002#64⟩ =
      .ok (.upSetnode 1#16 2#2 0#8 2#16 3#16) := by decide
/-- V-U20: KIND = 3 is a command. -/
theorem test_decode_upSetnode_kind3 :
    decode ⟨0b0000000000000011_0_0000000_00010100#32, 0xC000000000000000#64⟩ =
      .ok (.upSetnode 3#16 3#2 0#8 0#16 0#16) := by decide
/-- V-U13. -/
theorem test_decode_upSetroot :
    decode ⟨0b0000000000000101_0_0000000_00010101#32, 0#64⟩ = .ok (.upSetroot 5#16) := by decide
theorem test_decode_upDecode : decode ⟨0b0000000000000000_0_0000000_00010110#32, 0#64⟩ = .ok .upDecode := by decide
theorem test_decode_upStat : decode ⟨0b0000000000000000_0_0000000_00010111#32, 0#64⟩ = .ok .upStat := by decide

/-- V-C2, V-C9: unassigned OPs. -/
theorem test_decode_unassigned :
    decode ⟨0x00000006#32, 0#64⟩ = .error .unassignedOp ∧ decode ⟨0x00000018#32, 0#64⟩ = .error .unassignedOp ∧
    decode ⟨0x00000020#32, 0#64⟩ = .error .unassignedOp ∧ decode ⟨0x000000FF#32, 0#64⟩ = .error .unassignedOp := by
  decide
/-- V-C3 to V-C8: a reserved bit or a field the command does not use. -/
theorem test_decode_unused_fields :
    decode ⟨0x00000101#32, 0#64⟩ = .error .unusedLen ∧ decode ⟨0x00008002#32, 0#64⟩ = .error .reservedBit ∧
    decode ⟨0x00010001#32, 0#64⟩ = .error .unusedIdx ∧ decode ⟨0x00008004#32, 0#64⟩ = .error .reservedBit ∧
    decode ⟨0x00000116#32, 0#64⟩ = .error .unusedLen ∧ decode ⟨0x00010000#32, 0#64⟩ = .error .unusedIdx := by
  decide
/-- The table's numbering of a command's bits: the data word from bit 32 on (V-C11; R79). -/
theorem test_decodeTableWord :
    decodeTableWord 96 ((1 <<< 32) + 0x00000102) = some (.pkPut 1#7 1#64) ∧
    decodeTableWord 96 ((0x4000000000000061 <<< 32) + 0x00010014) = some (.upSetnode 1#16 1#2 0x61#8 0#16 0#16) ∧
    decodeTableWord 32 0x00000016 = some .upDecode ∧ decodeTableWord 32 0x00000006 = none := by decide

/-! ### Assembler text (30_encoding.md R80 to R82; 95_test_vectors.md 2.3) -/

theorem test_assemble_pseudo :
    assemble "PK.PUTB 001" = .ok [⟨0x00000302#32, 1#64⟩] ∧
    assemble "UP.NODE 2, 3, 4" = .ok [⟨0x00020014#32, 0x8000000000040003#64⟩] ∧
    assemble "UP.LEAF 4, 'z'" = .ok [⟨0x00040014#32, 0x400000000000007A#64⟩] ∧
    assemble "UP.CLEAR 7" = .ok [⟨0x00070014#32, 0#64⟩] ∧
    assemble "UP.LOAD 6, 0x58" = .ok [⟨0x00000012#32, 0x58#64⟩, ⟨0x00000013#32, 6#64⟩] := by decide
theorem test_assemble_rows :
    assemble "pk.put 3, 0b101 ; a comment" = .ok [⟨0x00000302#32, 5#64⟩] ∧
    assemble "UP.SETNODE 0, INTERNAL 1, 2" = .ok [⟨0x00000014#32, 0x8000000000020001#64⟩] ∧
    assemble "PK.RDBYTE 65536" = .error .outOfRange := by decide
/-- V-C12, V-C13, V-C14. -/
theorem test_disassemble :
    disassemble ⟨0x00050004#32, 0#64⟩ = "PK.RDBYTE 5" ∧ disassemble ⟨0x00000101#32, 0#64⟩ = ".illegal 0x00000101" ∧
    disassemble ⟨0x00030014#32, 0xC000000000000000#64⟩ = "UP.SETNODE 3, KIND3 0xC000000000000000" := by decide

/-! ### Status codes (60_exceptions.md R123) -/

theorem test_status_codes :
    [Status.ok, .done, .truncatedStream, .codeLengthOverflow, .emptyInput, .zeroLengthCode, .bufferFull, .streamSealed,
      .malformedTree, .invalidCode, .badArgument, .illegalCommand].map Status.code =
    [0x0#4, 0x1#4, 0x2#4, 0x3#4, 0x4#4, 0x5#4, 0x6#4, 0x7#4, 0x8#4, 0x9#4, 0xA#4, 0xB#4] := by decide

/-! ### States the tests start from -/

/-- The reset state with a packer that holds the stream `bytes` of `n` bits. -/
def packed (bytes : List Host.Cell) (n : Nat) : State :=
  { State.reset with pk := { buf := bytes, nbits := BitVec.ofNat 24 n, sealed := false, err := .ok } }

/-- The reset state with a tree, root 0, and a stream of `n` bits in the unpacker. -/
def loaded (nodes : List (Nat × NodeEntry)) (bytes : List Host.Cell) (n : Nat) : State :=
  { State.reset with up := { buf := bytes, nbits := BitVec.ofNat 24 n, cursor := 0#24, nodes := nodes, root := 0#16,
                             rootValid := true, err := .ok } }

def leaf (sym : Byte) : NodeEntry := { kind := .leaf, sym := sym, left := 0#16, right := 0#16 }
def fork (left right : Index) : NodeEntry := { kind := .internal, sym := 0#8, left := left, right := right }

/-- The trees of 95_test_vectors.md. -/
def treeT1 : List (Nat × NodeEntry) := [(0, leaf 0x71#8)]
def treeT2 : List (Nat × NodeEntry) := [(0, fork 1#16 2#16), (1, leaf 0x61#8), (2, leaf 0x62#8)]
def treeT3 : List (Nat × NodeEntry) :=
  [(0, fork 1#16 2#16), (1, leaf 0x78#8), (2, fork 3#16 4#16), (3, leaf 0x79#8), (4, leaf 0x7A#8)]

/-- The state with a packer error. -/
def pkFailed (st : Status) (s : State) : State := { s with pk := s.pk.latch st }
/-- The state with an unpacker error. -/
def upFailed (st : Status) (s : State) : State := { s with up := s.up.latch st }
/-- The state with the cursor at `c`. -/
def readFrom (c : Nat) (s : State) : State := { s with up := { s.up with cursor := BitVec.ofNat 24 c } }
/-- The state with other parameters. -/
def built (pk up nodes : Nat) (s : State) : State := { s with cfg := ⟨pk, up, nodes⟩ }

/-- The state a command leads to. -/
def afterCommand (i : Instr) (s : State) : Option State :=
  match exec i s with
  | .next t => some t
  | .fault _ => none
  | .refused _ => none

/-- The response a state offers. -/
def offered (s : State) : Option Response :=
  match s.phase with
  | .offering r => some r
  | .idle => none
  | .busy _ => none

/-- The response of a command. -/
def answer (i : Instr) (s : State) : Option Response := (afterCommand i s).bind offered

/-! ### One step of each command (95_test_vectors.md, parts 1 and 2) -/

/-- V-C1. -/
theorem test_nop : answer .nop (packed [(0, 0xA0#8)] 3) = some ⟨.ok, 0#64⟩ := by decide
/-- V-C3: answered, and the packer is not reset. -/
theorem test_illegal : runCommand ⟨0x00000101#32, 0#64⟩ (packed [(0, 0xA0#8)] 3) =
    .next { packed [(0, 0xA0#8)] 3 with phase := .offering ⟨.illegalCommand, 0#64⟩ } := rfl
/-- V-P12. -/
theorem test_pkReset : (afterCommand .pkReset (pkFailed .zeroLengthCode (packed [(0, 0xA0#8)] 3))).map
    (fun t => (t.pk.nbits, t.pk.err, t.pk.sealed)) = some (0#24, .ok, false) := by decide
/-- V-P3: a code over a byte boundary. -/
theorem test_pkPut_crosses_bytes : (afterCommand (.pkPut 7#7 0x66#64) (packed [(0, 0xA0#8)] 3)).map
    (fun t => (t.pk.stream, offered t)) = some (([0xB9#8, 0x80#8], 10), some ⟨.ok, 0xA#64⟩) := by decide
/-- V-P7: pattern bits from LEN up are ignored. -/
theorem test_pkPut_ignores_high_bits : (afterCommand (.pkPut 2#7 0xFFFFFFFFFFFFFFFD#64) State.reset).map
    (fun t => t.pk.stream) = some ([0x40#8], 2) := by decide
/-- V-P17. -/
theorem test_pkFinish : (afterCommand .pkFinish (packed [(0, 0xA0#8)] 3)).map
    (fun t => (t.pk.sealed, offered t)) = some (true, some ⟨.ok, 3#64⟩) := by decide
/-- V-P11. -/
theorem test_pkFinish_blocked : (afterCommand .pkFinish (pkFailed .zeroLengthCode State.reset)).map
    (fun t => (t.pk.sealed, offered t)) = some (false, some ⟨.zeroLengthCode, 0#64⟩) := by decide
/-- V-P19. -/
theorem test_pkRdbyte : answer (.pkRdbyte 0#16) (packed [(0, 0xA0#8)] 3) = some ⟨.ok, 0xA0#64⟩ := by decide
/-- V-P9: no byte follows a full one. -/
theorem test_pkRdbyte_past_full_byte :
    answer (.pkRdbyte 1#16) (packed [(0, 0xFF#8)] 8) = some ⟨.badArgument, 0#64⟩ := by decide
/-- V-P15. -/
theorem test_pkStat : answer .pkStat (pkFailed .bufferFull (packed [(0, 0xA5#8)] 8)) =
    some ⟨.ok, 0x06000008#64⟩ := by decide
/-- V-P18: an empty sealed stream. -/
theorem test_pkStat_sealed : ((afterCommand .pkFinish State.reset).bind fun t => answer .pkStat t) =
    some ⟨.ok, 0x10000000#64⟩ := by decide
/-- V-U14 and R100. -/
theorem test_upReset : (afterCommand .upReset (readFrom 1 (loaded treeT2 [(0, 0x20#8)] 3))).map
    (fun t => t.up) = some Unpacker.reset := by decide
/-- V-U4. -/
theorem test_upRewind : (afterCommand .upRewind (upFailed .truncatedStream (readFrom 1 (loaded treeT3 [(0, 0x80#8)] 1)))).map
    (fun t => (t.up.cursor, t.up.err, t.up.nbits)) = some (0#24, .ok, 1#24) := by decide
/-- V-U21. -/
theorem test_upWrbyte : (afterCommand (.upWrbyte 0#16 0xFF#8) State.reset).map (fun t => t.up.buf) =
    some [(0, 0xFF#8)] := by decide
/-- V-U18. -/
theorem test_upWrbyte_past_the_buffer : answer (.upWrbyte 16#16 0#8) State.reset = some ⟨.badArgument, 0#64⟩ := by
  decide
/-- V-U23. -/
theorem test_upSetnbits_clears : (afterCommand (.upSetnbits 0#64)
    (upFailed .truncatedStream (readFrom 1 (loaded treeT3 [(0, 0x80#8)] 1)))).map
    (fun t => (t.up.nbits, t.up.cursor, t.up.err)) = some (0#24, 0#24, .ok) := by decide
/-- V-U17: never truncated to 24 bits. -/
theorem test_upSetnbits_whole_word : answer (.upSetnbits 0x1000000#64) State.reset = some ⟨.badArgument, 0#64⟩ := by
  decide
/-- V-U21. -/
theorem test_upSetnode : (afterCommand (.upSetnode 1#16 2#2 0#8 2#16 3#16) State.reset).map (fun t => t.up.nodes) =
    some [(1, fork 2#16 3#16)] := by decide
/-- V-U20. -/
theorem test_upSetnode_kind3 : (afterCommand (.upSetnode 3#16 3#2 0#8 0#16 0#16) State.reset).map
    (fun t => (t.up.nodes, offered t)) = some ([], some ⟨.badArgument, 0#64⟩) := by decide
/-- V-U19. -/
theorem test_upSetroot : (afterCommand (.upSetroot 510#16) State.reset).map (fun t => (t.up.root, t.up.rootValid)) =
    some (510#16, true) := by decide
/-- V-U19. -/
theorem test_upSetroot_past_the_table : answer (.upSetroot 511#16) State.reset = some ⟨.badArgument, 0#64⟩ := by decide
/-- V-U6, the second symbol: the path 1, 0 from the cursor 1. -/
theorem test_upDecode : (afterCommand .upDecode (readFrom 1 (loaded treeT3 [(0, 0x58#8)] 6))).map
    (fun t => (t.up.cursor, offered t)) = some (3#24, some ⟨.ok, 0x79#64⟩) := by decide
/-- V-U7: a tree that is a cycle. -/
theorem test_upDecode_cycle : (afterCommand .upDecode (loaded [(0, fork 0#16 0#16)] [(0, 0xFF#8)] 8)).map
    (fun t => (t.up.cursor, t.up.err, offered t)) =
    some (8#24, .truncatedStream, some ⟨.truncatedStream, 0#64⟩) := by decide
/-- V-U9. -/
theorem test_upStat : answer .upStat (upFailed .invalidCode (readFrom 2 (loaded treeT1 [(0, 0x40#8)] 2))) =
    some ⟨.ok, 0x0019000002000002#64⟩ := by decide
/-- E1a: what a run of the port yields (R153). -/
theorem test_unpackedSymbols :
    unpackedSymbols [.response ⟨.done, 0#64⟩, .command ⟨0x16#32, 0#64⟩, .response ⟨.ok, 0x62#64⟩,
      .command ⟨0x16#32, 0#64⟩, .response ⟨.ok, 0x61#64⟩, .command ⟨0x16#32, 0#64⟩] = some [0x61#8, 0x62#8] := by decide

/-- What Program 1 and Program 5 of 95_test_vectors.md yield from the packer: the stream that PK.FINISH sealed, and none
after a PK.FINISH that answered BUFFER_FULL. -/
theorem test_packedStream :
    packedStream { packed [(0, 0x20#8)] 3 with trace :=
      [.response ⟨.ok, 3#64⟩, .command ⟨0x03#32, 0#64⟩, .response ⟨.ok, 3#64⟩, .command ⟨0x102#32, 1#64⟩] } =
        some ([0x20#8], 3) ∧
    packedStream { pkFailed .bufferFull (packed [(0, 0xAB#8), (1, 0xC0#8)] 12) with trace :=
      [.response ⟨.bufferFull, 0#64⟩, .command ⟨0x03#32, 0#64⟩] } = none ∧
    packedStream { packed [(0, 0x20#8)] 0 with trace := [.response ⟨.ok, 0#64⟩, .command ⟨0x01#32, 0#64⟩,
      .response ⟨.ok, 3#64⟩, .command ⟨0x03#32, 0#64⟩] } = none := by decide
/-- The responses of a run since the last reset, in order. -/
theorem test_runResponses :
    runResponses [.response ⟨.done, 0#64⟩, .command ⟨0x16#32, 0#64⟩, .response ⟨.ok, 0x61#64⟩,
      .command ⟨0x16#32, 0#64⟩, .reset, .response ⟨.ok, 0#64⟩, .command ⟨0x00#32, 0#64⟩] =
      [⟨.ok, 0x61#64⟩, ⟨.done, 0#64⟩] := by decide
/-- An error before the first DONE: none of the output is valid; what comes after a DONE does not count. -/
theorem test_symbolsUpToDone :
    symbolsUpToDone [⟨.ok, 0x61#64⟩, ⟨.truncatedStream, 0#64⟩] = none ∧
    symbolsUpToDone [⟨.ok, 0x61#64⟩, ⟨.done, 0#64⟩, ⟨.ok, 0x62#64⟩] = some [0x61#8] := by decide

/-! ### Witnesses: the states -/

theorem reset_inv : State.reset.Inv := ⟨by decide, Packer.reset_inv _, Unpacker.reset_inv _⟩

/-- A state with a packed stream meets the invariant. -/
theorem packed_inv : (packed [(0, 0xB9#8), (1, 0x80#8)] 10).Inv where
  cfg := by decide
  pk := { canonical := by decide, inside := by decide, count := by decide, padding := by decide,
          sealedClean := by decide, legalErr := by decide }
  up := Unpacker.reset_inv _

/-- A state with a tree and a stream meets the invariant, wherever the cursor stands in the stream. -/
theorem loaded_inv : (loaded treeT3 [(0, 0x58#8)] 6).Inv where
  cfg := by decide
  pk := Packer.reset_inv _
  up := { canonical := by decide, inside := by decide, cursor := by decide, count := by decide,
          nodesCanonical := by decide, nodesInside := by decide, entries := by decide, rootInside := by decide,
          legalErr := by decide }

/-- The lone-leaf tree, with a 0 and a 1 bit. -/
theorem lone_inv : (loaded treeT1 [(0, 0x40#8)] 2).Inv where
  cfg := by decide
  pk := Packer.reset_inv _
  up := { canonical := by decide, inside := by decide, cursor := by decide, count := by decide,
          nodesCanonical := by decide, nodesInside := by decide, entries := by decide, rootInside := by decide,
          legalErr := by decide }

/-- The truncated stream of V-U3. -/
theorem truncated_inv : (loaded treeT3 [(0, 0x80#8)] 1).Inv where
  cfg := by decide
  pk := Packer.reset_inv _
  up := { canonical := by decide, inside := by decide, cursor := by decide, count := by decide,
          nodesCanonical := by decide, nodesInside := by decide, entries := by decide, rootInside := by decide,
          legalErr := by decide }

/-- The malformed tree of V-U10. -/
def badTree : List (Nat × NodeEntry) := [(0, fork 600#16 1#16), (1, leaf 0x41#8)]

theorem bad_inv : (loaded badTree [(0, 0x40#8)] 2).Inv where
  cfg := by decide
  pk := Packer.reset_inv _
  up := { canonical := by decide, inside := by decide, cursor := by decide, count := by decide,
          nodesCanonical := by decide, nodesInside := by decide, entries := by decide, rootInside := by decide,
          legalErr := by decide }

/-- A state with a latched error of each unit. -/
theorem failed_inv : (pkFailed .bufferFull (upFailed .invalidCode State.reset)).Inv where
  cfg := by decide
  pk := { Packer.reset_inv Config.reference with sealedClean := by decide, legalErr := by decide }
  up := { Unpacker.reset_inv Config.reference with legalErr := by decide }

/-- An edge at which the host offers a command. -/
def offering (c : Command) : Edge := { Edge.quiet with cmdValid := true, cmdWord := c.word, cmdData := c.data }

/-! ### Witnesses: encoding -/

theorem witness_DecodeOfEncode :
    (Instr.upSetnode 1#16 1#2 0x61#8 0#16 0#16).wf = true ∧ (Instr.upSetnode 0#16 2#2 0#8 0xFFFF#16 2#16).wf = true ∧
    (Instr.pkPut 127#7 5#64).wf = true := by decide

theorem witness_EncodeOfDecode : decode ⟨0x00000302#32, 5#64⟩ = .ok (.pkPut 3#7 5#64) := by decide

theorem witness_DecoderSelectsTheTableRow :
    (∃ row, row ∈ opcodeTable ∧ (0xFFFF0004#32 : BitVec 32) &&& row.mask = row.value ∧
      decode ⟨0xFFFF0004#32, 0#64⟩ = .ok (.pkRdbyte 0xFFFF#16) ∧ row.mnemonic = "PK.RDBYTE") ∧
    (∀ row ∈ opcodeTable, (0x00008002#32 : BitVec 32) &&& row.mask ≠ row.value) :=
  ⟨⟨_, List.mem_of_getElem? (i := 4) rfl, by decide⟩, by decide⟩

theorem witness_UnnamedDataBitsAreIgnored :
    (opField 0x16#32 ≠ 0x02#8 ∧ opField 0x16#32 ≠ 0x12#8 ∧ opField 0x16#32 ≠ 0x13#8 ∧ opField 0x16#32 ≠ 0x14#8) ∧
    (opField 0x12#32 = 0x12#8 ∧ (0x1FF#64).extractLsb' 0 8 = (0xFF#64).extractLsb' 0 8) ∧
    (opField 0x14#32 = 0x14#8 ∧ (0x400000000000FF61#64).extractLsb' 62 2 = (0x4000000000000061#64).extractLsb' 62 2 ∧
      (0x400000000000FF61#64).extractLsb' 0 8 = (0x4000000000000061#64).extractLsb' 0 8) ∧
    (opField 0x14#32 = 0x14#8 ∧ (0x8123456700030002#64).extractLsb' 62 2 = (0x8000000000030002#64).extractLsb' 62 2 ∧
      (0x8123456700030002#64).extractLsb' 0 32 = (0x8000000000030002#64).extractLsb' 0 32) := by decide

theorem witness_IllegalWordIsAnsweredAndChangesNothing :
    (∀ row ∈ opcodeTable, (0x00000018#32 : BitVec 32) &&& row.mask ≠ row.value) ∧
    (∀ row ∈ opcodeTable, (0x00000101#32 : BitVec 32) &&& row.mask ≠ row.value) := by decide

/-! ### Witnesses: the step -/

theorem witness_StepRunsTheDecodedCommand :
    let s := State.reset.withCommand ⟨0x00000102#32, 1#64⟩
    s.phase = .busy ⟨0x00000102#32, 1#64⟩ ∧ decode ⟨0x00000102#32, 1#64⟩ = .ok (.pkPut 1#7 1#64) ∧
    s.edge.rst = false ∧ breaksHandshake s.held s.edge = false ∧ s.edge.stall = false := by decide

theorem witness_PlacedWordIsRunByTheNextStep :
    decodeTableWord 96 ((1 <<< 32) + 0x00000102) = some (.pkPut 1#7 1#64) ∧
    decodeTableWord 32 0x00000017 = some .upStat := by decide

theorem witness_ResetPinResetsEveryRegister :
    let s : State := { loaded treeT2 [(0, 0x20#8)] 3 with edges := [{ Edge.quiet with rst := true }] }
    s.edge.rst = true := by decide

/-- With a command in flight, and another one offered at that edge. -/
theorem witness_ResetPinLeavesTheModelsResetState :
    let p := packed [(0, 0xB9#8), (1, 0x80#8)] 10
    let e := { offering ⟨0x05#32, 0#64⟩ with rst := true }
    let s : State := { p with phase := .busy ⟨0x16#32, 0#64⟩, edges := [e] }
    s.edge.rst = true := by decide

theorem witness_CommandTransfersWhenValidAndReady :
    (let s : State := { State.reset with edges := [offering ⟨0x16#32, 0#64⟩] }
     s.edge.rst = false ∧ breaksHandshake s.held s.edge = false ∧ s.cmdReady = true ∧ s.edge.cmdValid = true) ∧
    (State.reset.edge.rst = false ∧ breaksHandshake State.reset.held State.reset.edge = false ∧
      State.reset.cmdReady = true ∧ State.reset.edge.cmdValid = false) ∧
    (let s : State := { State.reset with phase := .busy ⟨0x16#32, 0#64⟩,
                                         edges := [{ offering ⟨0x05#32, 0#64⟩ with stall := true }] }
     s.edge.rst = false ∧ breaksHandshake s.held s.edge = false ∧ s.cmdReady = false) := by decide

/-- The third clause's step answers a next state. -/
theorem witness_CommandTransfersWhenValidAndReady_waiting :
    ∃ t, step { State.reset with phase := .busy ⟨0x16#32, 0#64⟩,
                                 edges := [{ offering ⟨0x05#32, 0#64⟩ with stall := true }] } = .next t ∧
      t.phase = .busy ⟨0x16#32, 0#64⟩ := ⟨_, rfl, rfl⟩

theorem witness_ResponseHoldsUntilItTransfers :
    (let s : State := { State.reset with phase := .offering ⟨.ok, 5#64⟩, edges := [{ Edge.quiet with rspReady := true }] }
     s.phase = .offering ⟨.ok, 5#64⟩ ∧ s.edge.rst = false ∧ breaksHandshake s.held s.edge = false ∧
       s.edge.rspReady = true) ∧
    (let s : State := { State.reset with phase := .offering ⟨.ok, 5#64⟩ }
     s.phase = .offering ⟨.ok, 5#64⟩ ∧ s.edge.rst = false ∧ breaksHandshake s.held s.edge = false ∧
       s.edge.rspReady = false) := by decide

theorem witness_BrokenHandshakeIsRefused :
    let s : State := { State.reset with phase := .offering ⟨.ok, 5#64⟩, held := some ⟨0x01#32, 0#64⟩,
                                        edges := [offering ⟨0x10#32, 0#64⟩] }
    s.held = some ⟨0x01#32, 0#64⟩ ∧ s.edge.rst = false ∧ s.edge.cmdValid = true ∧
    (⟨s.edge.cmdWord, s.edge.cmdData⟩ : Command) ≠ ⟨0x01#32, 0#64⟩ := by decide

theorem witness_StepKeepsAlternation :
    ∃ t, ({ State.reset with edges := [offering ⟨0x16#32, 0#64⟩] } : State).PortInv ∧
      step { State.reset with edges := [offering ⟨0x16#32, 0#64⟩] } = .next t ∧ t.phase = .busy ⟨0x16#32, 0#64⟩ :=
  ⟨_, ⟨rfl, rfl⟩, rfl, rfl⟩

theorem witness_StepKeepsTheRunOfTransactions :
    ∃ t, ({ State.reset with phase := .busy ⟨0x03#32, 0#64⟩, trace := [.command ⟨0x03#32, 0#64⟩] } : State).Faithful ∧
      step { State.reset with phase := .busy ⟨0x03#32, 0#64⟩, trace := [.command ⟨0x03#32, 0#64⟩] } = .next t ∧
      t.phase = .offering ⟨.ok, 0#64⟩ :=
  ⟨_, ⟨[], rfl, Replays.start⟩, rfl, rfl⟩

/-- A host that, while the block needs further cycles, offers the next command and holds it, and one that is quiet. -/
theorem witness_HeldCommandIsAnswered :
    let e : Edge := offering ⟨0x05#32, 0#64⟩
    let s : State := { State.reset with phase := .busy ⟨0x16#32, 0#64⟩, edges := [{ e with stall := true }, e] }
    let q : State := { State.reset with phase := .busy ⟨0x16#32, 0#64⟩, edges := [{ Edge.quiet with stall := true }] }
    (s.Inv ∧ s.phase = .busy ⟨0x16#32, 0#64⟩ ∧ (∀ e ∈ s.edges, e.rst = false) ∧
      keepsHandshake s.held s.edges = true) ∧
    (q.Inv ∧ q.phase = .busy ⟨0x16#32, 0#64⟩ ∧ (∀ e ∈ q.edges, e.rst = false) ∧
      keepsHandshake q.held q.edges = true) :=
  ⟨⟨⟨reset_inv.cfg, reset_inv.pk, reset_inv.up⟩, rfl, by decide, by decide⟩,
    ⟨⟨reset_inv.cfg, reset_inv.pk, reset_inv.up⟩, rfl, by decide, by decide⟩⟩

/-! ### Witnesses: invariants and rules over all commands -/

/-- The largest and the smallest build; for each counter, a command that changes it. -/
theorem witness_CountersCannotWrap :
    ((⟨65536, 65536, 65536⟩ : Config).Valid ∧ (⟨1, 1, 1⟩ : Config).Valid ∧
      (524288 : Nat) ≤ 8 * (⟨65536, 65536, 65536⟩ : Config).pkCapBytes) ∧
    (∃ t, (packed [(0, 0xB9#8), (1, 0x80#8)] 10).Inv ∧
      exec (.pkPut 7#7 1#64) (packed [(0, 0xB9#8), (1, 0x80#8)] 10) = .next t ∧ t.pk.nbits = 17#24) ∧
    (∃ t, State.reset.Inv ∧ exec (.upSetnbits 128#64) State.reset = .next t ∧ t.up.nbits = 128#24) ∧
    (∃ t, (loaded treeT3 [(0, 0x58#8)] 6).Inv ∧ exec .upDecode (loaded treeT3 [(0, 0x58#8)] 6) = .next t ∧
      t.up.cursor = 1#24) :=
  ⟨⟨by decide, by decide, by simp⟩, ⟨_, packed_inv, rfl, by decide⟩, ⟨_, reset_inv, rfl, by decide⟩,
    ⟨_, loaded_inv, rfl, by decide⟩⟩

theorem witness_ResetMeetsTheInvariants : (⟨65536, 1, 65536⟩ : Config).Valid := by decide

theorem witness_StepKeepsTheInvariant :
    ∃ t, ((loaded treeT3 [(0, 0x58#8)] 6).withCommand ⟨0x16#32, 0#64⟩).Inv ∧
      step ((loaded treeT3 [(0, 0x58#8)] 6).withCommand ⟨0x16#32, 0#64⟩) = .next t ∧ t.up.cursor = 1#24 :=
  ⟨_, ⟨loaded_inv.cfg, loaded_inv.pk, loaded_inv.up⟩, rfl, by decide⟩

theorem witness_EveryCommandIsAnswered : (loaded treeT3 [(0, 0x58#8)] 6).Inv := loaded_inv

theorem witness_StepStopsOnlyOnABrokenHandshake :
    let s : State := { State.reset with held := some ⟨0x01#32, 0#64⟩, edges := [offering ⟨0x10#32, 0#64⟩] }
    s.Inv ∧ step s = .refused .handshakeBroken := ⟨⟨reset_inv.cfg, reset_inv.pk, reset_inv.up⟩, rfl⟩

theorem witness_UnitsShareNothing :
    (∃ t, exec (.pkPut 7#7 0x66#64) (packed [(0, 0xA0#8)] 3) = .next t ∧
      (Instr.pkPut 7#7 0x66#64).usesUnpacker = false) ∧
    (∃ t, exec .upDecode (loaded treeT3 [(0, 0x58#8)] 6) = .next t ∧ Instr.upDecode.usesPacker = false) :=
  ⟨⟨_, rfl, rfl⟩, ⟨_, rfl, rfl⟩⟩

theorem witness_CommandsLeaveTheHostSideAlone :
    ∃ t, exec (.upWrbyte 0#16 0xFF#8) State.reset = .next t ∧ t.up.buf = [(0, 0xFF#8)] := ⟨_, rfl, by decide⟩

/-- For each register of the statement, a command that changes it. -/
theorem witness_OnlyTheListedCommandsWriteARegister :
    (∃ t, exec (.pkPut 1#7 1#64) State.reset = .next t ∧ t.pk.buf ≠ [] ∧ t.pk.nbits ≠ 0#24) ∧
    (∃ t, exec .pkFinish State.reset = .next t ∧ t.pk.sealed ≠ false) ∧
    (∃ t, exec (.pkPut 0#7 0#64) State.reset = .next t ∧ t.pk.err ≠ .ok) ∧
    (∃ t, exec (.upWrbyte 0#16 0xFF#8) State.reset = .next t ∧ t.up.buf ≠ []) ∧
    (∃ t, exec (.upSetnbits 4#64) State.reset = .next t ∧ t.up.nbits ≠ 0#24) ∧
    (∃ t, exec (.upSetnode 0#16 1#2 0x71#8 0#16 0#16) State.reset = .next t ∧ t.up.nodes ≠ []) ∧
    (∃ t, exec (.upSetroot 5#16) State.reset = .next t ∧ t.up.root ≠ 0#16 ∧ t.up.rootValid ≠ false) ∧
    (∃ t, exec .upDecode (loaded treeT3 [(0, 0x80#8)] 1) = .next t ∧ t.up.cursor ≠ 0#24 ∧ t.up.err ≠ .ok) :=
  ⟨⟨_, rfl, by decide⟩, ⟨_, rfl, by decide⟩, ⟨_, rfl, by decide⟩, ⟨_, rfl, by decide⟩, ⟨_, rfl, by decide⟩,
    ⟨_, rfl, by decide⟩, ⟨_, rfl, by decide⟩, ⟨_, rfl, by decide⟩⟩

theorem witness_StickyErrorIsClearedOnlyByItsCommands :
    (∃ t, exec .pkReset (pkFailed .bufferFull State.reset) = .next t ∧
      (pkFailed .bufferFull State.reset).pk.err ≠ .ok ∧ t.pk.err = .ok) ∧
    (∃ t, exec .upRewind (upFailed .invalidCode State.reset) = .next t ∧
      (upFailed .invalidCode State.reset).up.err ≠ .ok ∧ t.up.err = .ok) :=
  ⟨⟨_, rfl, by decide⟩, ⟨_, rfl, by decide⟩⟩

theorem witness_StickyErrorBlocks :
    (pkFailed .bufferFull State.reset).pk.err ≠ .ok ∧ (upFailed .invalidCode State.reset).up.err ≠ .ok := by decide

/-- A command that is not blocked, and one of each unit. -/
theorem witness_StickyErrorBlocks_others :
    (∃ t, (∀ len pattern, Instr.pkRdbyte 0#16 ≠ .pkPut len pattern) ∧ Instr.pkRdbyte 0#16 ≠ .pkFinish ∧
      Instr.pkRdbyte 0#16 ≠ .upDecode ∧ exec (.pkRdbyte 0#16) (pkFailed .bufferFull (packed [(0, 0xA5#8)] 8)) = .next t ∧
      t.phase = .offering ⟨.ok, 0xA5#64⟩) ∧
    (∃ t, exec (.pkPut 1#7 1#64) (upFailed .invalidCode State.reset) = .next t ∧
      (Instr.pkPut 1#7 1#64).usesUnpacker = false) ∧
    (∃ t, exec .upDecode (pkFailed .bufferFull State.reset) = .next t ∧ Instr.upDecode.usesPacker = false) :=
  ⟨⟨_, by simp, by decide, by decide, rfl, rfl⟩, ⟨_, rfl, rfl⟩, ⟨_, rfl, rfl⟩⟩

/-- A rejection, an illegal word, a sticky status of each unit, and DONE. -/
theorem witness_StatusClassesAreKept :
    (∃ t, State.reset.Inv ∧ runCommand ⟨0x04#32, 0#64⟩ State.reset = .next t ∧
      t.phase = .offering ⟨.badArgument, 0#64⟩ ∧ Status.badArgument.rejection = true) ∧
    (∃ t, State.reset.Inv ∧ runCommand ⟨0x06#32, 0#64⟩ State.reset = .next t ∧
      t.phase = .offering ⟨.illegalCommand, 0#64⟩ ∧ Status.illegalCommand.rejection = true) ∧
    (∃ t, State.reset.Inv ∧ runCommand ⟨0x02#32, 0#64⟩ State.reset = .next t ∧
      t.phase = .offering ⟨.zeroLengthCode, 0#64⟩ ∧ Status.zeroLengthCode.stickyPk = true) ∧
    (∃ t, (loaded treeT3 [(0, 0x80#8)] 1).Inv ∧ runCommand ⟨0x16#32, 0#64⟩ (loaded treeT3 [(0, 0x80#8)] 1) = .next t ∧
      t.phase = .offering ⟨.truncatedStream, 0#64⟩ ∧ Status.truncatedStream.stickyUp = true) ∧
    (∃ t, State.reset.Inv ∧ runCommand ⟨0x16#32, 0#64⟩ State.reset = .next t ∧ t.phase = .offering ⟨.done, 0#64⟩) :=
  ⟨⟨_, reset_inv, rfl, rfl, rfl⟩, ⟨_, reset_inv, rfl, rfl, rfl⟩, ⟨_, reset_inv, rfl, rfl, rfl⟩,
    ⟨_, truncated_inv, rfl, rfl, rfl⟩, ⟨_, reset_inv, rfl, rfl⟩⟩

theorem witness_ReadCommandsChangeNothing :
    ∃ t, exec (.pkRdbyte 0#16) (packed [(0, 0xA0#8)] 3) = .next t ∧ t.phase = .offering ⟨.ok, 0xA0#64⟩ := ⟨_, rfl, rfl⟩

/-! ### Witnesses: packer commands -/

theorem witness_NopAnswersOkAndChangesNothing :
    (0x00010000#32 : BitVec 32).extractLsb' 0 8 = 0x00#8 ∧ (0x00010000#32 : BitVec 32) ≠ 0#32 := by decide

/-- V-P3, and the exact fill of the buffer. -/
theorem witness_PkPutAppendsTheCode :
    (let s := packed [(0, 0xB9#8), (1, 0x80#8)] 10
     s.Inv ∧ s.pk.err = .ok ∧ s.pk.sealed = false ∧ 1 ≤ (64#7).toNat ∧ (64#7).toNat ≤ 64 ∧
       s.pk.nbits.toNat + (64#7).toNat ≤ 8 * s.cfg.pkCapBytes) ∧
    (let s := built 1 16 511 State.reset
     s.Inv ∧ s.pk.err = .ok ∧ s.pk.sealed = false ∧ s.pk.nbits.toNat + (8#7).toNat = 8 * s.cfg.pkCapBytes) :=
  ⟨⟨packed_inv, by decide⟩, ⟨by decide, Packer.reset_inv _, Unpacker.reset_inv _⟩, by decide⟩

/-- Each check at the edge of its range: LEN 65 and 127, and one bit too many. -/
theorem witness_PkPutChecksInOrder :
    ((pkFailed .bufferFull State.reset).pk.err ≠ .ok) ∧
    (let s : State := { State.reset with pk := State.reset.pk.seal }
     s.pk.err = .ok ∧ s.pk.sealed = true) ∧
    (State.reset.pk.err = .ok ∧ State.reset.pk.sealed = false ∧ 65 ≤ (65#7).toNat ∧ 65 ≤ (127#7).toNat) ∧
    (let s := built 1 16 511 (packed [(0, 0xA5#8)] 8)
     s.pk.err = .ok ∧ s.pk.sealed = false ∧ 1 ≤ (1#7).toNat ∧ (1#7).toNat ≤ 64 ∧
       8 * s.cfg.pkCapBytes < s.pk.nbits.toNat + (1#7).toNat) := by decide

theorem witness_PkPutIgnoresPatternBitsAboveLen :
    (∀ j < (2#7).toNat, (0xFFFFFFFFFFFFFFFD#64).getLsbD j = (0b01#64).getLsbD j) ∧
    (0xFFFFFFFFFFFFFFFD#64 : BitVec 64) ≠ 0b01#64 := by decide

theorem witness_PkFinishSealsACleanStream :
    (pkFailed .zeroLengthCode State.reset).pk.err ≠ .ok ∧ (packed [(0, 0xA0#8)] 3).pk.err = .ok := by decide

/-- The last byte of a stream, and the index after it. -/
theorem witness_PkRdbyteReadsAByteOfTheStream :
    let s := packed [(0, 0xB9#8), (1, 0x80#8)] 10
    s.pk.nbits.toNat ≤ 8 * s.cfg.pkCapBytes ∧ (1#16).toNat < ceil8 s.pk.nbits.toNat ∧
    ceil8 s.pk.nbits.toNat ≤ (2#16).toNat := by decide

theorem witness_StreamHoldsTheConcatenatedCodes :
    ∃ t rs, State.reset.Inv ∧ execAll (packCommands [⟨3#7, 5#64⟩, ⟨7#7, 0x66#64⟩]) State.reset = some (t, rs) ∧
      (∀ r ∈ rs, r.status = .ok) ∧ t.pk.stream = ([0xB9#8, 0x80#8], 10) := ⟨_, _, reset_inv, rfl, by decide⟩

/-- The same from the reset pin. -/
theorem witness_StreamHoldsTheConcatenatedCodes_reset :
    ∃ t rs, State.reset.pk = Packer.reset ∧
      execAll ([⟨3#7, 5#64⟩, ⟨7#7, 0x66#64⟩].map fun c : Code => .pkPut c.len c.pattern) State.reset = some (t, rs) ∧
      ∀ r ∈ rs, r.status = .ok := ⟨_, _, rfl, rfl, by decide⟩

theorem witness_FullBytesHaveNoPadding :
    (packed [(0, 0xB3#8)] 8).pk.nbits.toNat % 8 = 0 ∧ (packed [(0, 0xB3#8)] 8).pk.stream = ([0xB3#8], 8) := by decide

theorem witness_LoneCodePacksToZeroBytes :
    State.reset.Inv ∧ 10 ≤ 8 * State.reset.cfg.pkCapBytes ∧ 128 ≤ 8 * State.reset.cfg.pkCapBytes :=
  ⟨reset_inv, by decide⟩

theorem witness_RejectedCodeLeavesTheStream :
    (∃ t, exec (.pkPut 0#7 0#64) (packed [(0, 0xA0#8)] 3) = .next t ∧
      t.phase = .offering ⟨.zeroLengthCode, 0#64⟩ ∧ Status.zeroLengthCode ≠ .ok) ∧
    (∃ t rs, (pkFailed .bufferFull State.reset).pk.err ≠ .ok ∧ Instr.pkReset ∉ [Instr.pkPut 1#7 1#64, .pkFinish] ∧
      execAll [.pkPut 1#7 1#64, .pkFinish] (pkFailed .bufferFull State.reset) = some (t, rs)) :=
  ⟨⟨_, rfl, rfl, by decide⟩, ⟨_, _, by decide, by decide, rfl⟩⟩

theorem witness_BytesPastTheStreamAreUnobservable :
    let s := packed [(0, 0xB9#8), (1, 0x80#8)] 10
    let buf : List Host.Cell := [(0, 0xB9#8), (1, 0x80#8), (2, 0xFF#8)]
    ∃ t, s.Inv ∧ Memory.wf unlistedByte buf ∧
      (∀ a < s.pk.nbytes, Memory.read unlistedByte buf a = Memory.read unlistedByte s.pk.buf a) ∧
      exec (.pkPut 7#7 1#64) s = .next t ∧ buf ≠ s.pk.buf := ⟨_, packed_inv, by decide, by decide, rfl, by decide⟩

/-- The run of Program 1's last command: PK.FINISH is answered OK and the stream is sealed. -/
theorem witness_RunIsFinishedExactlyWhenSealed :
    let s : State := { State.reset with pk := Packer.reset.seal,
                                        trace := [.response ⟨.ok, 0#64⟩, .command ⟨0x03#32, 0#64⟩] }
    s.Faithful ∧ s.phase = .idle ∧ s.pk.sealed = true :=
  ⟨Replays.answered (u := { State.reset with pk := Packer.reset.seal, phase := .offering ⟨.ok, 0#64⟩ })
    Replays.start rfl rfl, rfl, rfl⟩

theorem witness_FinishingThenReadingGivesThePackedStream :
    ((packed [(0, 0xB9#8), (1, 0x80#8)] 10).Inv ∧ (packed [(0, 0xB9#8), (1, 0x80#8)] 10).pk.err = .ok ∧
      (packed [(0, 0xB9#8), (1, 0x80#8)] 10).pk.stream = ([0xB9#8, 0x80#8], 10)) ∧
    ((pkFailed .bufferFull (upFailed .invalidCode State.reset)).Inv ∧
      (pkFailed .bufferFull (upFailed .invalidCode State.reset)).pk.err ≠ .ok) :=
  ⟨⟨packed_inv, by decide⟩, ⟨failed_inv, by decide⟩⟩

/-! ### Witnesses: unpacker commands -/

/-- The last index of the buffer, and the one after it. -/
theorem witness_UpWrbyteWritesOneByte :
    (0x1FF#64).extractLsb' 0 8 = 0xFF#8 ∧ State.reset.cfg.upCapBytes ≤ (16#16).toNat ∧
    (15#16).toNat < State.reset.cfg.upCapBytes ∧ Memory.wf unlistedByte State.reset.up.buf := by decide

/-- V-U16. -/
theorem witness_UpSetnbitsStartsAStream :
    8 * State.reset.cfg.upCapBytes < (129#64).toNat ∧ State.reset.cfg.Valid ∧
    (128#64).toNat ≤ 8 * State.reset.cfg.upCapBytes := by decide

/-- The last entry of the table, and the index after it; each KIND. -/
theorem witness_UpSetnodeWritesOneEntry :
    State.reset.cfg.upNodes ≤ (511#16).toNat ∧ (510#16).toNat < State.reset.cfg.upNodes ∧
    Memory.wf NodeEntry.empty State.reset.up.nodes ∧ (0#2 : BitVec 2) ≠ 3#2 ∧ (1#2 : BitVec 2) ≠ 3#2 ∧
    (2#2 : BitVec 2) ≠ 3#2 := by decide

theorem witness_UpSetrootChoosesTheRoot :
    State.reset.cfg.upNodes ≤ (511#16).toNat ∧ (510#16).toNat < State.reset.cfg.upNodes := by decide

/-- A latched error; the end of the stream; no root (V-U12); an EMPTY root (V-U13). -/
theorem witness_UpDecodeChecksInOrder :
    ((upFailed .invalidCode State.reset).up.err ≠ .ok) ∧
    (State.reset.up.err = .ok ∧ State.reset.up.cursor = State.reset.up.nbits) ∧
    (let s : State := { State.reset with up := { State.reset.up with nbits := 4#24 } }
     s.up.err = .ok ∧ s.up.cursor ≠ s.up.nbits ∧ s.up.rootValid = false) ∧
    (let s := loaded [] [] 4
     s.up.err = .ok ∧ s.up.cursor ≠ s.up.nbits ∧ s.up.root.toNat < s.cfg.upNodes ∧ s.up.rootEntry.kind = .empty) := by
  decide

/-- V-U9: a 0 bit at cursor 0; and a 1 bit at cursor 1. -/
theorem witness_UpDecodeSingleLeafTree :
    (let s := loaded treeT1 [(0, 0x40#8)] 2
     s.Inv ∧ s.up.err = .ok ∧ s.up.cursor ≠ s.up.nbits ∧ s.up.rootValid = true ∧ s.up.rootEntry.kind = .leaf ∧
       streamBit s.up.buf s.up.cursor.toNat = false) ∧
    (let s := readFrom 1 (loaded treeT1 [(0, 0x40#8)] 2)
     s.Inv ∧ s.up.err = .ok ∧ s.up.cursor ≠ s.up.nbits ∧ s.up.rootValid = true ∧ s.up.rootEntry.kind = .leaf ∧
       streamBit s.up.buf s.up.cursor.toNat = true) :=
  ⟨⟨lone_inv, by decide⟩, ⟨lone_inv.cfg, lone_inv.pk, { lone_inv.up with cursor := by decide }⟩, by decide⟩

/-- V-U6, the second symbol. -/
theorem witness_UpDecodeEmitsTheLeafOnItsPath :
    let s := readFrom 1 (loaded treeT3 [(0, 0x58#8)] 6)
    s.Inv ∧ s.up.err = .ok ∧ s.up.rootValid = true ∧ s.up.rootEntry.kind = .internal ∧
    Path s.cfg s.up.nodes s.up.rootEntry [true, false] (leaf 0x79#8) ∧ (leaf 0x79#8).kind = .leaf ∧
    s.up.cursor.toNat + [true, false].length ≤ s.up.nbits.toNat ∧
    (∀ j (h : j < [true, false].length), streamBit s.up.buf (s.up.cursor.toNat + j) = [true, false][j]) :=
  ⟨⟨loaded_inv.cfg, loaded_inv.pk, { loaded_inv.up with cursor := by decide }⟩, by decide, by decide, by decide,
    .child (by decide) (by decide) (.child (by decide) (by decide) (.here _)), by decide, by decide, by decide⟩

/-- V-U3. -/
theorem witness_UpDecodeReportsATruncatedStream :
    let s := loaded treeT3 [(0, 0x80#8)] 1
    s.Inv ∧ s.up.err = .ok ∧ s.up.rootValid = true ∧ s.up.cursor ≠ s.up.nbits ∧
    Path s.cfg s.up.nodes s.up.rootEntry [true] (fork 3#16 4#16) ∧ (fork 3#16 4#16).kind = .internal ∧
    s.up.cursor.toNat + [true].length = s.up.nbits.toNat ∧
    (∀ j (h : j < [true].length), streamBit s.up.buf (s.up.cursor.toNat + j) = [true][j]) :=
  ⟨truncated_inv, by decide, by decide, by decide, .child (by decide) (by decide) (.here _), by decide, by decide,
    by decide⟩

/-- V-U10: the child 600 of a table of 511. -/
theorem witness_UpDecodeReportsABadChild :
    let s := loaded badTree [(0, 0x40#8)] 2
    s.Inv ∧ s.up.err = .ok ∧ s.up.rootValid = true ∧
    Path s.cfg s.up.nodes s.up.rootEntry [] (fork 600#16 1#16) ∧ (fork 600#16 1#16).kind = .internal ∧
    s.up.cursor.toNat + ([] : List Bool).length < s.up.nbits.toNat ∧
    streamBit s.up.buf (s.up.cursor.toNat + ([] : List Bool).length) = false ∧
    s.cfg.upNodes ≤ (fork 600#16 1#16).child false :=
  ⟨bad_inv, by decide, by decide, .here _, by decide, by decide, by decide, by decide⟩

/-- The other bad child: an EMPTY entry (V-U11). -/
theorem witness_UpDecodeReportsABadChild_empty :
    let nodes := [(0, fork 1#16 2#16), (1, leaf 0x41#8)]
    let s := loaded nodes [(0, 0x80#8)] 1
    streamBit s.up.buf s.up.cursor.toNat = true ∧
    (Memory.read NodeEntry.empty s.up.nodes ((fork 1#16 2#16).child true)).kind = .empty := by decide

theorem witness_UpDecodeTerminatesWithinTheValidBits : (loaded treeT3 [(0, 0x58#8)] 6).Inv := loaded_inv

/-- V-U5: other padding bits. -/
theorem witness_UpDecodeIgnoresBitsPastTheCount :
    let s := loaded treeT3 [(0, 0x3F#8)] 2
    ∃ t, s.up.cursor.toNat ≤ s.up.nbits.toNat ∧
      (∀ p < s.up.nbits.toNat, streamBit [(5, 0xFF#8)] p = streamBit s.up.buf p) ∧ exec .upDecode s = .next t ∧
      t.phase = .offering ⟨.ok, 0x78#64⟩ := ⟨_, by decide, by decide, rfl, rfl⟩

/-- Program 3: x, y with tree T3. -/
theorem witness_RoundTrip :
    let s := loaded treeT3 [(0, 0x58#8)] 6
    ∃ t rs, s.Inv ∧ s.up.rootValid = true ∧
      (∀ x ∈ ([(0x78#8, ⟨1#7, 0#64⟩), (0x79#8, ⟨2#7, 2#64⟩)] : List (Byte × Code)),
        s.up.IsCodeOf s.cfg x.1 x.2.len x.2.pattern) ∧
      execAll (packCommands [⟨1#7, 0#64⟩, ⟨2#7, 2#64⟩]) s = some (t, rs) ∧ (∀ r ∈ rs, r.status = .ok) ∧
      t.pk.nbits.toNat ≤ 8 * t.cfg.upCapBytes := by
  refine ⟨_, _, loaded_inv, rfl, ?_, rfl, by decide, by decide⟩
  intro x hx
  rcases List.mem_cons.1 hx with rfl | hx
  · exact .inr ⟨by decide, leaf 0x78#8, rfl, rfl, .child (by decide) (by decide) (.here _)⟩
  · obtain rfl := List.mem_singleton.1 hx
    exact .inr ⟨by decide, leaf 0x79#8, rfl, rfl, .child (by decide) (by decide) (.child (by decide) (by decide) (.here _))⟩

/-- A lone leaf has a code too. -/
theorem witness_RoundTrip_lone_leaf :
    (loaded treeT1 [] 0).up.IsCodeOf (loaded treeT1 [] 0).cfg 0x71#8 1#7 0#64 := .inl (by decide)

/-! ### Witnesses: assembler text -/

/-- One digit and 64 digits; two byte operands. -/
theorem witness_PseudoInstructionsExpand :
    (let digits := List.replicate 64 '1'
     1 ≤ ['0'].length ∧ 1 ≤ digits.length ∧ digits.length ≤ 64 ∧ ∀ c ∈ digits, c = '0' ∨ c = '1') ∧
    statement "PK.PUTB" [[.word ['0', '0', '1']]] = .ok [.pkPut 3#7 1#64] ∧
    statements (loadExpansion [.word ['9']] [[.word ['8', '8']], [.word ['0', 'X', '8', '0']]]) =
      .ok [.upWrbyte 0#16 0x58#8, .upWrbyte 1#16 0x80#8, .upSetnbits 9#64] :=
  ⟨⟨by decide, by simp, by simp, by simp⟩, by decide⟩

/-- Words that are no command, a KIND of 3 with other data bits set, and a command. -/
theorem witness_DisassemblyOfSpecWords :
    decode ⟨0x00000018#32, 0#64⟩ = .error .unassignedOp ∧
    (0xFFFFFFFFFFFFFFFF#64 : BitVec 64).extractLsb' 62 2 = 3#2 ∧
    decode ⟨0x00010015#32, 0#64⟩ = .ok (.upSetroot 1#16) := by decide

end Sys2Proof.Tests
end

section
/-! SUPPORT. What a command can do to its unit, as one relation per unit whose cases are the successful writes of
40_packer.md and 41_unpacker.md with their guards, and the proof that `exec` does nothing else. -/

namespace Sys2Proof.Machine

/-- `pk'` is a packer that the command `i` can leave behind of `pk`. -/
inductive Packer.Change (cfg : Config) (pk : Packer) : Instr → Packer → Prop where
  /-- Commands that write nothing, and refusals that latch nothing. -/
  | kept (i : Instr) : Packer.Change cfg pk i pk
  /-- R85. -/
  | reset : Packer.Change cfg pk .pkReset { pk.clearErr with nbits := 0#24, sealed := false }
  /-- R86, R87: an accepted code. -/
  | put {len : BitVec 7} (pattern : BitVec 64) (clean : pk.err = .ok) (unsealed : pk.sealed = false)
      (nonempty : 1 ≤ len.toNat) (short : len.toNat ≤ 64) (fits : pk.nbits.toNat + len.toNat ≤ 8 * cfg.pkCapBytes) :
      Packer.Change cfg pk (.pkPut len pattern) (Packer.appendBits (codeBits len.toNat pattern) pk)
  /-- R86: a rejected code. -/
  | latch (len : BitVec 7) (pattern : BitVec 64) {st : Status} (clean : pk.err = .ok) (unsealed : pk.sealed = false)
      (sticky : st.stickyPk = true) : Packer.Change cfg pk (.pkPut len pattern) (pk.latch st)
  /-- R89. -/
  | finish (clean : pk.err = .ok) : Packer.Change cfg pk .pkFinish pk.seal

/-- `up'` is an unpacker that the command `i` can leave behind of `up`. -/
inductive Unpacker.Change (cfg : Config) (up : Unpacker) : Instr → Unpacker → Prop where
  /-- Commands that write nothing, and refusals. -/
  | kept (i : Instr) : Unpacker.Change cfg up i up
  /-- R100. -/
  | reset : Unpacker.Change cfg up .upReset Unpacker.reset
  /-- R101. -/
  | rewind : Unpacker.Change cfg up .upRewind { up.clearErr with cursor := 0#24 }
  /-- R102. -/
  | wrbyte {idx : Index} (byte : Byte) (inside : idx.toNat < cfg.upCapBytes) :
      Unpacker.Change cfg up (.upWrbyte idx byte) { up with buf := memWrite up.buf idx.toNat byte }
  /-- R103. -/
  | setnbits {n : BitVec 64} (fits : n.toNat ≤ 8 * cfg.upCapBytes) :
      Unpacker.Change cfg up (.upSetnbits n) { up.clearErr with nbits := n.setWidth 24, cursor := 0#24 }
  /-- R104. -/
  | setnode {idx : Index} {kind : BitVec 2} {sym : Byte} {left right : Index} {e : NodeEntry}
      (inside : idx.toNat < cfg.upNodes) (entry : nodeOperand kind sym left right = some e) :
      Unpacker.Change cfg up (.upSetnode idx kind sym left right) { up with nodes := nodeWrite up.nodes idx.toNat e }
  /-- R105. -/
  | setroot {idx : Index} (inside : idx.toNat < cfg.upNodes) :
      Unpacker.Change cfg up (.upSetroot idx) { up with root := idx, rootValid := true }
  /-- R106; `Unpacker.cmdDecode_result` says more where the invariant holds. -/
  | decode {up' : Unpacker} {r : Response} (answer : up.cmdDecode cfg = .ok (up', r)) :
      Unpacker.Change cfg up .upDecode up'

/-! ### Inversion of an effect -/

/-- A response leaves the unit it was given. -/
theorem respond_unit {unit : Type} {u u' : unit} {st : Status} {data : BitVec 64} {r : Response}
    (h : respond u st data = .ok (u', r)) : u' = u := by
  simp only [respond, Except.ok.injEq, Prod.mk.injEq] at h
  exact h.1.symm

/-- The packer after a packer command is that of the command's effect. -/
theorem State.afterPk_unit {s t : State} {e : Effect Packer} (h : s.afterPk e = .next t) : ∃ r, e = .ok (t.pk, r) := by
  obtain ⟨pk, r, he, rfl⟩ := State.afterPk_next h
  exact ⟨r, he⟩

/-- The unpacker after an unpacker command is that of the command's effect. -/
theorem State.afterUp_unit {s t : State} {e : Effect Unpacker} (h : s.afterUp e = .next t) :
    ∃ r, e = .ok (t.up, r) := by
  obtain ⟨up, r, he, rfl⟩ := State.afterUp_next h
  exact ⟨r, he⟩

/-! ### The packer's commands -/

section
variable {cfg : Config} {pk pk' : Packer} {r : Response}

theorem Packer.cmdReset_change (h : pk.cmdReset = .ok (pk', r)) : Packer.Change cfg pk .pkReset pk' := by
  obtain rfl := respond_unit h
  exact .reset

theorem Packer.cmdPut_change {len : BitVec 7} {pattern : BitVec 64} (h : pk.cmdPut cfg len pattern = .ok (pk', r)) :
    Packer.Change cfg pk (.pkPut len pattern) pk' := by
  rcases Packer.cmdPut_cases cfg len pattern pk with
    ⟨he, hs, h1, h2, h3, heq⟩ | ⟨-, heq⟩ | ⟨-, -, heq⟩ | ⟨he, hs, st, hst, heq⟩ <;> cases heq.symm.trans h
  · exact .put pattern he hs h1 h2 h3
  · exact .kept _
  · exact .kept _
  · exact .latch len pattern he hs hst

theorem Packer.cmdFinish_change (h : pk.cmdFinish = .ok (pk', r)) : Packer.Change cfg pk .pkFinish pk' := by
  unfold Packer.cmdFinish at h
  split_ifs at h with he <;> obtain rfl := respond_unit h
  · exact .kept _
  · exact .finish (not_not.1 he)

theorem Packer.cmdRdbyte_change {idx : Index} (h : pk.cmdRdbyte cfg idx = .ok (pk', r)) :
    Packer.Change cfg pk (.pkRdbyte idx) pk' := by
  have hkept : pk' = pk := by
    unfold Packer.cmdRdbyte at h
    split_ifs at h
    · exact respond_unit h
    · split at h
      · exact respond_unit h
      · cases h
  exact hkept ▸ .kept _

theorem Packer.cmdStat_change (h : pk.cmdStat = .ok (pk', r)) : Packer.Change cfg pk .pkStat pk' := by
  obtain rfl := respond_unit h
  exact .kept _

end

/-- Everything a command can do to the packer. -/
theorem exec_pk_change {i : Instr} {s t : State} (h : exec i s = .next t) : Packer.Change s.cfg s.pk i t.pk := by
  cases i with
  | pkReset => exact (State.afterPk_unit (e := s.pk.cmdReset) h).elim fun _ => Packer.cmdReset_change
  | pkPut len pattern =>
    exact (State.afterPk_unit (e := s.pk.cmdPut s.cfg len pattern) h).elim fun _ => Packer.cmdPut_change
  | pkFinish => exact (State.afterPk_unit (e := s.pk.cmdFinish) h).elim fun _ => Packer.cmdFinish_change
  | pkRdbyte idx => exact (State.afterPk_unit (e := s.pk.cmdRdbyte s.cfg idx) h).elim fun _ => Packer.cmdRdbyte_change
  | pkStat => exact (State.afterPk_unit (e := s.pk.cmdStat) h).elim fun _ => Packer.cmdStat_change
  | _ =>
    obtain ⟨pk, up, r, rfl, hpk, -⟩ := exec_next h
    obtain rfl := hpk rfl
    exact .kept _

/-! ### The unpacker's commands -/

section
variable {cfg : Config} {up up' : Unpacker} {r : Response}

theorem Unpacker.cmdReset_change (h : up.cmdReset = .ok (up', r)) : Unpacker.Change cfg up .upReset up' := by
  obtain rfl := respond_unit h
  exact .reset

theorem Unpacker.cmdRewind_change (h : up.cmdRewind = .ok (up', r)) : Unpacker.Change cfg up .upRewind up' := by
  obtain rfl := respond_unit h
  exact .rewind

theorem Unpacker.cmdWrbyte_change {idx : Index} {byte : Byte} (h : up.cmdWrbyte cfg idx byte = .ok (up', r)) :
    Unpacker.Change cfg up (.upWrbyte idx byte) up' := by
  unfold Unpacker.cmdWrbyte at h
  split_ifs at h with hidx <;> obtain rfl := respond_unit h
  · exact .kept _
  · exact .wrbyte byte (not_le.1 hidx)

theorem Unpacker.cmdSetnbits_change {n : BitVec 64} (h : up.cmdSetnbits cfg n = .ok (up', r)) :
    Unpacker.Change cfg up (.upSetnbits n) up' := by
  unfold Unpacker.cmdSetnbits at h
  split_ifs at h with hn <;> obtain rfl := respond_unit h
  · exact .kept _
  · exact .setnbits (not_lt.1 hn)

theorem Unpacker.cmdSetnode_change {idx : Index} {kind : BitVec 2} {sym : Byte} {left right : Index}
    (h : up.cmdSetnode cfg idx kind sym left right = .ok (up', r)) :
    Unpacker.Change cfg up (.upSetnode idx kind sym left right) up' := by
  unfold Unpacker.cmdSetnode at h
  split_ifs at h with hidx
  · obtain rfl := respond_unit h
    exact .kept _
  · split at h <;> obtain rfl := respond_unit h
    · exact .kept _
    · next e he => exact .setnode (not_le.1 hidx) he

theorem Unpacker.cmdSetroot_change {idx : Index} (h : up.cmdSetroot cfg idx = .ok (up', r)) :
    Unpacker.Change cfg up (.upSetroot idx) up' := by
  unfold Unpacker.cmdSetroot at h
  split_ifs at h with hidx <;> obtain rfl := respond_unit h
  · exact .kept _
  · exact .setroot (not_le.1 hidx)

theorem Unpacker.cmdStat_change (h : up.cmdStat = .ok (up', r)) : Unpacker.Change cfg up .upStat up' := by
  obtain rfl := respond_unit h
  exact .kept _

end

/-- Everything a command can do to the unpacker. -/
theorem exec_up_change {i : Instr} {s t : State} (h : exec i s = .next t) : Unpacker.Change s.cfg s.up i t.up := by
  cases i with
  | upReset => exact (State.afterUp_unit (e := s.up.cmdReset) h).elim fun _ => Unpacker.cmdReset_change
  | upRewind => exact (State.afterUp_unit (e := s.up.cmdRewind) h).elim fun _ => Unpacker.cmdRewind_change
  | upWrbyte idx byte =>
    exact (State.afterUp_unit (e := s.up.cmdWrbyte s.cfg idx byte) h).elim fun _ => Unpacker.cmdWrbyte_change
  | upSetnbits n =>
    exact (State.afterUp_unit (e := s.up.cmdSetnbits s.cfg n) h).elim fun _ => Unpacker.cmdSetnbits_change
  | upSetnode idx kind sym left right =>
    exact (State.afterUp_unit (e := s.up.cmdSetnode s.cfg idx kind sym left right) h).elim fun _ =>
      Unpacker.cmdSetnode_change
  | upSetroot idx =>
    exact (State.afterUp_unit (e := s.up.cmdSetroot s.cfg idx) h).elim fun _ => Unpacker.cmdSetroot_change
  | upDecode => exact (State.afterUp_unit (e := s.up.cmdDecode s.cfg) h).elim fun _ => .decode
  | upStat => exact (State.afterUp_unit (e := s.up.cmdStat) h).elim fun _ => Unpacker.cmdStat_change
  | _ =>
    obtain ⟨pk, up, r, rfl, -, hup⟩ := exec_next h
    obtain rfl := hup rfl
    exact .kept _

end Sys2Proof.Machine
end

section
/-! SUPPORT. The counters (00_scope.md R7): what a command does to PK.NBITS, UP.NBITS and UP.CURSOR as numbers. -/

namespace Sys2Proof.Machine

/-- R7's inequality, for either buffer, with `n` its bytes. -/
theorem bitCount_le {n : Nat} (h : n ≤ Config.maxEntries) : 8 * n ≤ 524288 := by
  unfold Config.maxEntries at h; omega

/-- A counter register holds every count below 2^24. -/
theorem count_toNat_ofNat {n : Nat} (h : n < 2 ^ 24) : (BitVec.ofNat _ n : Count).toNat = n := by
  rw [BitVec.toNat_ofNat, Nat.mod_eq_of_lt h]

@[simp] theorem Unpacker.after_nbits (up : Unpacker) (st : Status) : (up.after st).nbits = up.nbits := by
  unfold Unpacker.after; split_ifs <;> rfl

@[simp] theorem Unpacker.after_cursor (up : Unpacker) (st : Status) : (up.after st).cursor = up.cursor := by
  unfold Unpacker.after; split_ifs <;> rfl

section
variable {cfg : Config} {i : Instr}

/-- PK.PUT adds exactly LEN: the bits fit the buffer, so the addition of the loop does not wrap. -/
theorem Packer.Change.nbits {pk pk' : Packer} (h : Packer.Change cfg pk i pk') (hv : cfg.Valid) (hi : pk.Inv cfg) :
    pk'.nbits.toNat = pk.nbits.toNat ∨ (i = .pkReset ∧ pk'.nbits.toNat = 0) ∨
      ∃ len pattern, i = .pkPut len pattern ∧ pk'.nbits.toNat = pk.nbits.toNat + len.toNat := by
  cases h with
  | reset => exact .inr (.inl ⟨rfl, rfl⟩)
  | @put len pattern _ _ _ _ fits =>
    have happ := Packer.appendBits_spec (codeBits len.toNat pattern) pk hi.canonical
      (by rw [codeBits_length]; exact pkCount_lt hv fits)
    exact .inr (.inr ⟨len, pattern, rfl, by rw [happ.count, codeBits_length]⟩)
  | kept | latch | finish => exact .inl rfl

/-- What UP.DECODE does to the counters: UP.NBITS stays and UP.CURSOR does not pass it, so it does not wrap. -/
theorem Unpacker.cmdDecode_counters {up up' : Unpacker} {r : Response} (hv : cfg.Valid) (hi : up.Inv cfg)
    (h : up.cmdDecode cfg = .ok (up', r)) : up'.nbits = up.nbits ∧ up.cursor.toNat ≤ up'.cursor.toNat := by
  obtain ⟨j, st, data, heq, hj, -⟩ := Unpacker.cmdDecode_result hv hi
  cases heq.symm.trans h
  have hcur := Unpacker.advanceBy_cursor up (upCount_lt hv (hj.trans hi.count))
  exact ⟨by simp, by rw [Unpacker.after_cursor, hcur]; omega⟩

/-- UP.SETNBITS leaves exactly N: the checked value fits the 24 bits it is cut to. -/
theorem Unpacker.Change.nbits {up up' : Unpacker} (h : Unpacker.Change cfg up i up') (hv : cfg.Valid)
    (hi : up.Inv cfg) :
    up'.nbits.toNat = up.nbits.toNat ∨ (i = .upReset ∧ up'.nbits.toNat = 0) ∨
      ∃ n, i = .upSetnbits n ∧ up'.nbits.toNat = n.toNat := by
  cases h with
  | reset => exact .inr (.inl ⟨rfl, rfl⟩)
  | @setnbits n fits =>
    exact .inr (.inr ⟨n, rfl, by rw [BitVec.toNat_setWidth, Nat.mod_eq_of_lt (upCount_lt hv fits)]⟩)
  | decode answer => exact .inl (by rw [(Unpacker.cmdDecode_counters hv hi answer).1])
  | kept | rewind | wrbyte | setnode | setroot => exact .inl rfl

/-- UP.CURSOR moves back only to 0, and only by the commands that put the stream at its start. -/
theorem Unpacker.Change.cursor {up up' : Unpacker} (h : Unpacker.Change cfg up i up') (hv : cfg.Valid)
    (hi : up.Inv cfg) :
    up.cursor.toNat ≤ up'.cursor.toNat ∨
      ((i = .upReset ∨ i = .upRewind ∨ ∃ n, i = .upSetnbits n) ∧ up'.cursor.toNat = 0) := by
  cases h with
  | reset => exact .inr ⟨.inl rfl, rfl⟩
  | rewind => exact .inr ⟨.inr (.inl rfl), rfl⟩
  | setnbits => exact .inr ⟨.inr (.inr ⟨_, rfl⟩), rfl⟩
  | decode answer => exact .inl (Unpacker.cmdDecode_counters hv hi answer).2
  | kept | wrbyte | setnode | setroot => exact .inl le_rfl

end

/-- Settles O16: the counts of a legal build lie below 2^24, and the invariant keeps the counters among them. -/
theorem countersCannotWrap : Obligations.CountersCannotWrap := by
  unfold Obligations.CountersCannotWrap
  refine ⟨fun cfg hv => ?_, fun i s t hs h => ?_⟩
  · have ⟨⟨_, hpk⟩, ⟨_, hup⟩, _⟩ := hv
    refine ⟨bitCount_le hpk, bitCount_le hup, pkCount_lt hv le_rfl, upCount_lt hv le_rfl, ?_⟩
    rintro n (hn | hn)
    · exact count_toNat_ofNat (pkCount_lt hv hn)
    · exact count_toNat_ofNat (upCount_lt hv hn)
  · exact ⟨(exec_pk_change h).nbits hs.cfg hs.pk, (exec_up_change h).nbits hs.cfg hs.up,
      (exec_up_change h).cursor hs.cfg hs.up⟩

end Sys2Proof.Machine
end

section
/-! SUPPORT. The invariants of the two units (10_state.md R29, R37): every change a command can make keeps them, so every
transaction and every step does. -/

namespace Sys2Proof.Machine

section
variable {cfg : Config} {i : Instr}

/-- No change of the packer breaks R29. -/
theorem Packer.Change.inv {pk pk' : Packer} (h : Packer.Change cfg pk i pk') (hv : cfg.Valid) (hi : pk.Inv cfg) :
    pk'.Inv cfg := by
  cases h with
  | kept => exact hi
  | reset => exact Packer.cmdReset_inv hi
  | put pattern _ _ _ _ fits => exact Packer.appendBits_inv hv hi _ (by rwa [codeBits_length])
  | latch _ _ _ unsealed sticky => exact Packer.latch_inv hi unsealed sticky
  | finish clean => exact Packer.seal_inv hi clean

/-- A cleared error and a cursor at 0 under a count that fits: UP.REWIND's unpacker and UP.SETNBITS's. -/
theorem Unpacker.restart_inv {up : Unpacker} (hi : up.Inv cfg) {n : Count} (hn : n.toNat ≤ 8 * cfg.upCapBytes) :
    ({ up.clearErr with nbits := n, cursor := 0#24 } : Unpacker).Inv cfg :=
  { hi with cursor := Nat.zero_le _, count := hn, legalErr := rfl }

/-- What UP.DECODE leaves keeps R37: the cursor stays among the valid bits. -/
theorem Unpacker.cmdDecode_inv {up up' : Unpacker} {r : Response} (hv : cfg.Valid) (hi : up.Inv cfg)
    (h : up.cmdDecode cfg = .ok (up', r)) : up'.Inv cfg := by
  obtain ⟨j, st, data, heq, hj, -⟩ := Unpacker.cmdDecode_result hv hi
  cases heq.symm.trans h
  exact Unpacker.advance_after_inv hv hi hj st

/-- No change of the unpacker breaks R37. -/
theorem Unpacker.Change.inv {up up' : Unpacker} (h : Unpacker.Change cfg up i up') (hv : cfg.Valid)
    (hi : up.Inv cfg) : up'.Inv cfg := by
  cases h with
  | kept => exact hi
  | reset => exact Unpacker.reset_inv cfg
  | rewind => exact Unpacker.restart_inv hi hi.count
  | wrbyte byte inside => exact Unpacker.write_inv hi inside byte
  | @setnbits n fits =>
    exact Unpacker.restart_inv hi (by rwa [BitVec.toNat_setWidth, Nat.mod_eq_of_lt (upCount_lt hv fits)])
  | setnode inside entry => exact Unpacker.writeNode_inv hi inside (nodeOperand_canonical entry)
  | setroot inside => exact { hi with rootInside := fun _ => inside }
  | decode answer => exact Unpacker.cmdDecode_inv hv hi answer

end

/-- The invariant speaks of the parameters and the two units alone. -/
theorem State.Inv.congr {s t : State} (hs : s.Inv) (hc : t.cfg = s.cfg) (hp : t.pk = s.pk) (hu : t.up = s.up) :
    t.Inv where
  cfg := hc ▸ hs.cfg
  pk := by rw [hc, hp]; exact hs.pk
  up := by rw [hc, hu]; exact hs.up

/-- A command leaves the parameters as they are. -/
theorem exec_cfg {i : Instr} {s t : State} (h : exec i s = .next t) : t.cfg = s.cfg := by
  obtain ⟨pk, up, r, rfl, -, -⟩ := exec_next h
  rfl

/-- Every command keeps the invariant. -/
theorem exec_inv {i : Instr} {s t : State} (hs : s.Inv) (h : exec i s = .next t) : t.Inv where
  cfg := exec_cfg h ▸ hs.cfg
  pk := by rw [exec_cfg h]; exact (exec_pk_change h).inv hs.cfg hs.pk
  up := by rw [exec_cfg h]; exact (exec_up_change h).inv hs.cfg hs.up

/-- Every transaction keeps the invariant, illegal words among them. -/
theorem runCommand_inv {c : Command} {s t : State} (hs : s.Inv) (h : runCommand c s = .next t) : t.Inv := by
  unfold runCommand at h
  split at h
  · exact exec_inv hs h
  · cases h
    exact hs.congr rfl rfl rfl

/-- The reset pin establishes the invariant in a legal build. -/
theorem State.resetEdge_inv {s : State} (hv : s.cfg.Valid) (e : Edge) : (s.resetEdge e).Inv :=
  ⟨hv, Packer.reset_inv _, Unpacker.reset_inv _⟩

/-- Settles O18: the reset pin establishes the invariant, a transaction keeps it, and at every other edge no register of
a unit changes. -/
theorem stepKeepsTheInvariant : Obligations.StepKeepsTheInvariant := by
  unfold Obligations.StepKeepsTheInvariant
  intro s t hs h
  have hpass : (s.pass s.edge).Inv := hs.congr rfl rfl rfl
  rcases step_cases h with ⟨-, rfl⟩ | ⟨-, -, ⟨-, c, -, rfl⟩ | ⟨-, -, rfl⟩ | ⟨c, -, -, rfl⟩ | ⟨c, -, -, hrun⟩ |
    ⟨r, -, -, rfl⟩ | ⟨r, -, -, rfl⟩⟩
  · exact State.resetEdge_inv hs.cfg _
  · exact hs.congr rfl rfl rfl
  · exact hpass
  · exact hpass
  · exact runCommand_inv hpass hrun
  · exact hs.congr rfl rfl rfl
  · exact hpass

end Sys2Proof.Machine
end

section
/-! SUPPORT. Noninterference of the two units (10_state.md R20): a command reads and writes one unit at most. -/

namespace Sys2Proof.Machine

/-- A command that is not the unpacker's neither writes the unpacker nor reads it: whatever stands there is carried
over. -/
theorem exec_withUp {i : Instr} {s t : State} (hi : i.usesUnpacker = false) (h : exec i s = .next t) (up : Unpacker) :
    exec i { s with up := up } = .next { t with up := up } := by
  cases hp : i.usesPacker with
  | true =>
    obtain ⟨f, hf⟩ := exec_packer hp
    rw [hf] at h ⊢
    obtain ⟨pk, r, he, rfl⟩ := State.afterPk_next h
    rw [he, State.afterPk_ok]
  | false =>
    obtain rfl := Instr.eq_nop hp hi
    cases h
    rfl

/-- A command that is not the packer's neither writes the packer nor reads it: whatever stands there is carried over. -/
theorem exec_withPk {i : Instr} {s t : State} (hi : i.usesPacker = false) (h : exec i s = .next t) (pk : Packer) :
    exec i { s with pk := pk } = .next { t with pk := pk } := by
  cases hu : i.usesUnpacker with
  | true =>
    obtain ⟨f, hf⟩ := exec_unpacker hu
    rw [hf] at h ⊢
    obtain ⟨up, r, he, rfl⟩ := State.afterUp_next h
    rw [he, State.afterUp_ok]
  | false =>
    obtain rfl := Instr.eq_nop hi hu
    cases h
    rfl

/-- Settles O21: a command is a function of the parameters and its own unit, and changes no other. -/
theorem unitsShareNothing : Obligations.UnitsShareNothing := by
  unfold Obligations.UnitsShareNothing
  intro i s t h
  obtain ⟨pk, up, r, ht, hpk, hup⟩ := exec_next h
  exact ⟨fun hi => ⟨by rw [ht]; exact hup hi, exec_withUp hi h⟩,
    fun hi => ⟨by rw [ht]; exact hpk hi, exec_withPk hi h⟩⟩

end Sys2Proof.Machine
end

section
/-! SUPPORT. Every command completes (30_encoding.md R67): under the invariant no access of a command leaves its index
space, so every effect is a unit with an answer, never a fault. -/

namespace Sys2Proof.Machine

/-- The effect is a unit and a response: no fault. -/
def Effect.Completes {unit : Type} (e : Effect unit) : Prop := ∃ u r, e = .ok (u, r)

/-- An answer completes. -/
theorem respond_completes {unit : Type} (u : unit) (st : Status) (data : BitVec 64) :
    Effect.Completes (respond u st data) := ⟨u, ⟨st, data⟩, rfl⟩

/-- A packer command whose effect completes answers a next state. -/
theorem State.afterPk_completes (s : State) {e : Effect Packer} (h : Effect.Completes e) :
    ∃ t, s.afterPk e = .next t := by
  obtain ⟨pk, r, rfl⟩ := h
  exact ⟨_, s.afterPk_ok pk r⟩

/-- An unpacker command whose effect completes answers a next state. -/
theorem State.afterUp_completes (s : State) {e : Effect Unpacker} (h : Effect.Completes e) :
    ∃ t, s.afterUp e = .next t := by
  obtain ⟨up, r, rfl⟩ := h
  exact ⟨_, s.afterUp_ok up r⟩

/-! ### The commands that have checks -/

section
variable {cfg : Config}

theorem Packer.cmdPut_completes (pk : Packer) (len : BitVec 7) (pattern : BitVec 64) :
    Effect.Completes (pk.cmdPut cfg len pattern) := by
  rcases Packer.cmdPut_cases cfg len pattern pk with
    ⟨-, -, -, -, -, h⟩ | ⟨-, h⟩ | ⟨-, -, h⟩ | ⟨-, -, _, -, h⟩ <;> exact ⟨_, _, h⟩

theorem Packer.cmdFinish_completes (pk : Packer) : Effect.Completes pk.cmdFinish := by
  unfold Packer.cmdFinish
  split_ifs <;> exact respond_completes _ _ _

/-- PK.RDBYTE reads a byte of the stream only, and the stream lies in PK.BUF (10_state.md R29(a)). -/
theorem Packer.cmdRdbyte_completes {pk : Packer} (hi : pk.Inv cfg) (idx : Index) :
    Effect.Completes (pk.cmdRdbyte cfg idx) := by
  unfold Packer.cmdRdbyte
  split_ifs with hidx
  · exact respond_completes _ _ _
  · have hstream : pk.nbytes ≤ cfg.pkCapBytes := ceil8_le hi.count
    rw [memRead_inside _ (by omega)]
    exact respond_completes _ _ _

theorem Unpacker.cmdWrbyte_completes (up : Unpacker) (idx : Index) (byte : Byte) :
    Effect.Completes (up.cmdWrbyte cfg idx byte) := by
  unfold Unpacker.cmdWrbyte
  split_ifs <;> exact respond_completes _ _ _

theorem Unpacker.cmdSetnbits_completes (up : Unpacker) (n : BitVec 64) :
    Effect.Completes (up.cmdSetnbits cfg n) := by
  unfold Unpacker.cmdSetnbits
  split_ifs <;> exact respond_completes _ _ _

theorem Unpacker.cmdSetnode_completes (up : Unpacker) (idx : Index) (kind : BitVec 2) (sym : Byte)
    (left right : Index) : Effect.Completes (up.cmdSetnode cfg idx kind sym left right) := by
  unfold Unpacker.cmdSetnode
  split_ifs
  · exact respond_completes _ _ _
  · split <;> exact respond_completes _ _ _

theorem Unpacker.cmdSetroot_completes (up : Unpacker) (idx : Index) : Effect.Completes (up.cmdSetroot cfg idx) := by
  unfold Unpacker.cmdSetroot
  split_ifs <;> exact respond_completes _ _ _

/-- UP.DECODE reads valid bits and entries inside the table only (10_state.md R37). -/
theorem Unpacker.cmdDecode_completes {up : Unpacker} (hv : cfg.Valid) (hi : up.Inv cfg) :
    Effect.Completes (up.cmdDecode cfg) := by
  obtain ⟨j, st, data, h, -⟩ := Unpacker.cmdDecode_result hv hi
  exact ⟨_, _, h⟩

end

/-- Every command answers a next state: PK.RDBYTE and UP.DECODE alone need the invariant. -/
theorem exec_completes (i : Instr) {s : State} (hs : s.Inv) : ∃ t, exec i s = .next t := by
  cases i with
  | nop => exact ⟨_, rfl⟩
  | pkReset => exact s.afterPk_completes (respond_completes _ _ _)
  | pkPut len pattern => exact s.afterPk_completes (s.pk.cmdPut_completes len pattern)
  | pkFinish => exact s.afterPk_completes s.pk.cmdFinish_completes
  | pkRdbyte idx => exact s.afterPk_completes (Packer.cmdRdbyte_completes hs.pk idx)
  | pkStat => exact s.afterPk_completes (respond_completes _ _ _)
  | upReset => exact s.afterUp_completes (respond_completes _ _ _)
  | upRewind => exact s.afterUp_completes (respond_completes _ _ _)
  | upWrbyte idx byte => exact s.afterUp_completes (s.up.cmdWrbyte_completes idx byte)
  | upSetnbits n => exact s.afterUp_completes (s.up.cmdSetnbits_completes n)
  | upSetnode idx kind sym left right =>
    exact s.afterUp_completes (s.up.cmdSetnode_completes idx kind sym left right)
  | upSetroot idx => exact s.afterUp_completes (s.up.cmdSetroot_completes idx)
  | upDecode => exact s.afterUp_completes (Unpacker.cmdDecode_completes hs.cfg hs.up)
  | upStat => exact s.afterUp_completes (respond_completes _ _ _)

/-- Every transaction answers a next state, illegal words among them. -/
theorem runCommand_completes (c : Command) {s : State} (hs : s.Inv) : ∃ t, runCommand c s = .next t := by
  unfold runCommand
  split
  · exact exec_completes _ hs
  · exact ⟨_, rfl⟩

/-- Settles O19: under the invariant every transaction completes, and one that completes offers a response and keeps the
invariant. -/
theorem everyCommandIsAnswered : Obligations.EveryCommandIsAnswered := by
  unfold Obligations.EveryCommandIsAnswered
  intro c s hs
  obtain ⟨t, ht⟩ := runCommand_completes c hs
  obtain ⟨pk, up, r, hphase⟩ := runCommand_next ht
  exact ⟨t, r, ht, by rw [hphase], runCommand_inv hs ht⟩

end Sys2Proof.Machine
end

section
/-! SUPPORT. The decoder and the opcode table (30_encoding.md R73): a word is its four fields, so a row's mask and match
select by fields; OP chooses one row at most, and the decoder accepts what that row selects. -/

namespace Sys2Proof

/-! ### A command word by its fields -/

/-- Two words with the same fields are the same (R68). -/
theorem word_ext {w w' : BitVec 32} (hop : opField w = opField w') (hlen : lenField w = lenField w')
    (hrsv : rsvField w = rsvField w') (hidx : idxField w = idxField w') : w = w' := by
  refine BitVec.eq_of_getLsbD_eq fun j hj => ?_
  rcases (by omega : j < 8 ∨ (8 ≤ j ∧ j < 15) ∨ j = 15 ∨ 16 ≤ j) with h | ⟨h, h'⟩ | rfl | h
  · simpa [opField, h] using congrArg (·.getLsbD j) hop
  · simpa [lenField, show j - 8 < 7 by omega, show 8 + (j - 8) = j by omega] using congrArg (·.getLsbD (j - 8)) hlen
  · exact hrsv
  · simpa [idxField, show j - 16 < 16 by omega, show 16 + (j - 16) = j by omega] using
      congrArg (·.getLsbD (j - 16)) hidx

@[simp] theorem opField_and (w m : BitVec 32) : opField (w &&& m) = opField w &&& opField m := BitVec.extractLsb'_and

@[simp] theorem lenField_and (w m : BitVec 32) : lenField (w &&& m) = lenField w &&& lenField m :=
  BitVec.extractLsb'_and

@[simp] theorem rsvField_and (w m : BitVec 32) : rsvField (w &&& m) = (rsvField w && rsvField m) := BitVec.getLsbD_and

@[simp] theorem idxField_and (w m : BitVec 32) : idxField (w &&& m) = idxField w &&& idxField m :=
  BitVec.extractLsb'_and

theorem OpcodeRow.selectedBy_eq_true {row : OpcodeRow} {w : BitVec 32} :
    row.selectedBy w = true ↔ w &&& row.mask = row.value := beq_iff_eq

/-- A row selects field by field. -/
theorem OpcodeRow.selectedBy_iff (row : OpcodeRow) (w : BitVec 32) : row.selectedBy w = true ↔
    opField w &&& opField row.mask = opField row.value ∧ lenField w &&& lenField row.mask = lenField row.value ∧
    (rsvField w && rsvField row.mask) = rsvField row.value ∧
    idxField w &&& idxField row.mask = idxField row.value := by
  simp only [OpcodeRow.selectedBy_eq_true, ← opField_and, ← lenField_and, ← rsvField_and, ← idxField_and]
  exact ⟨fun h => by simp only [h, and_self], fun ⟨hop, hlen, hrsv, hidx⟩ => word_ext hop hlen hrsv hidx⟩

/-! ### The rows of the table -/

/-- The mnemonic names the row. -/
theorem opcodeTable_mnemonic_nodup : (opcodeTable.map OpcodeRow.mnemonic).Nodup := by decide

/-- The assigned values of OP (R72). -/
theorem opcodeTable_ops : opcodeTable.map (fun row => opField row.value) =
    [0x00#8, 0x01#8, 0x02#8, 0x03#8, 0x04#8, 0x05#8,
     0x10#8, 0x11#8, 0x12#8, 0x13#8, 0x14#8, 0x15#8, 0x16#8, 0x17#8] := by decide

/-- OP names the row. -/
theorem opcodeTable_op_nodup : (opcodeTable.map fun row => opField row.value).Nodup := by
  rw [opcodeTable_ops]
  decide

/-- Every row's mask covers OP. -/
theorem opcodeTable_mask_op : ∀ row ∈ opcodeTable, opField row.mask = 0xFF#8 := by decide

/-- A row selects words of its own OP only. -/
theorem OpcodeRow.op_of_selectedBy {row : OpcodeRow} (hrow : row ∈ opcodeTable) {w : BitVec 32}
    (h : row.selectedBy w = true) : opField row.value = opField w := by
  have hop := ((row.selectedBy_iff w).1 h).1
  rw [opcodeTable_mask_op row hrow] at hop
  exact hop.symm.trans BitVec.and_allOnes

/-! ### The row that OP chooses -/

/-- The row answers for the words: it selects them and they decode to its command, or it does not and they are
rejected. -/
def OpcodeRow.Decides (row : OpcodeRow) (c : Command) : Prop :=
  (row.selectedBy c.word = true ∧ ∃ i, decode c = .ok i ∧ i.mnemonic = row.mnemonic) ∨
  (¬ row.selectedBy c.word = true ∧ ∃ why, decode c = .error why)

section
variable {c : Command} {i : Instr} {op : BitVec 8}

/-- What the rows have in common: OP must be theirs, RSV 0, and a field that the mask covers 0. -/
theorem OpcodeRow.selectedBy_commandWord_iff {name : String} {mask w : BitVec 32}
    (hop : opField mask = BitVec.allOnes 8) (hrsv : rsvField mask = true) :
    (OpcodeRow.mk name (commandWord op 0#7 0#16) mask).selectedBy w = true ↔
      opField w = op ∧ lenField w &&& lenField mask = 0#7 ∧ rsvField w = false ∧
      idxField w &&& idxField mask = 0#16 := by
  simp only [OpcodeRow.selectedBy_iff, hop, hrsv, BitVec.and_allOnes, Bool.and_true, opField_commandWord,
    lenField_commandWord, rsvField_commandWord, idxField_commandWord]

/-- A command with neither LEN nor IDX: the row's mask covers both. -/
theorem plainForm_decides (hop : opField c.word = op) (hd : decode c = plainForm c.word i) :
    (OpcodeRow.mk i.mnemonic (commandWord op 0#7 0#16) 0xFFFFFFFF#32).Decides c := by
  unfold OpcodeRow.Decides
  rw [OpcodeRow.selectedBy_commandWord_iff (by decide) (by decide), hd,
    show lenField 0xFFFFFFFF#32 = BitVec.allOnes 7 by decide, show idxField 0xFFFFFFFF#32 = BitVec.allOnes 16 by decide,
    BitVec.and_allOnes, BitVec.and_allOnes]
  unfold plainForm
  split_ifs <;> simp_all

/-- The command with LEN: the row's mask leaves LEN out. -/
theorem lenForm_decides (hop : opField c.word = op) (hd : decode c = lenForm c.word i) :
    (OpcodeRow.mk i.mnemonic (commandWord op 0#7 0#16) 0xFFFF80FF#32).Decides c := by
  unfold OpcodeRow.Decides
  rw [OpcodeRow.selectedBy_commandWord_iff (by decide) (by decide), hd,
    show lenField 0xFFFF80FF#32 = 0#7 by decide, show idxField 0xFFFF80FF#32 = BitVec.allOnes 16 by decide,
    BitVec.and_allOnes]
  unfold lenForm
  split_ifs <;> simp_all

/-- A command with IDX: the row's mask leaves IDX out. -/
theorem idxForm_decides (hop : opField c.word = op) (hd : decode c = idxForm c.word i) :
    (OpcodeRow.mk i.mnemonic (commandWord op 0#7 0#16) 0x0000FFFF#32).Decides c := by
  unfold OpcodeRow.Decides
  rw [OpcodeRow.selectedBy_commandWord_iff (by decide) (by decide), hd,
    show lenField 0x0000FFFF#32 = BitVec.allOnes 7 by decide, show idxField 0x0000FFFF#32 = 0#16 by decide,
    BitVec.and_allOnes]
  unfold idxForm
  split_ifs <;> simp_all

end

/-- Words that a row answers for decode to its command if it selects them. -/
theorem OpcodeRow.Decides.decodes {row : OpcodeRow} {c : Command} (h : row.Decides c)
    (hsel : row.selectedBy c.word = true) : ∃ i, decode c = .ok i ∧ i.mnemonic = row.mnemonic :=
  h.elim And.right fun hno => absurd hsel hno.1

/-- OP chooses the row that answers for the words; an OP of no row is rejected (R72, R74). -/
theorem decode_row (c : Command) :
    (∃ row ∈ opcodeTable, opField row.value = opField c.word ∧ row.Decides c) ∨
    ((∀ row ∈ opcodeTable, opField row.value ≠ opField c.word) ∧ ∃ why, decode c = .error why) := by
  have hd : decode c = _ := decode.eq_1 c
  split at hd
  case h_1 hop => exact .inl ⟨_, List.mem_of_getElem? (i := 0) rfl, hop.symm, plainForm_decides hop hd⟩
  case h_2 hop => exact .inl ⟨_, List.mem_of_getElem? (i := 1) rfl, hop.symm, plainForm_decides hop hd⟩
  case h_3 hop => exact .inl ⟨_, List.mem_of_getElem? (i := 2) rfl, hop.symm, lenForm_decides hop hd⟩
  case h_4 hop => exact .inl ⟨_, List.mem_of_getElem? (i := 3) rfl, hop.symm, plainForm_decides hop hd⟩
  case h_5 hop => exact .inl ⟨_, List.mem_of_getElem? (i := 4) rfl, hop.symm, idxForm_decides hop hd⟩
  case h_6 hop => exact .inl ⟨_, List.mem_of_getElem? (i := 5) rfl, hop.symm, plainForm_decides hop hd⟩
  case h_7 hop => exact .inl ⟨_, List.mem_of_getElem? (i := 6) rfl, hop.symm, plainForm_decides hop hd⟩
  case h_8 hop => exact .inl ⟨_, List.mem_of_getElem? (i := 7) rfl, hop.symm, plainForm_decides hop hd⟩
  case h_9 hop => exact .inl ⟨_, List.mem_of_getElem? (i := 8) rfl, hop.symm, idxForm_decides hop hd⟩
  case h_10 hop => exact .inl ⟨_, List.mem_of_getElem? (i := 9) rfl, hop.symm, plainForm_decides hop hd⟩
  case h_11 hop => exact .inl ⟨_, List.mem_of_getElem? (i := 10) rfl, hop.symm, idxForm_decides hop hd⟩
  case h_12 hop => exact .inl ⟨_, List.mem_of_getElem? (i := 11) rfl, hop.symm, idxForm_decides hop hd⟩
  case h_13 hop => exact .inl ⟨_, List.mem_of_getElem? (i := 12) rfl, hop.symm, plainForm_decides hop hd⟩
  case h_14 hop => exact .inl ⟨_, List.mem_of_getElem? (i := 13) rfl, hop.symm, plainForm_decides hop hd⟩
  case h_15 =>
    refine .inr ⟨fun row hrow hop => ?_, _, hd⟩
    have hmem := List.mem_map_of_mem (f := fun row => opField row.value) hrow
    rw [opcodeTable_ops, hop] at hmem
    simp_all

/-- Words that decode are those of the row with their mnemonic. -/
theorem decode_ok_selects {c : Command} {i : Instr} (h : decode c = .ok i) :
    ∃ row ∈ opcodeTable, row.selectedBy c.word = true ∧ row.mnemonic = i.mnemonic := by
  rcases decode_row c with ⟨row, hrow, -, ⟨hsel, j, hj, hname⟩ | ⟨-, why, hwhy⟩⟩ | ⟨-, why, hwhy⟩
  · cases hj.symm.trans h
    exact ⟨row, hrow, hsel, hname.symm⟩
  · cases hwhy.symm.trans h
  · cases hwhy.symm.trans h

/-- Settles O4: the row that OP chooses is the only one that can select the words or carry the decoded mnemonic. -/
theorem decoderSelectsTheTableRow : Obligations.DecoderSelectsTheTableRow := by
  unfold Obligations.DecoderSelectsTheTableRow
  refine ⟨fun c row hrow => ?_, fun c hnone => ?_, fun w => ?_⟩
  · rw [← OpcodeRow.selectedBy_eq_true]
    constructor
    · intro hsel
      rcases decode_row c with ⟨row', hrow', hop, hdec⟩ | ⟨hop, -⟩
      · obtain rfl : row' = row := List.inj_on_of_nodup_map opcodeTable_op_nodup hrow' hrow
          (hop.trans (OpcodeRow.op_of_selectedBy hrow hsel).symm)
        exact hdec.decodes hsel
      · exact absurd (OpcodeRow.op_of_selectedBy hrow hsel) (hop row hrow)
    · rintro ⟨i, hi, hname⟩
      obtain ⟨row', hrow', hsel, hname'⟩ := decode_ok_selects hi
      obtain rfl : row' = row := List.inj_on_of_nodup_map opcodeTable_mnemonic_nodup hrow' hrow (hname'.trans hname)
      exact hsel
  · cases hd : decode c with
    | error why => exact ⟨why, rfl⟩
    | ok i =>
      obtain ⟨row, hrow, hsel, -⟩ := decode_ok_selects hd
      exact absurd (OpcodeRow.selectedBy_eq_true.1 hsel) (hnone row hrow)
  · refine (List.pairwise_map.1 opcodeTable_op_nodup).imp_of_mem fun {a b} ha hb hne ⟨hsa, hsb⟩ => hne ?_
    rw [← OpcodeRow.selectedBy_eq_true] at hsa hsb
    exact (OpcodeRow.op_of_selectedBy ha hsa).trans (OpcodeRow.op_of_selectedBy hb hsb).symm

end Sys2Proof
end

section
/-! SUPPORT. Sequences of commands (20_memory.md R56): what a run of `execAll` is, and what it keeps. -/

namespace Sys2Proof.Machine

/-- A sequence answers when its first command answers and the rest does from the state it leaves. -/
theorem execAll_cons_iff {i : Instr} {rest : List Instr} {s u : State} {rs : List Response} :
    execAll (i :: rest) s = some (u, rs) ↔
      ∃ t r rs', exec i s = .next t ∧ t.phase = .offering r ∧ execAll rest t = some (u, rs') ∧ rs = r :: rs' := by
  constructor
  · intro h
    unfold execAll at h
    split at h
    case h_1 t ht =>
      split at h
      case h_1 r hr =>
        split at h
        case h_1 v rs' hrest =>
          cases h
          exact ⟨t, r, rs', ht, hr, hrest, rfl⟩
        case h_2 => cases h
      all_goals cases h
    all_goals cases h
  · rintro ⟨t, r, rs', ht, hr, hrest, rfl⟩
    simp [execAll, ht, hr, hrest]

end Sys2Proof.Machine
end

section
/-! SUPPORT. The packer's control commands (40_packer.md R85, R89 to R91, R93): their words, and their effect on the
state as an equation for each case. -/

namespace Sys2Proof

/-- A word with neither LEN nor IDX has the form of a command with neither. -/
@[simp] theorem plainForm_commandWord (op : BitVec 8) (i : Instr) : plainForm (commandWord op 0#7 0#16) i = .ok i := by
  simp [plainForm]

/-- A word without LEN has the form of a command with IDX. -/
@[simp] theorem idxForm_commandWord (op : BitVec 8) (idx : Index) (i : Instr) :
    idxForm (commandWord op 0#7 idx) i = .ok i := by
  simp [idxForm]

end Sys2Proof

namespace Sys2Proof.Machine

/-- Settles O29: the word is that of OP 0x01 with every other field 0, and the effect is the definition of PK.RESET. -/
theorem pkResetStartsAnEmptyStream : Obligations.PkResetStartsAnEmptyStream := by
  unfold Obligations.PkResetStartsAnEmptyStream
  exact fun d s => ⟨plainForm_commandWord 0x01#8 .pkReset, rfl⟩

/-- A sticky error blocks PK.FINISH (60_exceptions.md R127). -/
theorem exec_pkFinish_sticky {s : State} (h : s.pk.err ≠ .ok) :
    exec .pkFinish s = .next { s with phase := .offering ⟨s.pk.err, 0#64⟩ } := by
  simp [exec, execPkFinish, Packer.cmdFinish, h, respond, State.afterPk_ok]

/-- PK.FINISH seals a clean stream, sealed already or not. -/
theorem exec_pkFinish_clean {s : State} (h : s.pk.err = .ok) :
    exec .pkFinish s = .next { s with pk := s.pk.seal, phase := .offering ⟨.ok, zextCount s.pk.nbits⟩ } := by
  simp [exec, execPkFinish, Packer.cmdFinish, h, respond, State.afterPk_ok]

/-- Settles O33: PK.FINISH looks at PK.ERR alone. -/
theorem pkFinishSealsACleanStream : Obligations.PkFinishSealsACleanStream := by
  unfold Obligations.PkFinishSealsACleanStream
  exact fun d s => ⟨plainForm_commandWord 0x03#8 .pkFinish, exec_pkFinish_sticky, exec_pkFinish_clean⟩

/-- PK.RDBYTE of a byte of the stream; the stream lies in PK.BUF (10_state.md R29(a)). -/
theorem exec_pkRdbyte_inside {idx : Index} {s : State} (hcount : s.pk.nbits.toNat ≤ 8 * s.cfg.pkCapBytes)
    (h : idx.toNat < s.pk.nbytes) :
    exec (.pkRdbyte idx) s =
      .next { s with phase := .offering ⟨.ok, zextByte (Memory.read unlistedByte s.pk.buf idx.toNat)⟩ } := by
  have hbuf : idx.toNat < s.cfg.pkCapBytes := h.trans_le (ceil8_le hcount)
  simp [exec, execPkRdbyte, Packer.cmdRdbyte, not_le.2 h, memRead_inside _ hbuf, respond, State.afterPk_ok]

/-- PK.RDBYTE past the stream. -/
theorem exec_pkRdbyte_outside {idx : Index} {s : State} (h : s.pk.nbytes ≤ idx.toNat) :
    exec (.pkRdbyte idx) s = .next { s with phase := .offering ⟨.badArgument, 0#64⟩ } := by
  simp [exec, execPkRdbyte, Packer.cmdRdbyte, h, respond, State.afterPk_ok]

/-- Settles O34: the index is compared with PK.NBYTES, and below it the read stays in PK.BUF. -/
theorem pkRdbyteReadsAByteOfTheStream : Obligations.PkRdbyteReadsAByteOfTheStream := by
  unfold Obligations.PkRdbyteReadsAByteOfTheStream
  refine fun idx d s => ⟨?_, exec_pkRdbyte_inside, exec_pkRdbyte_outside⟩
  rw [show idx ++ 0x0004#16 = commandWord 0x04#8 0#7 idx from append_eq_commandWord idx 0x04#8]
  simp [decode]

/-- The bits of PK.STAT's word (10_state.md R38). -/
theorem Packer.statusWord_getLsbD (pk : Packer) (j : Nat) :
    pk.statusWord.getLsbD j =
      if j < 24 then pk.nbits.getLsbD j else if j < 28 then pk.err.code.getLsbD (j - 24)
      else decide (j = 28) && pk.sealed := by
  simp only [Packer.statusWord, flagBit, BitVec.getLsbD_setWidth, BitVec.getLsbD_append, BitVec.getLsbD_ofBool]
  by_cases h24 : j < 24
  · simp [h24, show j < 64 by omega]
  · by_cases h28 : j < 28
    · simp [h24, h28, show j - 24 < 4 by omega, show j < 64 by omega]
    · simp only [h24, h28, show ¬ j - 24 < 4 by omega, show j - 24 - 4 = 0 ↔ j = 28 by omega, if_false]
      by_cases hflag : j = 28 <;> simp [hflag]

/-- PK.STAT's word field by field (10_state.md R38). -/
theorem Packer.statusWord_fields (pk : Packer) :
    pk.statusWord.extractLsb' 0 24 = pk.nbits ∧ pk.statusWord.extractLsb' 24 4 = pk.err.code ∧
      pk.statusWord.getLsbD 28 = pk.sealed ∧ pk.statusWord.extractLsb' 29 35 = 0#35 := by
  refine ⟨BitVec.eq_of_getLsbD_eq fun j hj => ?_, BitVec.eq_of_getLsbD_eq fun j hj => ?_,
    pk.statusWord_getLsbD 28, BitVec.eq_of_getLsbD_eq fun j hj => ?_⟩
  · simp only [BitVec.getLsbD_extractLsb', pk.statusWord_getLsbD, hj, Nat.zero_add, decide_true, Bool.true_and, if_true]
  · simp [pk.statusWord_getLsbD, hj, show 24 + j < 28 by omega]
  · simp [pk.statusWord_getLsbD, show ¬ 29 + j < 24 by omega, show ¬ 29 + j < 28 by omega, show ¬ 29 + j = 28 by omega]

/-- Settles O35: the status word has its fields in their places. -/
theorem pkStatReportsTheControlState : Obligations.PkStatReportsTheControlState := by
  unfold Obligations.PkStatReportsTheControlState
  exact fun d s => ⟨plainForm_commandWord 0x05#8 .pkStat, s.pk.statusWord, rfl, s.pk.statusWord_fields⟩

/-- A multiple of 8 bits fills its bytes. -/
theorem eight_mul_ceil8 {n : Nat} (h : n % 8 = 0) : 8 * ceil8 n = n := by
  unfold ceil8; omega

/-- The stream has PK.NBYTES bytes. -/
@[simp] theorem Packer.stream_length (pk : Packer) : pk.stream.1.length = pk.nbytes := by simp [Packer.stream]

/-- Settles O37: PK.NBYTES is ceil8 of the count. -/
theorem fullBytesHaveNoPadding : Obligations.FullBytesHaveNoPadding := by
  unfold Obligations.FullBytesHaveNoPadding
  intro pk h
  have hfull : 8 * pk.nbytes = pk.nbits.toNat := eight_mul_ceil8 h
  exact ⟨hfull.symm, by rw [pk.stream_length, Nat.mul_comm]; exact hfull⟩

end Sys2Proof.Machine
end

section
/-! SUPPORT. PK.PUT (40_packer.md R86, R87) as a command on the state: an accepted code, and the inversion of an answer
into acceptance and rejection. -/

namespace Sys2Proof.Machine

/-- Appending bits writes PK.BUF and PK.NBITS alone. -/
theorem Packer.Appended.frame {bits : List Bool} {pk pk' : Packer} (h : Packer.Appended bits pk pk') :
    pk' = { pk with buf := pk'.buf, nbits := pk'.nbits } := by
  rw [← h.sealed, ← h.err]

/-- An accepted code (R87). -/
theorem exec_pkPut_accepted {len : BitVec 7} {s : State} (he : s.pk.err = .ok) (hs : s.pk.sealed = false)
    (h1 : 1 ≤ len.toNat) (h64 : len.toNat ≤ 64) (hfits : s.pk.nbits.toNat + len.toNat ≤ 8 * s.cfg.pkCapBytes)
    (pattern : BitVec 64) :
    exec (.pkPut len pattern) s =
      .next { s with pk := Packer.appendBits (codeBits len.toNat pattern) s.pk,
                     phase := .offering ⟨.ok,
                       zextCount (Packer.appendBits (codeBits len.toNat pattern) s.pk).nbits⟩ } := by
  rw [← State.afterPk_ok, ← Packer.cmdPut_accepted he hs h1 h64 hfits pattern]
  rfl

/-- What an accepted code does to the packer under the invariant. -/
theorem Packer.appendBits_codeBits_spec {cfg : Config} {pk : Packer} {len : BitVec 7} (hv : cfg.Valid)
    (hi : pk.Inv cfg) (hfits : pk.nbits.toNat + len.toNat ≤ 8 * cfg.pkCapBytes) (pattern : BitVec 64) :
    Packer.Appended (codeBits len.toNat pattern) pk (Packer.appendBits (codeBits len.toNat pattern) pk) :=
  Packer.appendBits_spec _ pk hi.canonical (by rw [codeBits_length]; exact pkCount_lt hv hfits)

/-- Settles O30: an accepted code is appended bit by bit, and `Packer.Appended` is the closed form of that. -/
theorem pkPutAppendsTheCode : Obligations.PkPutAppendsTheCode := by
  unfold Obligations.PkPutAppendsTheCode
  intro len pattern s hi he hs h1 h64 hfits
  have A := Packer.appendBits_codeBits_spec hi.cfg hi.pk hfits pattern
  refine ⟨_, _, ?_, ?_, fun j hj => ?_, A.padding fun q hq hlast => hi.pk.padding q hlast hq, A.old, ?_⟩
  · rw [exec_pkPut_accepted he hs h1 h64 hfits, ← A.frame]
    rfl
  · simpa using A.count
  · rw [A.new j (by rwa [codeBits_length]), codeBits_getElem]
  · simpa using A.bytes

/-- A sticky status is an error. -/
theorem Status.ne_ok_of_stickyPk {st : Status} (h : st.stickyPk = true) : st ≠ .ok := by
  rintro rfl
  cases h

/-- An answer of PK.PUT: OK, and the code fitted and is appended; or another status, and the stream is as before. -/
theorem exec_pkPut_answer {len : BitVec 7} {pattern : BitVec 64} {s t : State} {r : Response}
    (h : exec (.pkPut len pattern) s = .next t) (hr : t.phase = .offering r) :
    (r.status = .ok ∧ s.pk.nbits.toNat + len.toNat ≤ 8 * s.cfg.pkCapBytes ∧
      t.pk = Packer.appendBits (codeBits len.toNat pattern) s.pk) ∨
    (r.status ≠ .ok ∧ t.pk.buf = s.pk.buf ∧ t.pk.nbits = s.pk.nbits) := by
  obtain ⟨pk, r', heff, rfl⟩ := State.afterPk_next (e := s.pk.cmdPut s.cfg len pattern) h
  cases hr
  rcases Packer.cmdPut_cases s.cfg len pattern s.pk with
    ⟨-, -, -, -, hfits, heq⟩ | ⟨he, heq⟩ | ⟨-, -, heq⟩ | ⟨-, -, st, hst, heq⟩ <;> cases heq.symm.trans heff
  · exact .inl ⟨rfl, hfits, rfl⟩
  · exact .inr ⟨he, rfl, rfl⟩
  · exact .inr ⟨nofun, rfl, rfl⟩
  · exact .inr ⟨Status.ne_ok_of_stickyPk hst, rfl, rfl⟩

end Sys2Proof.Machine
end

section
/-! SUPPORT. The error law (40_packer.md R95): a sticky error freezes the packer, command by command and so over any
sequence without PK.RESET. -/

namespace Sys2Proof.Machine

/-- Every change of a packer with a sticky error is PK.RESET's. -/
theorem Packer.Change.frozen {cfg : Config} {pk pk' : Packer} {i : Instr} (h : Packer.Change cfg pk i pk')
    (he : pk.err ≠ .ok) (hi : i ≠ .pkReset) : pk' = pk := by
  cases h with
  | kept => rfl
  | reset => exact absurd rfl hi
  | put _ clean | latch _ _ clean | finish clean => exact absurd clean he

/-- No sequence without PK.RESET changes a packer with a sticky error. -/
theorem execAll_frozen {cmds : List Instr} {s t : State} {rs : List Response} (he : s.pk.err ≠ .ok)
    (hcmds : .pkReset ∉ cmds) (h : execAll cmds s = some (t, rs)) : t.pk = s.pk := by
  induction cmds generalizing s rs with
  | nil => cases h; rfl
  | cons i cmds ih =>
    obtain ⟨hi, hrest⟩ := List.ne_and_not_mem_of_not_mem_cons hcmds
    obtain ⟨u, r, rs', hu, -, hrun, -⟩ := execAll_cons_iff.1 h
    have hpk : u.pk = s.pk := (exec_pk_change hu).frozen he hi.symm
    exact (ih (hpk ▸ he) hrest hrun).trans hpk

/-- Settles O39: by the two kinds of answer of PK.PUT; then by induction on the sequence. -/
theorem rejectedCodeLeavesTheStream : Obligations.RejectedCodeLeavesTheStream := by
  unfold Obligations.RejectedCodeLeavesTheStream
  refine ⟨fun len pattern s t r h hr hst => ?_, fun cmds s t rs he hcmds h => ?_⟩
  · rcases exec_pkPut_answer h hr with ⟨hok, -, -⟩ | ⟨-, hkept⟩
    · exact absurd hok hst
    · exact hkept
  · have hpk := execAll_frozen he hcmds h
    exact ⟨hpk, hpk ▸ exec_pkFinish_sticky (hpk ▸ he)⟩

end Sys2Proof.Machine
end

section
/-! SUPPORT. The stream law (40_packer.md R92) and its degenerate case (R94): a run of accepted PK.PUT commands appends
the concatenation of the codes, and codes that fit are accepted. -/

namespace Sys2Proof.Machine

/-- One PK.PUT for each code, in order. -/
def putCommands (codes : List Code) : List Instr := codes.map fun c => .pkPut c.len c.pattern

theorem putCommands_cons (c : Code) (codes : List Code) :
    putCommands (c :: codes) = .pkPut c.len c.pattern :: putCommands codes := rfl

theorem packCommands_eq (codes : List Code) : packCommands codes = .pkReset :: putCommands codes := rfl

theorem concatBits_cons (c : Code) (codes : List Code) :
    concatBits (c :: codes) = codeBits c.len.toNat c.pattern ++ concatBits codes := rfl

/-- The concatenation is as long as the codes together. -/
theorem concatBits_length (codes : List Code) : (concatBits codes).length = (codes.map fun c => c.len.toNat).sum := by
  simp [concatBits, List.length_flatMap]

/-- Accepted codes: they fit the buffer together, and the packer they leave has their concatenation appended. -/
theorem execAll_putCommands_ok {codes : List Code} {s t : State} {rs : List Response} (hi : s.Inv)
    (h : execAll (putCommands codes) s = some (t, rs)) (hok : ∀ r ∈ rs, r.status = .ok) :
    s.pk.nbits.toNat + (concatBits codes).length ≤ 8 * s.cfg.pkCapBytes ∧
      t.pk = Packer.appendBits (concatBits codes) s.pk := by
  induction codes generalizing s rs with
  | nil => cases h; exact ⟨hi.pk.count, rfl⟩
  | cons c codes ih =>
    obtain ⟨u, r, rs', hu, hr, hrun, rfl⟩ := execAll_cons_iff.1 h
    obtain ⟨hst, hok'⟩ := List.forall_mem_cons.1 hok
    rcases exec_pkPut_answer hu hr with ⟨-, hfits, hpk⟩ | ⟨hne, -⟩
    · have hcount := (Packer.appendBits_codeBits_spec hi.cfg hi.pk hfits c.pattern).count
      obtain ⟨hrest, ht⟩ := ih (exec_inv hi hu) hrun hok'
      rw [hpk, exec_cfg hu, hcount] at hrest
      refine ⟨?_, ?_⟩
      · rw [concatBits_cons, List.length_append]; omega
      · rw [ht, hpk, concatBits_cons, Packer.appendBits_append]
    · exact absurd hst hne

/-- The stream law, from any state with an empty stream. -/
theorem appended_of_putCommands {codes : List Code} {s t : State} {rs : List Response} (hi : s.Inv)
    (h : execAll (putCommands codes) s = some (t, rs)) (hok : ∀ r ∈ rs, r.status = .ok) :
    Packer.Appended (concatBits codes) s.pk t.pk := by
  obtain ⟨hfits, hpk⟩ := execAll_putCommands_ok hi h hok
  rw [hpk]
  exact Packer.appendBits_spec _ _ hi.pk.canonical (pkCount_lt hi.cfg hfits)

/-- The state after PK.RESET. -/
def State.afterPkReset (s : State) : State :=
  { s with pk := { s.pk.clearErr with nbits := 0#24, sealed := false }, phase := .offering ⟨.ok, 0#64⟩ }

theorem exec_pkReset (s : State) : exec .pkReset s = .next s.afterPkReset := rfl

theorem State.Inv.afterPkReset {s : State} (hi : s.Inv) : s.afterPkReset.Inv := exec_inv hi (exec_pkReset s)

/-- Packing codes is PK.RESET, answered OK, and then the codes. -/
theorem execAll_packCommands_iff {codes : List Code} {s t : State} {rs : List Response} :
    execAll (packCommands codes) s = some (t, rs) ↔
      ∃ rs', execAll (putCommands codes) s.afterPkReset = some (t, rs') ∧ rs = ⟨.ok, 0#64⟩ :: rs' := by
  rw [packCommands_eq, execAll_cons_iff]
  constructor
  · rintro ⟨u, r, rs', hu, hr, hrun, rfl⟩
    cases hu
    cases hr
    exact ⟨rs', hrun, rfl⟩
  · rintro ⟨rs', hrun, rfl⟩
    exact ⟨_, _, rs', exec_pkReset s, rfl, hrun, rfl⟩

/-- Settles O36: the accepted codes are appended to an empty stream, by induction on the codes. -/
theorem streamHoldsTheConcatenatedCodes : Obligations.StreamHoldsTheConcatenatedCodes := by
  unfold Obligations.StreamHoldsTheConcatenatedCodes
  intro s t codes rs hi hrun hok
  obtain ⟨pk, hempty, A⟩ : ∃ pk : Packer, pk.nbits = 0#24 ∧ Packer.Appended (concatBits codes) pk t.pk := by
    rcases hrun with hrun | ⟨hpin, hrun⟩
    · obtain ⟨rs', hputs, rfl⟩ := execAll_packCommands_iff.1 hrun
      exact ⟨_, rfl, appended_of_putCommands hi.afterPkReset hputs (List.forall_mem_cons.1 hok).2⟩
    · exact ⟨s.pk, hpin ▸ rfl, appended_of_putCommands hi hrun hok⟩
  have hcount : t.pk.nbits.toNat = (concatBits codes).length := by simpa [hempty] using A.count
  refine ⟨hcount.trans (concatBits_length codes), fun q hq => ⟨hcount ▸ hq, ?_⟩, hcount.symm, rfl, A.padding ?_⟩
  · simpa [hempty] using A.new q hq
  · simp [hempty, ceil8]

/-- Codes of legal lengths that fit together are all accepted by a clean packer. -/
theorem execAll_putCommands_fit {codes : List Code} {s : State} (hi : s.Inv) (he : s.pk.err = .ok)
    (hs : s.pk.sealed = false) (hlen : ∀ c ∈ codes, 1 ≤ c.len.toNat ∧ c.len.toNat ≤ 64)
    (hfits : s.pk.nbits.toNat + (concatBits codes).length ≤ 8 * s.cfg.pkCapBytes) :
    ∃ t rs, execAll (putCommands codes) s = some (t, rs) ∧ ∀ r ∈ rs, r.status = .ok := by
  induction codes generalizing s with
  | nil => exact ⟨s, [], rfl, by simp⟩
  | cons c codes ih =>
    obtain ⟨⟨h1, h64⟩, hlen'⟩ := List.forall_mem_cons.1 hlen
    rw [concatBits_cons, List.length_append, codeBits_length] at hfits
    have hfirst : s.pk.nbits.toNat + c.len.toNat ≤ 8 * s.cfg.pkCapBytes := by omega
    have hput := exec_pkPut_accepted he hs h1 h64 hfirst c.pattern
    have A := Packer.appendBits_codeBits_spec hi.cfg hi.pk hfirst c.pattern
    obtain ⟨t, rs, hrun, hok⟩ := ih (exec_inv hi hput) (A.err.trans he) (A.sealed.trans hs) hlen'
      (by simpa only [A.count, codeBits_length, Nat.add_assoc] using hfits)
    exact ⟨t, _, execAll_cons_iff.2 ⟨_, _, rs, hput, rfl, hrun, rfl⟩, List.forall_mem_cons.2 ⟨rfl, hok⟩⟩

/-- The codes of a lone symbol, one after another, are 0 bits (R94). -/
theorem concatBits_lone (n : Nat) : concatBits (List.replicate n ⟨1#7, 0#64⟩) = List.replicate n false := by
  induction n with
  | zero => rfl
  | succ n ih => rw [List.replicate_succ, concatBits_cons, ih]; rfl

/-- A stream whose bits are all 0 is its count of zero bytes. -/
theorem Packer.stream_of_zero_bits {pk : Packer} (h : ∀ q < 8 * pk.nbytes, streamBit pk.buf q = false) :
    pk.stream = (List.replicate pk.nbytes 0x00#8, pk.nbits.toNat) := by
  refine Prod.ext (List.eq_replicate_iff.2 ⟨pk.stream_length, fun b hb => ?_⟩) rfl
  obtain ⟨a, ha, rfl⟩ := List.mem_map.1 hb
  refine read_eq_of_streamBits (m' := []) fun q hq => ?_
  have hq : q < 8 * pk.nbytes := by have := List.mem_range.1 ha; unfold byteIndex at hq; omega
  exact (h q hq).trans BitVec.getLsbD_zero.symm

/-- Settles O38: the codes fit, so they are accepted, and the stream law gives the bits. -/
theorem loneCodePacksToZeroBytes : Obligations.LoneCodePacksToZeroBytes := by
  unfold Obligations.LoneCodePacksToZeroBytes
  intro n s hi hfits
  have hlone := concatBits_lone n
  obtain ⟨t, rs, hputs, hok⟩ := execAll_putCommands_fit (codes := List.replicate n ⟨1#7, 0#64⟩) hi.afterPkReset rfl rfl
    (fun c hc => by rw [List.eq_of_mem_replicate hc]; decide)
    (by rw [hlone, List.length_replicate]; exact (Nat.zero_add n).trans_le hfits)
  have hrun := execAll_packCommands_iff.2 ⟨rs, hputs, rfl⟩
  have hall : ∀ r ∈ (⟨.ok, 0#64⟩ :: rs : List Response), r.status = .ok := List.forall_mem_cons.2 ⟨rfl, hok⟩
  obtain ⟨-, hbits, hlength, -, hpad⟩ := streamHoldsTheConcatenatedCodes s t _ _ hi (.inl hrun) hall
  have hcount : t.pk.nbits.toNat = n := by rw [← hlength, hlone, List.length_replicate]
  refine ⟨t, _, hrun, hall, hcount, ?_⟩
  rw [Packer.stream_of_zero_bits, hcount, Packer.nbytes, hcount]
  intro q hq
  by_cases hvalid : q < t.pk.nbits.toNat
  · rw [(hbits q (hlength ▸ hvalid)).2]
    simp [hlone]
  · exact hpad q (not_lt.1 hvalid) hq

end Sys2Proof.Machine
end

section
/-! SUPPORT. The unpacker's control commands (41_unpacker.md R100 to R105, R109): their words, and their effect on the
state as an equation for each case. -/

namespace Sys2Proof

/-- The words of an UP.SETNODE whose unused fields are 0 (30_encoding.md R79). -/
theorem decode_setnode (idx : Index) (kind : BitVec 2) (sym : Byte) (left right : Index)
    (hsym : kind ≠ 1#2 → sym = 0#8) (hleft : kind ≠ 2#2 → left = 0#16) (hright : kind ≠ 2#2 → right = 0#16) :
    decode ⟨commandWord 0x14#8 0#7 idx, nodeData kind sym left right⟩ = .ok (.upSetnode idx kind sym left right) := by
  simp [decode, kindField_nodeData, symOperand_nodeData left right hsym, leftOperand_nodeData sym right hleft,
    rightOperand_nodeData sym left hright]

end Sys2Proof

namespace Sys2Proof.Machine

/-- Settles O41: the effect is the unit after the reset pin, whose memories list nothing. -/
theorem upResetClearsTheUnpacker : Obligations.UpResetClearsTheUnpacker := by
  unfold Obligations.UpResetClearsTheUnpacker
  exact fun d s => ⟨plainForm_commandWord 0x10#8 .upReset, [], [], rfl, Memory.read_nil, Memory.read_nil⟩

/-- Settles O42: the word is that of OP 0x11 with every other field 0, and the effect is the definition of UP.REWIND. -/
theorem upRewindRestartsTheStream : Obligations.UpRewindRestartsTheStream := by
  unfold Obligations.UpRewindRestartsTheStream
  exact fun d s => ⟨plainForm_commandWord 0x11#8 .upRewind, rfl⟩

/-- UP.WRBYTE past the buffer. -/
theorem exec_upWrbyte_outside {s : State} {idx : Index} (h : s.cfg.upCapBytes ≤ idx.toNat) (byte : Byte) :
    exec (.upWrbyte idx byte) s = .next { s with phase := .offering ⟨.badArgument, 0#64⟩ } := by
  simp [exec, execUpWrbyte, Unpacker.cmdWrbyte, h, respond, State.afterUp_ok]

/-- UP.WRBYTE inside the buffer. -/
theorem exec_upWrbyte_inside {s : State} {idx : Index} (h : idx.toNat < s.cfg.upCapBytes) (byte : Byte) :
    exec (.upWrbyte idx byte) s =
      .next { s with up := { s.up with buf := memWrite s.up.buf idx.toNat byte }, phase := .offering ⟨.ok, 0#64⟩ } := by
  simp [exec, execUpWrbyte, Unpacker.cmdWrbyte, not_le.2 h, respond, State.afterUp_ok]

/-- Settles O43: the index is compared with UP_CAP_BYTES, and below it one byte of the memory is written. -/
theorem upWrbyteWritesOneByte : Obligations.UpWrbyteWritesOneByte := by
  unfold Obligations.UpWrbyteWritesOneByte
  refine fun idx byte d s => ⟨?_, fun h => exec_upWrbyte_outside h byte, fun h hwf =>
    ⟨_, exec_upWrbyte_inside h byte, memWrite_wf hwf _ _, read_memWrite_same hwf _ _, fun a ha =>
      read_memWrite_other hwf ha _⟩⟩
  rintro rfl
  rw [show idx ++ 0x0012#16 = commandWord 0x12#8 0#7 idx from append_eq_commandWord idx 0x12#8]
  simp [decode, byteField]

/-- UP.SETNBITS of more bits than the buffer holds. -/
theorem exec_upSetnbits_over {s : State} {n : BitVec 64} (h : 8 * s.cfg.upCapBytes < n.toNat) :
    exec (.upSetnbits n) s = .next { s with phase := .offering ⟨.badArgument, 0#64⟩ } := by
  simp [exec, execUpSetnbits, Unpacker.cmdSetnbits, h, respond, State.afterUp_ok]

/-- UP.SETNBITS of a count that fits. -/
theorem exec_upSetnbits_fits {s : State} {n : BitVec 64} (h : n.toNat ≤ 8 * s.cfg.upCapBytes) :
    exec (.upSetnbits n) s =
      .next { s with up := { s.up with nbits := n.setWidth 24, cursor := 0#24, err := .ok },
                     phase := .offering ⟨.ok, 0#64⟩ } := by
  simp [exec, execUpSetnbits, Unpacker.cmdSetnbits, not_lt.2 h, respond, State.afterUp_ok, Unpacker.clearErr]

/-- Settles O44: the value is compared as a whole, and one that fits a legal buffer fits the 24-bit register. -/
theorem upSetnbitsStartsAStream : Obligations.UpSetnbitsStartsAStream := by
  unfold Obligations.UpSetnbitsStartsAStream
  refine fun n s => ⟨plainForm_commandWord 0x13#8 (.upSetnbits n), exec_upSetnbits_over, fun hv hfits =>
    ⟨n.setWidth 24, ?_, exec_upSetnbits_fits hfits⟩⟩
  rw [BitVec.toNat_setWidth, Nat.mod_eq_of_lt (upCount_lt hv hfits)]

/-- KIND = 3 stands for no entry. -/
theorem nodeOperand_reserved (sym : Byte) (left right : Index) : nodeOperand 3#2 sym left right = none := rfl

/-- Every other KIND stands for the entry with its own fields. -/
theorem nodeOperand_used {kind : BitVec 2} (h : kind ≠ 3#2) (sym : Byte) (left right : Index) :
    ∃ e, nodeOperand kind sym left right = some e ∧
      (kind = 0#2 → e = ⟨.empty, 0#8, 0#16, 0#16⟩) ∧ (kind = 1#2 → e = ⟨.leaf, sym, 0#16, 0#16⟩) ∧
      (kind = 2#2 → e = ⟨.internal, 0#8, left, right⟩) := by
  have hkind : kind = 0#2 ∨ kind = 1#2 ∨ kind = 2#2 := by revert kind; decide
  rcases hkind with rfl | rfl | rfl <;> exact ⟨_, rfl, by simp [NodeEntry.empty]⟩

/-- UP.SETNODE past the table. -/
theorem exec_upSetnode_outside {s : State} {idx : Index} (h : s.cfg.upNodes ≤ idx.toNat) (kind : BitVec 2) (sym : Byte)
    (left right : Index) :
    exec (.upSetnode idx kind sym left right) s = .next { s with phase := .offering ⟨.badArgument, 0#64⟩ } := by
  simp [exec, execUpSetnode, Unpacker.cmdSetnode, h, respond, State.afterUp_ok]

/-- UP.SETNODE of the reserved KIND, whatever the index. -/
theorem exec_upSetnode_reserved (idx : Index) (s : State) (sym : Byte) (left right : Index) :
    exec (.upSetnode idx 3#2 sym left right) s = .next { s with phase := .offering ⟨.badArgument, 0#64⟩ } := by
  simp [exec, execUpSetnode, Unpacker.cmdSetnode, nodeOperand_reserved, respond, State.afterUp_ok]

/-- UP.SETNODE of an entry inside the table. -/
theorem exec_upSetnode_inside {s : State} {idx : Index} (h : idx.toNat < s.cfg.upNodes) {kind : BitVec 2} {sym : Byte}
    {left right : Index} {e : NodeEntry} (he : nodeOperand kind sym left right = some e) :
    exec (.upSetnode idx kind sym left right) s =
      .next { s with up := { s.up with nodes := nodeWrite s.up.nodes idx.toNat e },
                     phase := .offering ⟨.ok, 0#64⟩ } := by
  simp [exec, execUpSetnode, Unpacker.cmdSetnode, not_le.2 h, he, respond, State.afterUp_ok]

/-- Settles O45: the index is compared with UP_NODES, then the KIND decides whether there is an entry to write. -/
theorem upSetnodeWritesOneEntry : Obligations.UpSetnodeWritesOneEntry := by
  unfold Obligations.UpSetnodeWritesOneEntry
  intro idx kind sym left right s
  rw [show idx ++ 0x0014#16 = commandWord 0x14#8 0#7 idx from append_eq_commandWord idx 0x14#8]
  refine ⟨decode_setnode idx 1#2 sym 0#16 0#16 (by simp) (by simp) (by simp),
    decode_setnode idx 2#2 0#8 left right (by simp) (by simp) (by simp),
    fun h => exec_upSetnode_outside h kind sym left right, ?_, fun h hkind hwf => ?_⟩
  · rintro rfl
    exact exec_upSetnode_reserved idx s sym left right
  · obtain ⟨e, he, hfields⟩ := nodeOperand_used hkind sym left right
    have hread := Memory.read_write hwf idx.toNat (v := e)
    refine ⟨_, exec_upSetnode_inside h he, Memory.write_wf hwf _ _, ?_⟩
    rw [nodeWrite, hread, if_pos rfl]
    exact ⟨hfields.1, hfields.2.1, hfields.2.2, fun a ha => by rw [hread, if_neg ha]⟩

/-- UP.SETROOT past the table. -/
theorem exec_upSetroot_outside {s : State} {idx : Index} (h : s.cfg.upNodes ≤ idx.toNat) :
    exec (.upSetroot idx) s = .next { s with phase := .offering ⟨.badArgument, 0#64⟩ } := by
  simp [exec, execUpSetroot, Unpacker.cmdSetroot, h, respond, State.afterUp_ok]

/-- UP.SETROOT inside the table. -/
theorem exec_upSetroot_inside {s : State} {idx : Index} (h : idx.toNat < s.cfg.upNodes) :
    exec (.upSetroot idx) s =
      .next { s with up := { s.up with root := idx, rootValid := true }, phase := .offering ⟨.ok, 0#64⟩ } := by
  simp [exec, execUpSetroot, Unpacker.cmdSetroot, not_le.2 h, respond, State.afterUp_ok]

/-- Settles O46: the index is compared with UP_NODES. -/
theorem upSetrootChoosesTheRoot : Obligations.UpSetrootChoosesTheRoot := by
  unfold Obligations.UpSetrootChoosesTheRoot
  refine fun idx d s => ⟨?_, exec_upSetroot_outside, exec_upSetroot_inside⟩
  rw [show idx ++ 0x0015#16 = commandWord 0x15#8 0#7 idx from append_eq_commandWord idx 0x15#8]
  simp [decode]

/-- The bits of UP.STAT's word (10_state.md R39). -/
theorem Unpacker.statusWord_getLsbD (up : Unpacker) (j : Nat) :
    up.statusWord.getLsbD j =
      if j < 24 then up.cursor.getLsbD j else if j < 48 then up.nbits.getLsbD (j - 24)
      else if j < 52 then up.err.code.getLsbD (j - 48) else decide (j = 52) && up.rootValid := by
  simp only [Unpacker.statusWord, flagBit, BitVec.getLsbD_setWidth, BitVec.getLsbD_append, BitVec.getLsbD_ofBool,
    Nat.sub_sub]
  rcases (by omega : j < 24 ∨ (24 ≤ j ∧ j < 48) ∨ (48 ≤ j ∧ j < 52) ∨ 52 ≤ j) with h | h | h | h
  · simp [h, show j < 64 by omega]
  · simp [h, show ¬ j < 24 by omega, show j - 24 < 24 by omega, show j < 64 by omega]
  · simp [h, show ¬ j < 24 by omega, show ¬ j < 48 by omega, show ¬ j - 24 < 24 by omega, show j - 48 < 4 by omega,
      show j < 64 by omega]
  · simp only [show ¬ j < 24 by omega, show ¬ j < 48 by omega, show ¬ j < 52 by omega, show ¬ j - 24 < 24 by omega,
      show ¬ j - 48 < 4 by omega, show j - 52 = 0 ↔ j = 52 by omega, if_false]
    by_cases hflag : j = 52 <;> simp [hflag]

/-- UP.STAT's word field by field (10_state.md R39). -/
theorem Unpacker.statusWord_fields (up : Unpacker) :
    up.statusWord.extractLsb' 0 24 = up.cursor ∧ up.statusWord.extractLsb' 24 24 = up.nbits ∧
      up.statusWord.extractLsb' 48 4 = up.err.code ∧ up.statusWord.getLsbD 52 = up.rootValid ∧
      up.statusWord.extractLsb' 53 11 = 0#11 := by
  refine ⟨BitVec.eq_of_getLsbD_eq fun j hj => ?_, BitVec.eq_of_getLsbD_eq fun j hj => ?_,
    BitVec.eq_of_getLsbD_eq fun j hj => ?_, up.statusWord_getLsbD 52, BitVec.eq_of_getLsbD_eq fun j hj => ?_⟩
  · simp only [BitVec.getLsbD_extractLsb', up.statusWord_getLsbD, hj, Nat.zero_add, decide_true, Bool.true_and, if_true]
  · simp [up.statusWord_getLsbD, hj, show 24 + j < 48 by omega]
  · simp [up.statusWord_getLsbD, hj, show ¬ 48 + j < 24 by omega, show 48 + j < 52 by omega]
  · simp [up.statusWord_getLsbD, show ¬ 53 + j < 24 by omega, show ¬ 53 + j < 48 by omega,
      show ¬ 53 + j < 52 by omega, show ¬ 53 + j = 52 by omega]

/-- Settles O47: the status word has its fields in their places. -/
theorem upStatReportsTheControlState : Obligations.UpStatReportsTheControlState := by
  unfold Obligations.UpStatReportsTheControlState
  exact fun d s => ⟨plainForm_commandWord 0x17#8 .upStat, s.up.statusWord, rfl, s.up.statusWord_fields⟩

end Sys2Proof.Machine
end

section
/-! SUPPORT. UP.DECODE past its checks (41_unpacker.md R106, R107): what it does on a LEAF root and on an INTERNAL
one. -/

namespace Sys2Proof.Machine

/-- Bits are left when the cursor is not at the count. -/
theorem Unpacker.cursor_lt {up : Unpacker} (h : up.cursor.toNat ≤ up.nbits.toNat) (hne : up.cursor ≠ up.nbits) :
    up.cursor.toNat < up.nbits.toNat :=
  h.lt_of_ne fun heq => hne (BitVec.eq_of_toNat_eq heq)

section
variable {cfg : Config} {up : Unpacker} (he : up.err = .ok) (hne : up.cursor ≠ up.nbits) (hroot : up.rootValid = true)
  (hin : up.root.toNat < cfg.upNodes)
include he hne hroot hin

/-- A LEAF root is decoded as a lone leaf. -/
theorem Unpacker.cmdDecode_leafRoot (hkind : up.rootEntry.kind = .leaf) :
    up.cmdDecode cfg = up.decodeLoneLeaf cfg up.rootEntry := by
  unfold Unpacker.rootEntry at hkind ⊢
  simp [Unpacker.cmdDecode, he, hne, hroot, nodeRead_inside _ hin, hkind]

/-- An INTERNAL root starts the walk. -/
theorem Unpacker.cmdDecode_internalRoot (hkind : up.rootEntry.kind = .internal) :
    up.cmdDecode cfg = Unpacker.walk cfg up.bitsLeft up up.rootEntry := by
  unfold Unpacker.rootEntry at hkind ⊢
  simp [Unpacker.cmdDecode, he, hne, hroot, nodeRead_inside _ hin, hkind]

end

section
variable {cfg : Config} {up : Unpacker} (hin : up.cursor.toNat < 8 * cfg.upCapBytes) (leaf : NodeEntry)
include hin

/-- The bit 0 is the lone symbol's code (R107). -/
theorem Unpacker.decodeLoneLeaf_zero (hbit : streamBit up.buf up.cursor.toNat = false) :
    up.decodeLoneLeaf cfg leaf = .ok (up.advance, ⟨.ok, zextByte leaf.sym⟩) := by
  simp [Unpacker.decodeLoneLeaf, getBit_inside _ hin, hbit, respond]

/-- The bit 1 is no code (R107). -/
theorem Unpacker.decodeLoneLeaf_one (hbit : streamBit up.buf up.cursor.toNat = true) :
    up.decodeLoneLeaf cfg leaf = .ok (up.advance.latch .invalidCode, ⟨.invalidCode, 0#64⟩) := by
  simp [Unpacker.decodeLoneLeaf, getBit_inside _ hin, hbit, raiseUp, respond, Status.stickyUp]

end

/-- UP.DECODE answers what its effect on the unpacker is. -/
theorem exec_upDecode_ok {s : State} {up : Unpacker} {r : Response} (h : s.up.cmdDecode s.cfg = .ok (up, r)) :
    exec .upDecode s = .next { s with up := up, phase := .offering r } :=
  (congrArg s.afterUp h).trans (s.afterUp_ok up r)

/-- Settles O49: the checks pass, the root is a lone leaf, and the bit at the cursor decides. -/
theorem upDecodeSingleLeafTree : Obligations.UpDecodeSingleLeafTree := by
  unfold Obligations.UpDecodeSingleLeafTree
  intro s hi he hne hroot hkind
  have hlt := Unpacker.cursor_lt hi.up.cursor hne
  have hin : s.up.cursor.toNat < 8 * s.cfg.upCapBytes := hlt.trans_le hi.up.count
  have hdec := Unpacker.cmdDecode_leafRoot he hne hroot (hi.up.rootInside hroot) hkind
  refine ⟨s.up.cursor + 1#24, Unpacker.advance_toNat _ (by omega), fun hbit => ?_, fun hbit => ?_⟩
  · exact exec_upDecode_ok (hdec.trans (Unpacker.decodeLoneLeaf_zero hin _ hbit))
  · exact exec_upDecode_ok (hdec.trans (Unpacker.decodeLoneLeaf_one hin _ hbit))

end Sys2Proof.Machine
end

section
/-! SUPPORT. UP.DECODE reads positions below UP.NBITS alone (41_unpacker.md R111): with another input buffer that agrees
there, its effect is the same, the buffer apart. -/

namespace Sys2Proof.Machine

/-- The unpacker with another input buffer. -/
def Unpacker.withBuf (up : Unpacker) (buf : List Host.Cell) : Unpacker := { up with buf := buf }

/-- An effect on the unpacker with another input buffer afterwards. -/
def Effect.withBuf (buf : List Host.Cell) (e : Effect Unpacker) : Effect Unpacker :=
  e.map fun (up, r) => (up.withBuf buf, r)

@[simp] theorem Unpacker.withBuf_buf (up : Unpacker) (buf : List Host.Cell) : (up.withBuf buf).buf = buf := rfl
@[simp] theorem Unpacker.withBuf_nbits (up : Unpacker) (buf : List Host.Cell) : (up.withBuf buf).nbits = up.nbits := rfl
@[simp] theorem Unpacker.withBuf_cursor (up : Unpacker) (buf : List Host.Cell) :
    (up.withBuf buf).cursor = up.cursor := rfl
@[simp] theorem Unpacker.withBuf_nodes (up : Unpacker) (buf : List Host.Cell) : (up.withBuf buf).nodes = up.nodes := rfl
@[simp] theorem Unpacker.withBuf_root (up : Unpacker) (buf : List Host.Cell) : (up.withBuf buf).root = up.root := rfl
@[simp] theorem Unpacker.withBuf_rootValid (up : Unpacker) (buf : List Host.Cell) :
    (up.withBuf buf).rootValid = up.rootValid := rfl
@[simp] theorem Unpacker.withBuf_err (up : Unpacker) (buf : List Host.Cell) : (up.withBuf buf).err = up.err := rfl
@[simp] theorem Unpacker.withBuf_bitsLeft (up : Unpacker) (buf : List Host.Cell) :
    (up.withBuf buf).bitsLeft = up.bitsLeft := rfl
@[simp] theorem Unpacker.withBuf_advance (up : Unpacker) (buf : List Host.Cell) :
    (up.withBuf buf).advance = up.advance.withBuf buf := rfl

@[simp] theorem respond_withBuf (buf : List Host.Cell) (up : Unpacker) (st : Status) (data : BitVec 64) :
    respond (up.withBuf buf) st data = Effect.withBuf buf (respond up st data) := rfl

@[simp] theorem raiseUp_withBuf (buf : List Host.Cell) (up : Unpacker) (st : Status) :
    raiseUp (up.withBuf buf) st = Effect.withBuf buf (raiseUp up st) := by
  unfold raiseUp
  split_ifs <;> rfl

/-- `GetBit` depends on the stream bit at its position alone, and it faults by the position. -/
theorem getBit_congr {space : Space} {size p : Nat} {m m' : List Host.Cell} (h : streamBit m p = streamBit m' p) :
    getBit space size m p = getBit space size m' p := by
  by_cases hp : p < 8 * size
  · rw [getBit_inside m hp, getBit_inside m' hp, h]
  · rw [getBit_outside m (not_lt.1 hp), getBit_outside m' (not_lt.1 hp)]

section
variable {cfg : Config} {buf : List Host.Cell}

theorem Unpacker.decodeLoneLeaf_withBuf {up : Unpacker}
    (h : streamBit buf up.cursor.toNat = streamBit up.buf up.cursor.toNat) (leaf : NodeEntry) :
    (up.withBuf buf).decodeLoneLeaf cfg leaf = Effect.withBuf buf (up.decodeLoneLeaf cfg leaf) := by
  unfold Unpacker.decodeLoneLeaf
  simp only [Unpacker.withBuf_buf, Unpacker.withBuf_cursor, getBit_congr h]
  split
  · rfl
  · split_ifs <;> simp

/-- A walk with `k` bits left reads the `k` positions from the cursor at most. -/
theorem Unpacker.walk_withBuf {k : Nat} {up : Unpacker} (hc : up.cursor.toNat + k < 2 ^ 24)
    (h : ∀ p, up.cursor.toNat ≤ p → p < up.cursor.toNat + k → streamBit buf p = streamBit up.buf p) (n : NodeEntry) :
    Unpacker.walk cfg k (up.withBuf buf) n = Effect.withBuf buf (Unpacker.walk cfg k up n) := by
  induction k generalizing up n with
  | zero => exact raiseUp_withBuf buf up .truncatedStream
  | succ k ih =>
    have hadv := Unpacker.advance_toNat up (by omega)
    have hrest : ∀ n', Unpacker.walk cfg k (up.advance.withBuf buf) n' =
        Effect.withBuf buf (Unpacker.walk cfg k up.advance n') :=
      ih (by rw [Unpacker.advance_cursor, hadv]; omega) fun p hlo hhi => by
        rw [Unpacker.advance_cursor, hadv] at hlo hhi
        exact h p (by omega) (by omega)
    unfold Unpacker.walk
    simp only [Unpacker.withBuf_buf, Unpacker.withBuf_cursor, Unpacker.withBuf_nodes, Unpacker.withBuf_advance,
      getBit_congr (h _ le_rfl (by omega)), raiseUp_withBuf, respond_withBuf, hrest]
    split
    · rfl
    · split_ifs
      · rfl
      · split
        · rfl
        · split <;> rfl

/-- UP.DECODE with another input buffer that agrees below UP.NBITS. -/
theorem Unpacker.cmdDecode_withBuf {up : Unpacker} (hc : up.cursor.toNat ≤ up.nbits.toNat)
    (h : ∀ p < up.nbits.toNat, streamBit buf p = streamBit up.buf p) :
    (up.withBuf buf).cmdDecode cfg = Effect.withBuf buf (up.cmdDecode cfg) := by
  unfold Unpacker.cmdDecode
  simp only [Unpacker.withBuf_err, Unpacker.withBuf_cursor, Unpacker.withBuf_nbits, Unpacker.withBuf_rootValid,
    Unpacker.withBuf_nodes, Unpacker.withBuf_root, Unpacker.withBuf_bitsLeft, respond_withBuf, raiseUp_withBuf]
  split_ifs with _ hend
  · rfl
  · rfl
  · rfl
  · have hleft := Unpacker.bitsLeft_eq hc
    have hlt := Unpacker.cursor_lt hc hend
    split
    · rfl
    · split
      · rfl
      · exact Unpacker.decodeLoneLeaf_withBuf (h _ hlt) _
      · exact Unpacker.walk_withBuf (by omega) (fun p _ hp => h p (by omega)) _

end

/-- Settles O54: the effect is the same with the other buffer, so the state and the response are. -/
theorem upDecodeIgnoresBitsPastTheCount : Obligations.UpDecodeIgnoresBitsPastTheCount := by
  unfold Obligations.UpDecodeIgnoresBitsPastTheCount
  intro s t buf hc h hexec
  obtain ⟨up, r, heff, rfl⟩ := State.afterUp_next (e := s.up.cmdDecode s.cfg) hexec
  refine exec_upDecode_ok (s := { s with up := s.up.withBuf buf }) ?_
  rw [Unpacker.cmdDecode_withBuf hc h, heff]
  rfl

end Sys2Proof.Machine
end

section
/-! SUPPORT. Sequences of commands, further: one after another, and what they keep. -/

namespace Sys2Proof.Machine

/-- A sequence that answers, and then one that answers from there. -/
theorem execAll_append {cmds cmds' : List Instr} {s t u : State} {rs us : List Response}
    (hcmds : execAll cmds s = some (t, rs)) (hcmds' : execAll cmds' t = some (u, us)) :
    execAll (cmds ++ cmds') s = some (u, rs ++ us) := by
  induction cmds generalizing s rs with
  | nil => cases hcmds; exact hcmds'
  | cons i cmds ih =>
    obtain ⟨v, r, rs', hv, hr, hrun, rfl⟩ := execAll_cons_iff.1 hcmds
    exact execAll_cons_iff.2 ⟨v, r, _, hv, hr, ih hrun, rfl⟩

/-- What every command of a sequence keeps, the sequence keeps. -/
theorem execAll_keeps {P : State → Prop} {cmds : List Instr} {s t : State} {rs : List Response}
    (hkeep : ∀ i ∈ cmds, ∀ u v, P u → exec i u = .next v → P v) (hs : P s) (h : execAll cmds s = some (t, rs)) :
    P t := by
  induction cmds generalizing s rs with
  | nil => cases h; exact hs
  | cons i cmds ih =>
    obtain ⟨hi, hrest⟩ := List.forall_mem_cons.1 hkeep
    obtain ⟨u, r, rs', hu, -, hrun, -⟩ := execAll_cons_iff.1 h
    exact ih hrest (hi s u hs hu) hrun

/-- Sequences keep the invariant. -/
theorem execAll_inv {cmds : List Instr} {s t : State} {rs : List Response} (hs : s.Inv)
    (h : execAll cmds s = some (t, rs)) : t.Inv :=
  execAll_keeps (fun _ _ _ _ hu hv => exec_inv hu hv) hs h

/-- Sequences keep the parameters. -/
theorem execAll_cfg {cmds : List Instr} {s t : State} {rs : List Response} (h : execAll cmds s = some (t, rs)) :
    t.cfg = s.cfg :=
  execAll_keeps (P := fun u => u.cfg = s.cfg) (fun _ _ _ _ hu hv => (exec_cfg hv).trans hu) rfl h

/-- A sequence without an unpacker command keeps the unpacker. -/
theorem execAll_up {cmds : List Instr} {s t : State} {rs : List Response}
    (hcmds : ∀ i ∈ cmds, i.usesUnpacker = false) (h : execAll cmds s = some (t, rs)) : t.up = s.up := by
  refine execAll_keeps (P := fun u => u.up = s.up) (fun i hi u v hu hv => ?_) rfl h
  obtain ⟨pk, up, r, rfl, -, hup⟩ := exec_next hv
  exact (hup (hcmds i hi)).trans hu

/-- Packing does not touch the unpacker. -/
theorem packCommands_usesUnpacker {codes : List Code} : ∀ i ∈ packCommands codes, i.usesUnpacker = false := by
  simp [packCommands, Instr.usesUnpacker]

end Sys2Proof.Machine
end

section
/-! SUPPORT. The host copies the stream (41_unpacker.md R110(d)): UP.WRBYTE for every byte, then UP.SETNBITS, leave an
unpacker at the start of a stream with the packer's bits. -/

namespace Sys2Proof.Machine

/-- A buffer with the bytes at the indices `is` written, in order. -/
def writeBytes (byteAt : Nat → Byte) (is : List Nat) (buf : List Host.Cell) : List Host.Cell :=
  is.foldl (fun m i => memWrite m i (byteAt i)) buf

/-- UP.WRBYTE for the bytes at the indices `is`, in order. -/
def writeCommands (byteAt : Nat → Byte) (is : List Nat) : List Instr :=
  is.map fun i => .upWrbyte (BitVec.ofNat 16 i) (byteAt i)

theorem copyCommands_eq (pk : Packer) :
    copyCommands pk = writeCommands (Memory.read unlistedByte pk.buf) (List.range pk.nbytes) ++
      [.upSetnbits (zextCount pk.nbits)] := rfl

/-- An index written reads as its byte, any other as before. -/
theorem read_writeBytes (byteAt : Nat → Byte) (is : List Nat) {buf : List Host.Cell} (h : Memory.wf unlistedByte buf)
    (a : Nat) : Memory.read unlistedByte (writeBytes byteAt is buf) a =
      if a ∈ is then byteAt a else Memory.read unlistedByte buf a := by
  induction is generalizing buf with
  | nil => simp [writeBytes]
  | cons i is ih =>
    refine (ih (memWrite_wf h i _)).trans ?_
    rw [memWrite, Memory.read_write h]
    by_cases ha : a = i <;> simp [ha]

/-- A legal index of the buffer survives the 16 bits of IDX (00_scope.md R7). -/
theorem index_toNat {cfg : Config} (hv : cfg.Valid) {i : Nat} (h : i < cfg.upCapBytes) :
    (BitVec.ofNat 16 i).toNat = i := by
  have hmax : cfg.upCapBytes ≤ 65536 := hv.2.1.2
  rw [BitVec.toNat_ofNat, Nat.mod_eq_of_lt (by omega)]

/-- Writes inside the buffer are all answered OK, and change UP.BUF alone. -/
theorem execAll_writeCommands (byteAt : Nat → Byte) {is : List Nat} {s : State} (hv : s.cfg.Valid)
    (his : ∀ i ∈ is, i < s.cfg.upCapBytes) :
    ∃ t rs, execAll (writeCommands byteAt is) s = some (t, rs) ∧ (∀ r ∈ rs, r = ⟨.ok, 0#64⟩) ∧
      t.up = { s.up with buf := writeBytes byteAt is s.up.buf } := by
  induction is generalizing s with
  | nil => exact ⟨s, [], rfl, by simp, rfl⟩
  | cons i is ih =>
    obtain ⟨hi, hrest⟩ := List.forall_mem_cons.1 his
    have hidx := index_toNat hv hi
    have hwrite := exec_upWrbyte_inside (idx := BitVec.ofNat 16 i) (hidx.symm ▸ hi) (byteAt i)
    rw [hidx] at hwrite
    obtain ⟨t, rs, hrun, hok, hup⟩ := ih (s := { s with
      up := { s.up with buf := memWrite s.up.buf i (byteAt i) }, phase := .offering ⟨.ok, 0#64⟩ }) hv hrest
    exact ⟨t, _, execAll_cons_iff.2 ⟨_, _, rs, hwrite, rfl, hrun, rfl⟩, List.forall_mem_cons.2 ⟨rfl, hok⟩, hup⟩

/-- A bit count fits the data word. -/
theorem zextCount_toNat (n : Count) : (zextCount n).toNat = n.toNat := by
  rw [zextCount, BitVec.toNat_setWidth, Nat.mod_eq_of_lt (by omega)]

/-- A bit count comes back from the data word. -/
theorem zextCount_setWidth (n : Count) : (zextCount n).setWidth 24 = n := by simp [zextCount]

/-- A stream that fits is copied: every command is answered OK, and the unpacker is at the start of a stream with the
packer's bits, its tree as before. -/
theorem execAll_copyCommands {pk : Packer} {s : State} (hi : s.Inv) (hfits : pk.nbits.toNat ≤ 8 * s.cfg.upCapBytes) :
    ∃ t rs buf, execAll (copyCommands pk) s = some (t, rs) ∧ (∀ r ∈ rs, r = ⟨.ok, 0#64⟩) ∧
      t.up = { s.up with buf := buf, nbits := pk.nbits, cursor := 0#24, err := .ok } ∧
      ∀ q < pk.nbits.toNat, streamBit buf q = streamBit pk.buf q := by
  have hbytes : pk.nbytes ≤ s.cfg.upCapBytes := ceil8_le hfits
  obtain ⟨u, rs, hrun, hok, hup⟩ := execAll_writeCommands (Memory.read unlistedByte pk.buf)
    (is := List.range pk.nbytes) hi.cfg fun i hin => (List.mem_range.1 hin).trans_le hbytes
  have hset := exec_upSetnbits_fits (s := u) (n := zextCount pk.nbits)
    (by rwa [zextCount_toNat, execAll_cfg hrun])
  rw [zextCount_setWidth] at hset
  rw [copyCommands_eq]
  refine ⟨_, _, writeBytes (Memory.read unlistedByte pk.buf) (List.range pk.nbytes) s.up.buf,
    execAll_append hrun (execAll_cons_iff.2 ⟨_, _, [], hset, rfl, rfl, rfl⟩),
    List.forall_mem_append.2 ⟨hok, by simp⟩, by simp only [hup], fun q hq => ?_⟩
  have hbyte : byteIndex q < pk.nbytes := by unfold byteIndex Packer.nbytes ceil8; omega
  unfold streamBit
  rw [read_writeBytes _ _ hi.up.canonical, if_pos (List.mem_range.2 hbyte)]

end Sys2Proof.Machine
end

section
/-! SUPPORT. The round-trip law (41_unpacker.md R110): UP.DECODE on a code of the tree emits its symbol and moves past
it, so on the codes of a list of symbols it emits the list. -/

namespace Sys2Proof.Machine

/-- A path from an INTERNAL entry to a LEAF takes a bit. -/
theorem Path.length_pos {cfg : Config} {nodes : List (Nat × NodeEntry)} {n m : NodeEntry} {bits : List Bool}
    (h : Path cfg nodes n bits m) (hn : n.kind = .internal) (hm : m.kind = .leaf) : 0 < bits.length := by
  cases h with
  | here => cases hn.symm.trans hm
  | child => simp

/-- A code of the tree has a bit. -/
theorem Unpacker.IsCodeOf.length_pos {cfg : Config} {up : Unpacker} {sym : Byte} {len : BitVec 7}
    {pattern : BitVec 64} (h : up.IsCodeOf cfg sym len pattern) : 0 < (codeBits len.toNat pattern).length := by
  rcases h with ⟨-, -, hbits⟩ | ⟨hkind, leaf, hleaf, -, hpath⟩
  · simp [hbits]
  · exact hpath.length_pos hkind hleaf

/-- Bits read are read in parts: the first ones at the cursor, the others past them. -/
theorem Unpacker.Reads.of_append {up : Unpacker} {bits rest : List Bool} (h : up.Reads (bits ++ rest))
    (hc : up.cursor.toNat + bits.length < 2 ^ 24) : up.Reads bits ∧ (up.advanceBy bits.length).Reads rest := by
  refine ⟨fun j hj => ?_, fun j hj => ?_⟩
  · rw [h j (by simp; omega), List.getElem_append_left hj]
  · rw [Unpacker.advanceBy_buf, Unpacker.advanceBy_cursor up hc, Nat.add_assoc, h _ (by simp; omega)]
    simp

/-- UP.DECODE at a code of the tree: its symbol, and the cursor past the code. -/
theorem Unpacker.cmdDecode_code {cfg : Config} {up : Unpacker} {sym : Byte} {len : BitVec 7} {pattern : BitVec 64}
    (hv : cfg.Valid) (hi : up.Inv cfg) (he : up.err = .ok) (hroot : up.rootValid = true)
    (hcode : up.IsCodeOf cfg sym len pattern) (hr : up.Reads (codeBits len.toNat pattern))
    (hfits : up.cursor.toNat + len.toNat ≤ up.nbits.toNat) :
    up.cmdDecode cfg = .ok (up.advanceBy len.toNat, ⟨.ok, zextByte sym⟩) := by
  have hpos := hcode.length_pos
  have hin := hi.rootInside hroot
  have hcount := hi.count
  have hlength := codeBits_length len.toNat pattern
  have hne : up.cursor ≠ up.nbits := fun h => by rw [h] at hfits; omega
  rcases hcode with ⟨hkind, rfl, hbits⟩ | ⟨hkind, leaf, hleaf, rfl, hpath⟩
  · have hone : len.toNat = 1 := by rw [← hlength, hbits]; rfl
    have hzero : streamBit up.buf up.cursor.toNat = false := by
      rw [hbits] at hr
      exact hr 0 (by simp)
    rw [Unpacker.cmdDecode_leafRoot he hne hroot hin hkind, Unpacker.decodeLoneLeaf_zero (by omega) _ hzero, hone,
      Unpacker.advanceBy_one]
  · have hleft := Unpacker.bitsLeft_eq hi.cursor
    rw [Unpacker.cmdDecode_internalRoot he hne hroot hin hkind,
      Unpacker.walk_leaf hpath hkind hleaf hr (by omega) (by omega) (upCount_lt hv le_rfl), hlength]

/-- UP.DECODE at the end of the valid bits. -/
theorem Unpacker.cmdDecode_done {cfg : Config} {up : Unpacker} (he : up.err = .ok) (hend : up.cursor = up.nbits) :
    up.cmdDecode cfg = .ok (up, ⟨.done, 0#64⟩) := by
  simp [Unpacker.cmdDecode, he, hend, respond]

/-- The responses that report the symbols of a list, and then the end. -/
def symbolResponses (syms : List Byte) : List Response :=
  syms.map (fun sym => ⟨.ok, zextByte sym⟩) ++ [⟨.done, 0#64⟩]

/-- The symbols read off those responses are the list. -/
theorem symbolsUpToDone_symbolResponses (syms : List Byte) : symbolsUpToDone (symbolResponses syms) = some syms := by
  induction syms with
  | nil => rfl
  | cons sym syms ih =>
    change (symbolsUpToDone (symbolResponses syms)).map ((zextByte sym).setWidth 8 :: ·) = _
    rw [ih]
    simp [zextByte]

/-- A stream of codes of the tree decodes to their symbols, one UP.DECODE each, and the next answers DONE. -/
theorem execAll_decode_codes {syms : List (Byte × Code)} {s : State} (hi : s.Inv) (he : s.up.err = .ok)
    (hroot : s.up.rootValid = true) (hcodes : ∀ x ∈ syms, s.up.IsCodeOf s.cfg x.1 x.2.len x.2.pattern)
    (hr : s.up.Reads (concatBits (syms.map (·.2))))
    (hend : s.up.cursor.toNat + (concatBits (syms.map (·.2))).length = s.up.nbits.toNat) :
    ∃ t, execAll (List.replicate (syms.length + 1) .upDecode) s = some (t, symbolResponses (syms.map (·.1))) := by
  induction syms generalizing s with
  | nil =>
    have hdone := exec_upDecode_ok (Unpacker.cmdDecode_done (cfg := s.cfg) he (BitVec.eq_of_toNat_eq hend))
    exact ⟨_, execAll_cons_iff.2 ⟨_, _, [], hdone, rfl, rfl, rfl⟩⟩
  | cons x syms ih =>
    obtain ⟨hcode, hcodes'⟩ := List.forall_mem_cons.1 hcodes
    rw [List.map_cons, concatBits_cons] at hr hend
    rw [List.length_append, codeBits_length] at hend
    have hcur : s.up.cursor.toNat + x.2.len.toNat < 2 ^ 24 := by omega
    obtain ⟨hfirst, hrest⟩ := hr.of_append (by rwa [codeBits_length])
    rw [codeBits_length] at hrest
    have hdec := exec_upDecode_ok
      (Unpacker.cmdDecode_code hi.cfg hi.up he hroot hcode hfirst (by omega))
    obtain ⟨t, hrun⟩ := ih (exec_inv hi hdec) he hroot hcodes' hrest
      (by rw [Unpacker.advanceBy_cursor _ hcur, Nat.add_assoc]; exact hend)
    exact ⟨t, execAll_cons_iff.2 ⟨_, _, _, hdec, rfl, hrun, rfl⟩⟩

/-- Settles O55: the stream law gives the packed bits, the copy keeps them and the tree, and the codes decode by
induction on the symbols. -/
theorem roundTrip : Obligations.RoundTrip := by
  unfold Obligations.RoundTrip
  intro s t syms rs hi hroot hcodes hpack hok hfits
  have hcfg := execAll_cfg hpack
  have hup := execAll_up packCommands_usesUnpacker hpack
  obtain ⟨-, hbits, hlength, -⟩ := streamHoldsTheConcatenatedCodes s t _ rs hi (.inl hpack) hok
  have hit := execAll_inv hi hpack
  obtain ⟨u, us, buf, hcopy, hus, huup, hbuf⟩ := execAll_copyCommands hit hfits
  have hucfg := (execAll_cfg hcopy).trans hcfg
  rw [hup] at huup
  have hreads : u.up.Reads (concatBits (syms.map (·.2))) := by
    intro j hj
    obtain ⟨hvalid, hbit⟩ := hbits j hj
    rw [huup]
    simpa using (hbuf j hvalid).trans hbit
  obtain ⟨v, hdecode⟩ := execAll_decode_codes (syms := syms) (execAll_inv hit hcopy) (by rw [huup])
    (by rw [huup]; exact hroot) (by rw [huup, hucfg]; exact hcodes) hreads
    (by rw [huup, hlength]; exact Nat.zero_add _)
  have hsyms : symbolResponses (syms.map (·.1)) =
      syms.map (fun x => (⟨.ok, x.1.setWidth 64⟩ : Response)) ++ [⟨.done, 0#64⟩] := by
    simp [symbolResponses, zextByte]
  rw [← hsyms]
  exact ⟨u, us, v, hcopy, hus, hdecode, symbolsUpToDone_symbolResponses _⟩

end Sys2Proof.Machine
end

section
/-! SUPPORT. The commands of neither unit (45_common.md R120, R121): the transaction of a word that decodes and of one
that does not, and the words with OP = 0x00. -/

namespace Sys2Proof

/-- NOP is the only row with OP = 0x00 (R73). -/
theorem opcodeTable_op_zero :
    ∀ row ∈ opcodeTable, opField row.value = 0x00#8 → row = ⟨"NOP", 0x00000000#32, BitVec.allOnes 32⟩ := by decide

/-- A word with OP = 0x00 that is not the zero word matches no row: NOP's mask covers the whole word (R120). -/
theorem no_row_of_op_zero {w : BitVec 32} (hop : opField w = 0x00#8) (hw : w ≠ 0#32) :
    ∀ row ∈ opcodeTable, w &&& row.mask ≠ row.value := by
  intro row hrow hsel
  have hrowOp := OpcodeRow.op_of_selectedBy hrow (OpcodeRow.selectedBy_eq_true.2 hsel)
  obtain rfl := opcodeTable_op_zero row hrow (hrowOp.trans hop)
  exact hw (BitVec.and_allOnes.symm.trans hsel)

end Sys2Proof

namespace Sys2Proof.Machine

/-- The transaction of a word that decodes is the meaning of its command (30_encoding.md R67). -/
theorem runCommand_ok {c : Command} {i : Instr} (h : decode c = .ok i) (s : State) : runCommand c s = exec i s := by
  simp [runCommand, h]

/-- The transaction of a word that does not decode is the answer to an illegal command (R121). -/
theorem runCommand_error {c : Command} {why : IllegalWord} (h : decode c = .error why) (s : State) :
    runCommand c s = .next (s.offer ⟨.illegalCommand, 0#64⟩) := by
  simp [runCommand, h, execIllegal]

/-- Settles O6: the decoder rejects words that match no row (30_encoding.md R73), and rejected words have one answer. -/
theorem illegalWordIsAnsweredAndChangesNothing : Obligations.IllegalWordIsAnsweredAndChangesNothing := by
  unfold Obligations.IllegalWordIsAnsweredAndChangesNothing
  intro w d s hnone
  obtain ⟨-, hrejected, -⟩ := decoderSelectsTheTableRow
  obtain ⟨why, hwhy⟩ := hrejected ⟨w, d⟩ hnone
  exact runCommand_error hwhy s

/-- Settles O28: the zero word is that of OP 0x00 with every other field 0; every other word with that OP matches no
row. -/
theorem nopAnswersOkAndChangesNothing : Obligations.NopAnswersOkAndChangesNothing := by
  unfold Obligations.NopAnswersOkAndChangesNothing
  refine ⟨fun d s => ⟨?_, rfl⟩, fun w d s hop hw => ?_⟩
  · have hnop : decode ⟨0x00000000#32, d⟩ = .ok .nop := plainForm_commandWord 0x00#8 .nop
    exact runCommand_ok hnop s
  · exact illegalWordIsAnsweredAndChangesNothing w d s (no_row_of_op_zero hop hw)

end Sys2Proof.Machine
end

section
/-! SUPPORT. What a sticky error blocks (60_exceptions.md R127): PK.PUT, PK.FINISH and UP.DECODE; every other command
has the same status and leaves the same unit, the error register apart, whatever that register held. -/

namespace Sys2Proof.Machine

/-! ### The blocked commands -/

/-- A sticky error blocks PK.PUT. -/
theorem exec_pkPut_sticky {s : State} (h : s.pk.err ≠ .ok) (len : BitVec 7) (pattern : BitVec 64) :
    exec (.pkPut len pattern) s = .next { s with phase := .offering ⟨s.pk.err, 0#64⟩ } :=
  (congrArg s.afterPk (Packer.cmdPut_sticky h s.cfg len pattern)).trans (s.afterPk_ok _ _)

/-- A sticky error blocks UP.DECODE. -/
theorem exec_upDecode_sticky {s : State} (h : s.up.err ≠ .ok) :
    exec .upDecode s = .next { s with phase := .offering ⟨s.up.err, 0#64⟩ } :=
  exec_upDecode_ok (by simp [Unpacker.cmdDecode, h, respond])

/-! ### The other commands -/

/-- Where the first effect completes, so does the second, with the same status and, under `view`, the same unit. -/
def Effect.Agrees {unit : Type} (view : unit → unit) (a b : Effect unit) : Prop :=
  ∀ u r, a = .ok (u, r) → ∃ u' r', b = .ok (u', r') ∧ r'.status = r.status ∧ view u' = view u

/-- Responses with one status agree, whatever their data. -/
theorem respond_agrees {unit : Type} {view : unit → unit} {u u' : unit} {st : Status} {data data' : BitVec 64}
    (h : view u' = view u := by rfl) : Effect.Agrees view (respond u st data) (respond u' st data') := by
  rintro _ _ ⟨⟩
  exact ⟨u', ⟨st, data'⟩, rfl, rfl, h⟩

section
variable {cfg : Config} (e : Status)

theorem Packer.cmdRdbyte_latch (idx : Index) (pk : Packer) :
    Effect.Agrees Packer.clearErr (pk.cmdRdbyte cfg idx) ((pk.latch e).cmdRdbyte cfg idx) := by
  have hbytes : (pk.latch e).nbytes = pk.nbytes := rfl
  simp only [Packer.cmdRdbyte, hbytes, Packer.latch_buf]
  split_ifs
  · exact respond_agrees
  · split
    · exact respond_agrees
    · nofun

theorem Unpacker.cmdWrbyte_latch (idx : Index) (byte : Byte) (up : Unpacker) :
    Effect.Agrees Unpacker.clearErr (up.cmdWrbyte cfg idx byte) ((up.latch e).cmdWrbyte cfg idx byte) := by
  unfold Unpacker.cmdWrbyte
  split_ifs <;> exact respond_agrees

theorem Unpacker.cmdSetnbits_latch (n : BitVec 64) (up : Unpacker) :
    Effect.Agrees Unpacker.clearErr (up.cmdSetnbits cfg n) ((up.latch e).cmdSetnbits cfg n) := by
  unfold Unpacker.cmdSetnbits
  split_ifs <;> exact respond_agrees

theorem Unpacker.cmdSetnode_latch (idx : Index) (kind : BitVec 2) (sym : Byte) (left right : Index) (up : Unpacker) :
    Effect.Agrees Unpacker.clearErr (up.cmdSetnode cfg idx kind sym left right)
      ((up.latch e).cmdSetnode cfg idx kind sym left right) := by
  unfold Unpacker.cmdSetnode
  split_ifs
  · exact respond_agrees
  · split <;> exact respond_agrees

theorem Unpacker.cmdSetroot_latch (idx : Index) (up : Unpacker) :
    Effect.Agrees Unpacker.clearErr (up.cmdSetroot cfg idx) ((up.latch e).cmdSetroot cfg idx) := by
  unfold Unpacker.cmdSetroot
  split_ifs <;> exact respond_agrees

end

/-- A packer command other than PK.PUT and PK.FINISH does not look at PK.ERR, but to report it in PK.STAT's data. -/
theorem exec_packer_latch {i : Instr} (hi : i.usesPacker = true) (hput : ∀ len pattern, i ≠ .pkPut len pattern)
    (hfinish : i ≠ .pkFinish) :
    ∃ f : Config → Packer → Effect Packer, (∀ s, exec i s = s.afterPk (f s.cfg s.pk)) ∧
      ∀ cfg pk e, Effect.Agrees Packer.clearErr (f cfg pk) (f cfg (pk.latch e)) := by
  cases i with
  | pkReset => exact ⟨fun _ pk => pk.cmdReset, fun _ => rfl, fun _ _ _ => respond_agrees⟩
  | pkPut len pattern => exact absurd rfl (hput len pattern)
  | pkFinish => exact absurd rfl hfinish
  | pkRdbyte idx =>
    exact ⟨fun cfg pk => pk.cmdRdbyte cfg idx, fun _ => rfl, fun _ pk e => Packer.cmdRdbyte_latch e idx pk⟩
  | pkStat => exact ⟨fun _ pk => pk.cmdStat, fun _ => rfl, fun _ _ _ => respond_agrees⟩
  | _ => cases hi

/-- An unpacker command other than UP.DECODE does not look at UP.ERR, but to report it in UP.STAT's data. -/
theorem exec_unpacker_latch {i : Instr} (hi : i.usesUnpacker = true) (hdecode : i ≠ .upDecode) :
    ∃ f : Config → Unpacker → Effect Unpacker, (∀ s, exec i s = s.afterUp (f s.cfg s.up)) ∧
      ∀ cfg up e, Effect.Agrees Unpacker.clearErr (f cfg up) (f cfg (up.latch e)) := by
  cases i with
  | upReset => exact ⟨fun _ up => up.cmdReset, fun _ => rfl, fun _ _ _ => respond_agrees⟩
  | upRewind => exact ⟨fun _ up => up.cmdRewind, fun _ => rfl, fun _ _ _ => respond_agrees⟩
  | upWrbyte idx byte =>
    exact ⟨fun cfg up => up.cmdWrbyte cfg idx byte, fun _ => rfl,
      fun _ up e => Unpacker.cmdWrbyte_latch e idx byte up⟩
  | upSetnbits n =>
    exact ⟨fun cfg up => up.cmdSetnbits cfg n, fun _ => rfl, fun _ up e => Unpacker.cmdSetnbits_latch e n up⟩
  | upSetnode idx kind sym left right =>
    exact ⟨fun cfg up => up.cmdSetnode cfg idx kind sym left right, fun _ => rfl,
      fun _ up e => Unpacker.cmdSetnode_latch e idx kind sym left right up⟩
  | upSetroot idx =>
    exact ⟨fun cfg up => up.cmdSetroot cfg idx, fun _ => rfl, fun _ up e => Unpacker.cmdSetroot_latch e idx up⟩
  | upDecode => exact absurd rfl hdecode
  | upStat => exact ⟨fun _ up => up.cmdStat, fun _ => rfl, fun _ _ _ => respond_agrees⟩
  | _ => cases hi

/-- A command that no error blocks, in the state with other error registers: the same status, and the same units, the
error registers apart. -/
theorem exec_unblocked {i : Instr} {s t : State} {r : Response} (hput : ∀ len pattern, i ≠ .pkPut len pattern)
    (hfinish : i ≠ .pkFinish) (hdecode : i ≠ .upDecode) (h : exec i s = .next t) (hr : t.phase = .offering r)
    (e e' : Status) :
    ∃ u r', exec i { s with pk := s.pk.latch e, up := s.up.latch e' } = .next u ∧ u.phase = .offering r' ∧
      r'.status = r.status ∧ u.pk.latch .ok = t.pk.latch .ok ∧ u.up.latch .ok = t.up.latch .ok := by
  cases hp : i.usesPacker with
  | true =>
    obtain ⟨f, hf, hagree⟩ := exec_packer_latch hp hput hfinish
    rw [hf] at h ⊢
    obtain ⟨pk, r, heff, rfl⟩ := State.afterPk_next h
    cases hr
    obtain ⟨pk', r', heff', hstatus, hview⟩ := hagree _ _ e _ _ heff
    exact ⟨{ s with pk := pk', up := s.up.latch e', phase := .offering r' }, r',
      by rw [heff', State.afterPk_ok], rfl, hstatus, hview, rfl⟩
  | false =>
    cases hu : i.usesUnpacker with
    | true =>
      obtain ⟨f, hf, hagree⟩ := exec_unpacker_latch hu hdecode
      rw [hf] at h ⊢
      obtain ⟨up, r, heff, rfl⟩ := State.afterUp_next h
      cases hr
      obtain ⟨up', r', heff', hstatus, hview⟩ := hagree _ _ e' _ _ heff
      exact ⟨{ s with pk := s.pk.latch e, up := up', phase := .offering r' }, r',
        by rw [heff', State.afterUp_ok], rfl, hstatus, rfl, hview⟩
    | false =>
      obtain rfl := Instr.eq_nop hp hu
      cases h
      cases hr
      exact ⟨_, _, rfl, rfl, rfl, rfl, rfl⟩

/-- Settles O25: the blocked commands check the error first, the others do not look at it, and the units share nothing
(10_state.md R20). -/
theorem stickyErrorBlocks : Obligations.StickyErrorBlocks := by
  unfold Obligations.StickyErrorBlocks
  refine fun s => ⟨fun he => ⟨exec_pkPut_sticky he, exec_pkFinish_sticky he⟩, exec_upDecode_sticky, ?_, ?_⟩
  · exact fun i t r e e' hput hfinish hdecode h hr => exec_unblocked hput hfinish hdecode h hr e e'
  · intro i t e h
    obtain ⟨hup, hpk⟩ := unitsShareNothing i s t h
    refine ⟨fun hi => ?_, fun hi => ?_⟩
    · obtain ⟨hkept, hany⟩ := hup hi
      rw [hkept]
      exact hany _
    · obtain ⟨hkept, hany⟩ := hpk hi
      rw [hkept]
      exact hany _

end Sys2Proof.Machine
end

section
/-! SUPPORT. The classes of a status (60_exceptions.md R125, R126): what any transaction can answer, one case for each
class with what the class leaves of the state. -/

namespace Sys2Proof.Machine

/-! ### What UP.DECODE answers -/

/-- An answer of UP.DECODE past the end check: a symbol, or a raised status with the unit it is latched in. -/
inductive Unpacker.Decoded : Unpacker → Response → Prop where
  | symbol (up : Unpacker) (data : BitVec 64) : Unpacker.Decoded up ⟨.ok, data⟩
  | raised {up : Unpacker} {st : Status} (sticky : st.stickyUp = true) (latched : up.err = st) :
      Unpacker.Decoded up ⟨st, 0#64⟩

theorem respond_ok_decoded {up up' : Unpacker} {data : BitVec 64} {r : Response}
    (h : respond up .ok data = .ok (up', r)) : Unpacker.Decoded up' r := by
  cases h
  exact .symbol _ _

theorem raiseUp_decoded {up up' : Unpacker} {st : Status} {r : Response} (hst : st.stickyUp = true)
    (h : raiseUp up st = .ok (up', r)) : Unpacker.Decoded up' r := by
  cases h
  exact .raised hst (by rw [if_pos hst, Unpacker.latch_err])

section
variable {cfg : Config} {up' : Unpacker} {r : Response}

theorem Unpacker.decodeLoneLeaf_decoded {up : Unpacker} {leaf : NodeEntry}
    (h : up.decodeLoneLeaf cfg leaf = .ok (up', r)) : Unpacker.Decoded up' r := by
  unfold Unpacker.decodeLoneLeaf at h
  split at h
  · cases h
  · split_ifs at h
    · exact raiseUp_decoded rfl h
    · exact respond_ok_decoded h

theorem Unpacker.walk_decoded {k : Nat} {up : Unpacker} {n : NodeEntry}
    (h : Unpacker.walk cfg k up n = .ok (up', r)) : Unpacker.Decoded up' r := by
  induction k generalizing up n with
  | zero => exact raiseUp_decoded rfl h
  | succ k ih =>
    unfold Unpacker.walk at h
    split at h
    · cases h
    · split_ifs at h
      · exact raiseUp_decoded rfl h
      · split at h
        · cases h
        · split at h
          · exact raiseUp_decoded rfl h
          · exact respond_ok_decoded h
          · exact ih h

/-- UP.DECODE answers DONE with the unit as it stands, or a symbol, or a status that stands in UP.ERR. -/
theorem Unpacker.cmdDecode_answer {up : Unpacker} (hlegal : up.err.legalUpErr = true)
    (h : up.cmdDecode cfg = .ok (up', r)) : (up' = up ∧ r = ⟨.done, 0#64⟩) ∨ Unpacker.Decoded up' r := by
  unfold Unpacker.cmdDecode at h
  split_ifs at h with he
  · cases h
    exact .inr (.raised (by simpa [Status.legalUpErr, he] using hlegal) rfl)
  · cases h
    exact .inl ⟨rfl, rfl⟩
  · exact .inr (raiseUp_decoded rfl h)
  · right
    split at h
    · cases h
    · split at h
      · exact raiseUp_decoded rfl h
      · exact Unpacker.decodeLoneLeaf_decoded h
      · exact Unpacker.walk_decoded h

end

/-! ### What any transaction answers -/

/-- `t`, offering the response, is an answer to a decoded word in `s`, by the class of its status. -/
inductive State.Answer (s : State) : Except IllegalWord Instr → State → Response → Prop where
  | ok (w : Except IllegalWord Instr) (t : State) (data : BitVec 64) : State.Answer s w t ⟨.ok, data⟩
  | rejected (w : Except IllegalWord Instr) {st : Status} (rejection : st.rejection = true) :
      State.Answer s w (s.offer ⟨st, 0#64⟩) ⟨st, 0#64⟩
  | done : State.Answer s (.ok .upDecode) (s.offer ⟨.done, 0#64⟩) ⟨.done, 0#64⟩
  | stickyPk {i : Instr} {t : State} {st : Status} (sticky : st.stickyPk = true) (latched : t.pk.err = st)
      (command : (∃ len pattern, i = .pkPut len pattern) ∨ i = .pkFinish) : State.Answer s (.ok i) t ⟨st, 0#64⟩
  | stickyUp {t : State} {st : Status} (sticky : st.stickyUp = true) (latched : t.up.err = st) :
      State.Answer s (.ok .upDecode) t ⟨st, 0#64⟩

/-- PK.PUT refuses a sealed stream with a rejection; every other status it has but OK stands in PK.ERR. -/
theorem exec_pkPut_answer_class {s : State} (hlegal : s.pk.err.legalPkErr = true) (len : BitVec 7)
    (pattern : BitVec 64) :
    ∃ t r, exec (.pkPut len pattern) s = .next t ∧ t.phase = .offering r ∧
      State.Answer s (.ok (.pkPut len pattern)) t r := by
  have hcommand : (∃ len' pattern', Instr.pkPut len pattern = .pkPut len' pattern') ∨
      Instr.pkPut len pattern = .pkFinish := .inl ⟨len, pattern, rfl⟩
  rcases Packer.cmdPut_cases s.cfg len pattern s.pk with
    ⟨-, -, -, -, -, heff⟩ | ⟨he, heff⟩ | ⟨-, -, heff⟩ | ⟨-, -, st, hst, heff⟩ <;>
    refine ⟨_, _, (congrArg s.afterPk heff).trans (s.afterPk_ok _ _), rfl, ?_⟩
  · exact .ok _ _ _
  · exact .stickyPk (by simpa [Status.legalPkErr, he] using hlegal) rfl hcommand
  · exact .rejected _ rfl
  · exact .stickyPk hst rfl hcommand

/-- Every command answers in one of the classes; PK.ERR and UP.ERR must be legal, for they may be the answer. -/
theorem exec_answer (i : Instr) {s : State} (hs : s.Inv) :
    ∃ t r, exec i s = .next t ∧ t.phase = .offering r ∧ State.Answer s (.ok i) t r := by
  cases i with
  | nop | pkReset | pkStat | upReset | upRewind | upStat => exact ⟨_, _, rfl, rfl, .ok _ _ _⟩
  | pkPut len pattern => exact exec_pkPut_answer_class hs.pk.legalErr len pattern
  | pkFinish =>
    by_cases he : s.pk.err = .ok
    · exact ⟨_, _, exec_pkFinish_clean he, rfl, .ok _ _ _⟩
    · have hsticky : s.pk.err.stickyPk = true := by simpa [Status.legalPkErr, he] using hs.pk.legalErr
      exact ⟨_, _, exec_pkFinish_sticky he, rfl, .stickyPk hsticky rfl (.inr rfl)⟩
  | pkRdbyte idx =>
    rcases lt_or_ge idx.toNat s.pk.nbytes with h | h
    · exact ⟨_, _, exec_pkRdbyte_inside hs.pk.count h, rfl, .ok _ _ _⟩
    · exact ⟨_, _, exec_pkRdbyte_outside h, rfl, .rejected _ rfl⟩
  | upWrbyte idx byte =>
    rcases lt_or_ge idx.toNat s.cfg.upCapBytes with h | h
    · exact ⟨_, _, exec_upWrbyte_inside h byte, rfl, .ok _ _ _⟩
    · exact ⟨_, _, exec_upWrbyte_outside h byte, rfl, .rejected _ rfl⟩
  | upSetnbits n =>
    rcases le_or_gt n.toNat (8 * s.cfg.upCapBytes) with h | h
    · exact ⟨_, _, exec_upSetnbits_fits h, rfl, .ok _ _ _⟩
    · exact ⟨_, _, exec_upSetnbits_over h, rfl, .rejected _ rfl⟩
  | upSetnode idx kind sym left right =>
    rcases lt_or_ge idx.toNat s.cfg.upNodes with h | h
    · by_cases hkind : kind = 3#2
      · subst hkind
        exact ⟨_, _, exec_upSetnode_reserved idx s sym left right, rfl, .rejected _ rfl⟩
      · obtain ⟨e, he, -⟩ := nodeOperand_used hkind sym left right
        exact ⟨_, _, exec_upSetnode_inside h he, rfl, .ok _ _ _⟩
    · exact ⟨_, _, exec_upSetnode_outside h kind sym left right, rfl, .rejected _ rfl⟩
  | upSetroot idx =>
    rcases lt_or_ge idx.toNat s.cfg.upNodes with h | h
    · exact ⟨_, _, exec_upSetroot_inside h, rfl, .ok _ _ _⟩
    · exact ⟨_, _, exec_upSetroot_outside h, rfl, .rejected _ rfl⟩
  | upDecode =>
    obtain ⟨up, r, heff⟩ := Unpacker.cmdDecode_completes hs.cfg hs.up
    refine ⟨_, r, exec_upDecode_ok heff, rfl, ?_⟩
    rcases Unpacker.cmdDecode_answer hs.up.legalErr heff with ⟨rfl, rfl⟩ | hdecoded
    · exact .done
    · cases hdecoded with
      | symbol => exact .ok _ _ _
      | raised sticky latched => exact .stickyUp sticky latched

/-- Every transaction answers in one of the classes, illegal words among them. -/
theorem runCommand_answer {c : Command} {s t : State} {r : Response} (hs : s.Inv) (h : runCommand c s = .next t)
    (hr : t.phase = .offering r) : State.Answer s (decode c) t r := by
  cases hd : decode c with
  | ok i =>
    obtain ⟨t', r', hexec, hr', hanswer⟩ := exec_answer i hs
    cases hexec.symm.trans ((runCommand_ok hd s).symm.trans h)
    cases hr'.symm.trans hr
    exact hanswer
  | error why =>
    cases (runCommand_error hd s).symm.trans h
    cases hr
    exact .rejected _ rfl

/-! ### The classes exclude one another -/

theorem Status.class_of_rejection {st : Status} (h : st.rejection = true) :
    st.stickyPk = false ∧ st.stickyUp = false ∧ st ≠ .done ∧ st ≠ .emptyInput := by
  cases st <;> simp_all [Status.rejection, Status.stickyPk, Status.stickyUp]

theorem Status.class_of_stickyPk {st : Status} (h : st.stickyPk = true) :
    st.rejection = false ∧ st.stickyUp = false ∧ st ≠ .done ∧ st ≠ .emptyInput := by
  cases st <;> simp_all [Status.rejection, Status.stickyPk, Status.stickyUp]

theorem Status.class_of_stickyUp {st : Status} (h : st.stickyUp = true) :
    st.rejection = false ∧ st.stickyPk = false ∧ st ≠ .done ∧ st ≠ .emptyInput := by
  cases st <;> simp_all [Status.rejection, Status.stickyPk, Status.stickyUp]

/-- Settles O26: by the class of the answer; the classes exclude one another. -/
theorem statusClassesAreKept : Obligations.StatusClassesAreKept := by
  unfold Obligations.StatusClassesAreKept
  intro c s t r hs h hr
  have hanswer := runCommand_answer hs h hr
  generalize decode c = w at hanswer ⊢
  cases hanswer with
  | ok => simp [Status.rejection, Status.stickyPk, Status.stickyUp]
  | rejected _ rejection =>
    obtain ⟨hpk, hup, hdone, hempty⟩ := Status.class_of_rejection rejection
    simp [hpk, hup, hdone, hempty, State.offer]
  | done => simp [Status.rejection, Status.stickyPk, Status.stickyUp, State.offer]
  | stickyPk sticky latched command =>
    obtain ⟨hrej, hup, hdone, hempty⟩ := Status.class_of_stickyPk sticky
    simpa [hrej, hup, hdone, hempty, sticky, latched] using command
  | stickyUp sticky latched =>
    obtain ⟨hrej, hpk, hdone, hempty⟩ := Status.class_of_stickyUp sticky
    simp [hrej, hpk, hdone, hempty, latched]

end Sys2Proof.Machine
end

section
/-! SUPPORT. The reset pin (70_reset_and_hazards.md R141, R142): what the block's pins show while rst = 1, and the step at
such an edge. -/

namespace Sys2Proof.Machine

/-- No command is taken while rst = 1, in any phase. -/
theorem State.cmdReady_of_rst {s : State} (h : s.edge.rst = true) : s.cmdReady = false := by
  simp [State.cmdReady, h]

/-- No response is offered while rst = 1: the only phase with a response withholds it. -/
theorem State.rspOffered_of_rst {s : State} (h : s.edge.rst = true) : s.rspOffered = none := by
  cases hp : s.phase with
  | idle => simp [State.rspOffered, hp]
  | busy c => simp [State.rspOffered, hp]
  | offering r => simp [State.rspOffered, hp, h]

theorem State.rspValid_of_rst {s : State} (h : s.edge.rst = true) : s.rspValid = false := by
  simp [State.rspValid, State.rspOffered_of_rst h]

/-- The reset pin is looked at before the handshake and the phase, so the edge always completes. -/
theorem step_of_rst {s : State} (h : s.edge.rst = true) : step s = .next (s.resetEdge s.edge) := by
  simp [step, clockEdge, h]

/-- Settles O9: the step is the reset edge, and the units after it are those of the reset pin, whose memories list
nothing. -/
theorem resetPinResetsEveryRegister : Obligations.ResetPinResetsEveryRegister := by
  unfold Obligations.ResetPinResetsEveryRegister
  intro s h
  refine ⟨State.cmdReady_of_rst h, State.rspValid_of_rst h, s.resetEdge s.edge, step_of_rst h, ?_⟩
  simp [Packer.reset, Unpacker.reset, unlistedByte, NodeEntry.empty]

end Sys2Proof.Machine
end

section
/-! SUPPORT. Decoding and encoding are inverse on well-formed commands and on command words (30_encoding.md R73, R74,
R79, R80). -/

namespace Sys2Proof

/-- A word with LEN alone has the form of PK.PUT. -/
@[simp] theorem lenForm_commandWord (op : BitVec 8) (len : BitVec 7) (i : Instr) :
    lenForm (commandWord op len 0#16) i = .ok i := by
  simp [lenForm]

/-- The byte operand comes back from the data word. -/
@[simp] theorem byteField_setWidth (byte : Byte) : byteField (byte.setWidth 64) = byte := by
  refine BitVec.eq_of_getLsbD_eq fun j hj => ?_
  simp [byteField, hj]
  omega

/-- A well-formed UP.SETNODE has no value in a field its KIND has no bits for. -/
theorem Instr.wf_setnode {idx : Index} {kind : BitVec 2} {sym : Byte} {left right : Index}
    (h : (Instr.upSetnode idx kind sym left right).wf = true) :
    (kind ≠ 1#2 → sym = 0#8) ∧ (kind ≠ 2#2 → left = 0#16) ∧ (kind ≠ 2#2 → right = 0#16) := by
  simpa [Instr.wf, symUsedByLeafOnly, leftUsedByInternalOnly, rightUsedByInternalOnly, or_iff_not_imp_left, and_assoc]
    using h

/-- Settles O2: the fields of an assembled word are those it was assembled from, so it has the form of its command. -/
theorem decodeOfEncode : Obligations.DecodeOfEncode := by
  unfold Obligations.DecodeOfEncode
  intro i hwf
  cases i with
  | upSetnode idx kind sym left right =>
    obtain ⟨hsym, hleft, hright⟩ := Instr.wf_setnode hwf
    exact decode_setnode idx kind sym left right hsym hleft hright
  | nop | pkReset | pkFinish | pkStat | upReset | upRewind | upDecode | upStat => exact plainForm_commandWord _ _
  | upSetnbits n => exact plainForm_commandWord 0x13#8 (.upSetnbits n)
  | pkPut len pattern => simp [encode, decode]
  | pkRdbyte idx => simp [encode, decode]
  | upWrbyte idx byte => simp [encode, decode]
  | upSetroot idx => simp [encode, decode]

/-- Settles O1: each word is evaluated. -/
theorem specWordsDecode : Obligations.SpecWordsDecode := by
  unfold Obligations.SpecWordsDecode
  decide

end Sys2Proof
end

section
/-! SUPPORT. A command word that decodes is the one its command is written as (30_encoding.md R73, R74). -/

namespace Sys2Proof

section
variable {w : BitVec 32} {op : BitVec 8} {i j : Instr} (hop : opField w = op)
include hop

/-- An accepted word with neither LEN nor IDX is that of its OP. -/
theorem plainForm_word (h : plainForm w i = .ok j) : j = i ∧ commandWord op 0#7 0#16 = w := by
  obtain ⟨hj, hrsv, hlen, hidx⟩ := plainForm_ok h
  refine ⟨hj, ?_⟩
  rw [← hop, ← hlen, ← hidx]
  exact commandWord_fields hrsv

/-- An accepted word with LEN is that of its OP and its LEN. -/
theorem lenForm_word (h : lenForm w i = .ok j) : j = i ∧ commandWord op (lenField w) 0#16 = w := by
  obtain ⟨hj, hrsv, hidx⟩ := lenForm_ok h
  refine ⟨hj, ?_⟩
  rw [← hop, ← hidx]
  exact commandWord_fields hrsv

/-- An accepted word with IDX is that of its OP and its IDX. -/
theorem idxForm_word (h : idxForm w i = .ok j) : j = i ∧ commandWord op 0#7 (idxField w) = w := by
  obtain ⟨hj, hrsv, hlen⟩ := idxForm_ok h
  refine ⟨hj, ?_⟩
  rw [← hop, ← hlen]
  exact commandWord_fields hrsv

end

/-- The fields read from a data word are those its KIND has bits for. -/
theorem Instr.wf_of_nodeFields (idx : Index) (d : BitVec 64) :
    (Instr.upSetnode idx (kindField d) (symOperand d) (leftOperand d) (rightOperand d)).wf = true := by
  by_cases hleaf : kindField d = 1#2 <;> by_cases hinternal : kindField d = 2#2 <;>
    simp [Instr.wf, symUsedByLeafOnly, leftUsedByInternalOnly, rightUsedByInternalOnly, symOperand, leftOperand,
      rightOperand, hleaf, hinternal]

/-- Settles O3: the accepted form of the OP fixes every field of the word. -/
theorem encodeOfDecode : Obligations.EncodeOfDecode := by
  unfold Obligations.EncodeOfDecode
  intro c i h
  unfold decode at h
  split at h
  case h_15 => cases h
  case h_3 hop =>
    obtain ⟨rfl, hword⟩ := lenForm_word hop h
    exact ⟨rfl, hword⟩
  case h_11 hop =>
    obtain ⟨rfl, hword⟩ := idxForm_word hop h
    exact ⟨Instr.wf_of_nodeFields _ _, hword⟩
  case h_5 hop | h_9 hop | h_12 hop =>
    obtain ⟨rfl, hword⟩ := idxForm_word hop h
    exact ⟨rfl, hword⟩
  all_goals
    obtain ⟨rfl, hword⟩ := plainForm_word ‹_› h
    exact ⟨rfl, hword⟩

/-! ### The data word -/

/-- SYM is read from the low byte of the data word of a LEAF. -/
theorem symOperand_congr {d d' : BitVec 64} (hkind : kindField d = kindField d')
    (hsym : kindField d = 1#2 → d.extractLsb' 0 8 = d'.extractLsb' 0 8) : symOperand d = symOperand d' := by
  unfold symOperand
  rw [← hkind]
  split_ifs with h
  · exact hsym h
  · rfl

/-- LEFT and RIGHT are read from the low half of the data word of an INTERNAL. -/
theorem childOperands_congr {d d' : BitVec 64} (hkind : kindField d = kindField d')
    (hchildren : kindField d = 2#2 → d.extractLsb' 0 32 = d'.extractLsb' 0 32) :
    leftOperand d = leftOperand d' ∧ rightOperand d = rightOperand d' := by
  unfold leftOperand rightOperand
  rw [← hkind]
  split_ifs with h
  · have hleft := congrArg (BitVec.extractLsb' 0 16) (hchildren h)
    have hright := congrArg (BitVec.extractLsb' 16 16) (hchildren h)
    simpa only [BitVec.extractLsb'_extractLsb'_of_le (by omega : 0 + 16 ≤ 32),
      BitVec.extractLsb'_extractLsb'_of_le (by omega : 16 + 16 ≤ 32)] using And.intro hleft hright
  · exact ⟨rfl, rfl⟩

/-- Settles O5: OP chooses the arm of the decoder, and the arm's operands are all that is read of the data word. -/
theorem unnamedDataBitsAreIgnored : Obligations.UnnamedDataBitsAreIgnored := by
  unfold Obligations.UnnamedDataBitsAreIgnored
  refine fun w d d' => ⟨fun h02 h12 h13 h14 => ?_, fun hop hbyte => ?_, fun hop hkind hsym hchildren => ?_⟩
  · unfold decode
    dsimp only
    generalize opField w = op at h02 h12 h13 h14 ⊢
    split
    case h_3 | h_9 | h_10 | h_11 => contradiction
    all_goals rfl
  · simp only [decode, hop, byteField, hbyte]
  · obtain ⟨hleft, hright⟩ := childOperands_congr hkind hchildren
    have hkind' : kindField d = kindField d' := hkind
    simp only [decode, hop, hkind', symOperand_congr hkind hsym, hleft, hright]

end Sys2Proof
end

section
/-! SUPPORT. The alternation of commands and responses (30_encoding.md R65): what one event adds to it. -/

namespace Sys2Proof.Machine

/-- The command outstanding is the newest event. -/
theorem outstanding_eq_some {trace : List PortEvent} {c : Command} (h : outstanding trace = some c) :
    ∃ before, trace = .command c :: before := by
  unfold outstanding at h
  split at h
  · cases h
    exact ⟨_, rfl⟩
  · cases h

/-- A command may transfer when none is outstanding. -/
theorem alternates_command {trace : List PortEvent} (ha : alternates trace = true) (ho : outstanding trace = none)
    (c : Command) : alternates (.command c :: trace) = true := by
  cases trace with
  | nil => rfl
  | cons e before =>
    cases e with
    | command c' => cases ho
    | response r => exact ha
    | reset => exact ha

/-- A response may transfer when a command is outstanding. -/
theorem alternates_response {trace : List PortEvent} (ha : alternates trace = true)
    (ho : (outstanding trace).isSome = true) (r : Response) : alternates (.response r :: trace) = true := by
  obtain ⟨c, hc⟩ := Option.isSome_iff_exists.1 ho
  obtain ⟨before, rfl⟩ := outstanding_eq_some hc
  exact ha

/-! ### The port and the run, by the phase -/

section
variable {s : State}

theorem State.portInv_idle (hp : s.phase = .idle) :
    s.PortInv ↔ alternates s.trace = true ∧ outstanding s.trace = none := by
  simp only [State.PortInv, hp]

theorem State.portInv_busy {c : Command} (hp : s.phase = .busy c) :
    s.PortInv ↔ alternates s.trace = true ∧ outstanding s.trace = some c := by
  simp only [State.PortInv, hp]

theorem State.portInv_offering {r : Response} (hp : s.phase = .offering r) :
    s.PortInv ↔ alternates s.trace = true ∧ (outstanding s.trace).isSome = true := by
  simp only [State.PortInv, hp]

/-- In every phase the run alternates. -/
theorem State.PortInv.alternates (h : s.PortInv) : alternates s.trace = true := h.1

/-- The invariant of the port speaks of the phase and the run alone. -/
theorem State.PortInv.congr {t : State} (h : s.PortInv) (hp : t.phase = s.phase) (ht : t.trace = s.trace) :
    t.PortInv := by
  unfold State.PortInv at h ⊢
  rwa [hp, ht]

end

/-- What a transaction leaves: the parameters, the run and the host's side as they were, and a response offered. -/
theorem runCommand_frame {c : Command} {s t : State} (h : runCommand c s = .next t) :
    t.cfg = s.cfg ∧ t.trace = s.trace ∧ t.edges = s.edges ∧ t.held = s.held ∧ ∃ r, t.phase = .offering r := by
  obtain ⟨pk, up, r, rfl⟩ := runCommand_next h
  exact ⟨rfl, rfl, rfl, rfl, r, rfl⟩

/-- Settles O13: by the cases of a step; only a transfer adds a command or a response, and each is the one due. -/
theorem stepKeepsAlternation : Obligations.StepKeepsAlternation := by
  unfold Obligations.StepKeepsAlternation
  intro s t hs h
  have hpass : (s.pass s.edge).PortInv := hs.congr rfl rfl
  rcases step_cases h with ⟨-, rfl⟩ | ⟨-, -, ⟨hp, c, -, rfl⟩ | ⟨-, -, rfl⟩ | ⟨c, -, -, rfl⟩ | ⟨c, hp, -, hrun⟩ |
    ⟨r, hp, -, rfl⟩ | ⟨r, -, -, rfl⟩⟩
  · exact (State.portInv_idle rfl).2 ⟨hs.alternates, rfl⟩
  · obtain ⟨ha, ho⟩ := (State.portInv_idle hp).1 hs
    exact (State.portInv_busy rfl).2 ⟨alternates_command ha ho c, rfl⟩
  · exact hpass
  · exact hpass
  · obtain ⟨ha, ho⟩ := (State.portInv_busy hp).1 hs
    obtain ⟨-, htrace, -, -, r, hr⟩ := runCommand_frame hrun
    exact (State.portInv_offering hr).2 ⟨by rw [htrace]; exact ha, by rw [htrace, State.pass_trace, ho]; rfl⟩
  · obtain ⟨ha, ho⟩ := (State.portInv_offering hp).1 hs
    exact (State.portInv_idle rfl).2 ⟨alternates_response ha ho r, rfl⟩
  · exact hpass

end Sys2Proof.Machine
end

section
/-! SUPPORT. The clocked machine and the run of transactions (20_memory.md R56; 30_encoding.md R67): where a state
stands against its run, by the phase. -/

namespace Sys2Proof.Machine

theorem State.faithful_idle {s : State} (hp : s.phase = .idle) :
    s.Faithful ↔ Replays s.cfg s.trace s.pk s.up := by
  simp only [State.Faithful, hp]

theorem State.faithful_busy {s : State} {c : Command} (hp : s.phase = .busy c) :
    s.Faithful ↔ ∃ before, s.trace = .command c :: before ∧ Replays s.cfg before s.pk s.up := by
  simp only [State.Faithful, hp]

theorem State.faithful_offering {s : State} {r : Response} (hp : s.phase = .offering r) :
    s.Faithful ↔ ∃ c before pk up u, s.trace = .command c :: before ∧ Replays s.cfg before pk up ∧
      runCommand c (State.ofUnits s.cfg pk up) = .next u ∧ u.pk = s.pk ∧ u.up = s.up ∧ u.phase = .offering r := by
  simp only [State.Faithful, hp]

/-- Faithfulness speaks of the parameters, the units, the phase and the run alone. -/
theorem State.Faithful.congr {s t : State} (h : s.Faithful) (hc : t.cfg = s.cfg) (hpk : t.pk = s.pk)
    (hup : t.up = s.up) (hp : t.phase = s.phase) (ht : t.trace = s.trace) : t.Faithful := by
  unfold State.Faithful at h ⊢
  rwa [hc, hpk, hup, hp, ht]

/-- A transaction from the clocked state is the transaction from its units alone. -/
theorem runCommand_ofUnits {c : Command} {s t : State} (h : runCommand c s = .next t) :
    runCommand c (State.ofUnits s.cfg s.pk s.up) =
      .next { State.ofUnits s.cfg s.pk s.up with pk := t.pk, up := t.up, phase := t.phase } :=
  runCommand_congr h rfl rfl rfl

/-- The edge that completes a command: its transaction is the one after those of the run. -/
theorem runCommand_faithful {c : Command} {s t : State} (hs : s.Faithful) (hp : s.phase = .busy c)
    (h : runCommand c s = .next t) : t.Faithful := by
  obtain ⟨before, htrace, hreplay⟩ := (State.faithful_busy hp).1 hs
  obtain ⟨hcfg, hsame, -, -, r, hr⟩ := runCommand_frame h
  have hrun := runCommand_ofUnits h
  rw [← hcfg] at hreplay hrun
  exact (State.faithful_offering hr).2
    ⟨c, before, s.pk, s.up, _, hsame.trans htrace, hreplay, hrun, rfl, rfl, hr⟩

/-- The edge at which a response transfers: its transaction is answered. -/
theorem State.Faithful.deliver {s : State} {r : Response} (hs : s.Faithful) (hp : s.phase = .offering r) (e : Edge) :
    (s.deliver e r).Faithful := by
  obtain ⟨c, before, pk, up, u, htrace, hreplay, hrun, hpk, hup, hr⟩ := (State.faithful_offering hp).1 hs
  refine (State.faithful_idle rfl).2 ?_
  rw [State.deliver_trace, State.deliver_pk, State.deliver_up, htrace, ← hpk, ← hup]
  exact .answered hreplay hrun hr

/-- Settles O14: by the cases of a step; the units change at the reset pin and at the edge that completes a command
alone. -/
theorem stepKeepsTheRunOfTransactions : Obligations.StepKeepsTheRunOfTransactions := by
  unfold Obligations.StepKeepsTheRunOfTransactions
  intro s t hs h
  have hpass : (s.pass s.edge).Faithful := hs.congr rfl rfl rfl rfl rfl
  rcases step_cases h with ⟨-, rfl⟩ | ⟨-, -, ⟨hp, c, -, rfl⟩ | ⟨-, -, rfl⟩ | ⟨c, -, -, rfl⟩ | ⟨c, hp, -, hrun⟩ |
    ⟨r, hp, -, rfl⟩ | ⟨r, -, -, rfl⟩⟩
  · exact (State.faithful_idle rfl).2 (.reset s.trace)
  · exact (State.faithful_busy rfl).2 ⟨s.trace, rfl, (State.faithful_idle hp).1 hs⟩
  · exact hpass
  · exact hpass
  · exact runCommand_faithful hpass hp hrun
  · exact hs.deliver hp _
  · exact hpass

end Sys2Proof.Machine
end

section
/-! SUPPORT. Bytes of PK.BUF past the stream (10_state.md R24; 93_implementation_defined.md S9): with another buffer
that holds the same stream, every packer command has the same effect, such bytes apart. -/

namespace Sys2Proof.Machine

/-- The packer with another buffer. -/
def Packer.withBuf (pk : Packer) (buf : List Host.Cell) : Packer := { pk with buf := buf }

@[simp] theorem Packer.withBuf_buf (pk : Packer) (buf : List Host.Cell) : (pk.withBuf buf).buf = buf := rfl
@[simp] theorem Packer.withBuf_nbits (pk : Packer) (buf : List Host.Cell) : (pk.withBuf buf).nbits = pk.nbits := rfl
@[simp] theorem Packer.withBuf_sealed (pk : Packer) (buf : List Host.Cell) : (pk.withBuf buf).sealed = pk.sealed := rfl
@[simp] theorem Packer.withBuf_err (pk : Packer) (buf : List Host.Cell) : (pk.withBuf buf).err = pk.err := rfl
@[simp] theorem Packer.withBuf_nbytes (pk : Packer) (buf : List Host.Cell) : (pk.withBuf buf).nbytes = pk.nbytes := rfl

/-- The buffer holds the packer's stream: it reads as PK.BUF below PK.NBYTES. -/
def Packer.StreamIn (pk : Packer) (buf : List Host.Cell) : Prop :=
  ∀ a < pk.nbytes, Memory.read unlistedByte buf a = Memory.read unlistedByte pk.buf a

theorem Packer.StreamIn.streamBit {pk : Packer} {buf : List Host.Cell} (h : pk.StreamIn buf) {q : Nat}
    (hq : q < 8 * pk.nbytes) : streamBit buf q = streamBit pk.buf q := by
  unfold Machine.streamBit
  rw [h _ (by unfold byteIndex; omega)]

/-- Where the first effect completes, so does the second, with the same response and the same packer, but for a buffer
that holds the same stream. -/
def Effect.SameStream (e e' : Effect Packer) : Prop :=
  ∀ pk r, e = .ok (pk, r) → ∃ buf, e' = .ok (pk.withBuf buf, r) ∧ pk.StreamIn buf

section
variable {cfg : Config} {pk : Packer} {buf : List Host.Cell}

theorem respond_sameStream (h : pk.StreamIn buf) (st : Status) (data : BitVec 64) :
    Effect.SameStream (respond pk st data) (respond (pk.withBuf buf) st data) := by
  rintro _ _ ⟨⟩
  exact ⟨buf, rfl, h⟩

theorem raisePk_sameStream (h : pk.StreamIn buf) (st : Status) :
    Effect.SameStream (raisePk pk st) (raisePk (pk.withBuf buf) st) := by
  unfold raisePk
  split_ifs
  · exact respond_sameStream (pk := pk.latch st) h st _
  · exact respond_sameStream h st _

/-- Appending fixes every bit of the stream it leaves: the old ones, the new ones, and the padding. -/
theorem Packer.appendBits_streamIn (hv : cfg.Valid) (hi : pk.Inv cfg) (hwf : Memory.wf unlistedByte buf)
    (h : pk.StreamIn buf) {bits : List Bool} (hfits : pk.nbits.toNat + bits.length ≤ 8 * cfg.pkCapBytes) :
    Packer.appendBits bits (pk.withBuf buf) =
        (Packer.appendBits bits pk).withBuf (Packer.appendBits bits (pk.withBuf buf)).buf ∧
      (Packer.appendBits bits pk).StreamIn (Packer.appendBits bits (pk.withBuf buf)).buf := by
  have A := Packer.appendBits_spec bits pk hi.canonical (pkCount_lt hv hfits)
  have B := Packer.appendBits_spec bits (pk.withBuf buf) hwf (pkCount_lt hv hfits)
  have hcount : (Packer.appendBits bits (pk.withBuf buf)).nbits = (Packer.appendBits bits pk).nbits :=
    BitVec.eq_of_toNat_eq (B.count.trans A.count.symm)
  refine ⟨?_, fun a ha => read_eq_of_streamBits fun q hq => ?_⟩
  · rw [B.frame, A.frame, hcount]
    rfl
  · have hlast : q < 8 * ceil8 (Packer.appendBits bits pk).nbits.toNat := by
      unfold Packer.nbytes at ha; unfold byteIndex at hq; omega
    rcases (by omega : q < pk.nbits.toNat ∨ (pk.nbits.toNat ≤ q ∧ q < pk.nbits.toNat + bits.length) ∨
      pk.nbits.toNat + bits.length ≤ q) with hold | ⟨hlo, hhi⟩ | hpad
    · rw [B.old q hold, A.old q hold]
      exact h.streamBit (hold.trans_le (le_ceil8 _))
    · obtain ⟨j, rfl⟩ := Nat.exists_eq_add_of_le hlo
      rw [A.new j (by omega)]
      exact B.new j (by omega)
    · have hpadding : ∀ q, pk.nbits.toNat ≤ q → q < 8 * ceil8 pk.nbits.toNat → streamBit pk.buf q = false :=
        fun q h1 h2 => hi.padding q h2 h1
      rw [A.padding hpadding q (by rw [A.count]; exact hpad) hlast]
      exact B.padding (fun q h1 h2 => (h.streamBit h2).trans (hpadding q h1 h2)) q
        (by rw [hcount, A.count]; exact hpad) (by rwa [hcount])

theorem Packer.cmdReset_sameStream : Effect.SameStream pk.cmdReset (pk.withBuf buf).cmdReset := by
  rintro _ _ ⟨⟩
  exact ⟨buf, rfl, by simp [Packer.StreamIn, Packer.nbytes, ceil8]⟩

theorem Packer.cmdPut_sameStream (hv : cfg.Valid) (hi : pk.Inv cfg) (hwf : Memory.wf unlistedByte buf)
    (h : pk.StreamIn buf) (len : BitVec 7) (pattern : BitVec 64) :
    Effect.SameStream (pk.cmdPut cfg len pattern) ((pk.withBuf buf).cmdPut cfg len pattern) := by
  unfold Packer.cmdPut
  simp only [Packer.withBuf_err, Packer.withBuf_sealed, Packer.withBuf_nbits, Packer.appendCode_eq]
  split_ifs with _ _ _ _ hfull
  · exact respond_sameStream h _ _
  · exact respond_sameStream h _ _
  · exact raisePk_sameStream h _
  · exact raisePk_sameStream h _
  · exact raisePk_sameStream h _
  · obtain ⟨hframe, hstream⟩ := Packer.appendBits_streamIn hv hi hwf h
      (bits := codeBits len.toNat pattern) (by rw [codeBits_length]; exact not_lt.1 hfull)
    rw [hframe]
    exact respond_sameStream hstream _ _

theorem Packer.cmdFinish_sameStream (h : pk.StreamIn buf) :
    Effect.SameStream pk.cmdFinish (pk.withBuf buf).cmdFinish := by
  by_cases he : pk.err = .ok
  · simp only [Packer.cmdFinish, Packer.withBuf_err, he, ne_eq, not_true_eq_false, if_false]
    exact respond_sameStream (pk := pk.seal) h _ _
  · simp only [Packer.cmdFinish, Packer.withBuf_err, he, ne_eq, not_false_eq_true, if_true]
    exact respond_sameStream h _ _

/-- PK.RDBYTE reads a byte of the stream only. -/
theorem Packer.cmdRdbyte_sameStream (h : pk.StreamIn buf) (idx : Index) :
    Effect.SameStream (pk.cmdRdbyte cfg idx) ((pk.withBuf buf).cmdRdbyte cfg idx) := by
  by_cases hidx : idx.toNat ≥ pk.nbytes
  · simp only [Packer.cmdRdbyte, Packer.withBuf_nbytes, hidx, if_true]
    exact respond_sameStream h _ _
  · have hread : memRead .pkBuf cfg.pkCapBytes buf idx.toNat = memRead .pkBuf cfg.pkCapBytes pk.buf idx.toNat := by
      simp only [memRead, h _ (not_le.1 hidx)]
    simp only [Packer.cmdRdbyte, Packer.withBuf_nbytes, Packer.withBuf_buf, hidx, if_false, hread]
    split
    · exact respond_sameStream h _ _
    · nofun

end

/-- Every packer command, in a packer with another buffer that holds the same stream. -/
theorem exec_packer_sameStream {i : Instr} (hi : i.usesPacker = true) :
    ∃ f : Config → Packer → Effect Packer, (∀ s, exec i s = s.afterPk (f s.cfg s.pk)) ∧
      ∀ cfg pk buf, cfg.Valid → pk.Inv cfg → Memory.wf unlistedByte buf → pk.StreamIn buf →
        Effect.SameStream (f cfg pk) (f cfg (pk.withBuf buf)) := by
  cases i with
  | pkReset => exact ⟨fun _ pk => pk.cmdReset, fun _ => rfl, fun _ _ _ _ _ _ _ => Packer.cmdReset_sameStream⟩
  | pkPut len pattern =>
    exact ⟨fun cfg pk => pk.cmdPut cfg len pattern, fun _ => rfl,
      fun _ _ _ hv hi hwf h => Packer.cmdPut_sameStream hv hi hwf h len pattern⟩
  | pkFinish => exact ⟨fun _ pk => pk.cmdFinish, fun _ => rfl, fun _ _ _ _ _ _ h => Packer.cmdFinish_sameStream h⟩
  | pkRdbyte idx =>
    exact ⟨fun cfg pk => pk.cmdRdbyte cfg idx, fun _ => rfl, fun _ _ _ _ _ _ h => Packer.cmdRdbyte_sameStream h idx⟩
  | pkStat => exact ⟨fun _ pk => pk.cmdStat, fun _ => rfl, fun _ _ _ _ _ _ h => respond_sameStream h _ _⟩
  | _ => cases hi

/-- Settles O40: a packer command has the same effect on the stream, and no other command reads or writes the packer. -/
theorem bytesPastTheStreamAreUnobservable : Obligations.BytesPastTheStreamAreUnobservable := by
  unfold Obligations.BytesPastTheStreamAreUnobservable
  intro i s t buf hs hwf hstream h
  cases hp : i.usesPacker with
  | true =>
    obtain ⟨f, hf, hsame⟩ := exec_packer_sameStream hp
    rw [hf] at h ⊢
    obtain ⟨pk, r, heff, rfl⟩ := State.afterPk_next h
    obtain ⟨buf', heff', hstream'⟩ := hsame s.cfg s.pk buf hs.cfg hs.pk hwf hstream pk r heff
    exact ⟨buf', (congrArg _ heff').trans (State.afterPk_ok _ _ _), hstream'⟩
  | false =>
    obtain ⟨pk, up, r, rfl, hpk, -⟩ := exec_next h
    obtain rfl := hpk hp
    exact ⟨buf, exec_withPk hp h (s.pk.withBuf buf), hstream⟩

end Sys2Proof.Machine
end

section
/-! SUPPORT. The frames of the commands (10_state.md R44; 60_exceptions.md R128; 20_memory.md R55): which registers a
command can write, which error it can clear, and that a read writes none. -/

namespace Sys2Proof.Machine

/-- Settles O22: a command's effect is on its one unit, and its answer is offered. -/
theorem commandsLeaveTheHostSideAlone : Obligations.CommandsLeaveTheHostSideAlone := by
  unfold Obligations.CommandsLeaveTheHostSideAlone
  intro i s t h
  obtain ⟨pk, up, r, rfl, -, -⟩ := exec_next h
  exact ⟨r, rfl⟩

/-! ### The registers a command writes -/

/-- Appending bits writes neither PK.SEALED nor PK.ERR, wrapped count or not. -/
theorem Packer.appendBits_flags (bits : List Bool) (pk : Packer) :
    (Packer.appendBits bits pk).sealed = pk.sealed ∧ (Packer.appendBits bits pk).err = pk.err := by
  induction bits generalizing pk with
  | nil => exact ⟨rfl, rfl⟩
  | cons b bits ih => exact ih (pk.appendBit b)

/-- Each register of the packer, with the commands that can change it (R44). -/
theorem Packer.Change.writes {cfg : Config} {pk pk' : Packer} {i : Instr} (h : Packer.Change cfg pk i pk') :
    (pk'.buf ≠ pk.buf → ∃ len pattern, i = .pkPut len pattern) ∧
    (pk'.nbits ≠ pk.nbits → i = .pkReset ∨ ∃ len pattern, i = .pkPut len pattern) ∧
    (pk'.sealed ≠ pk.sealed → (i = .pkReset ∧ pk'.sealed = false) ∨ (i = .pkFinish ∧ pk'.sealed = true)) ∧
    (pk'.err ≠ pk.err → i = .pkReset ∨ ∃ len pattern, i = .pkPut len pattern) := by
  cases h with
  | put => simp [Packer.appendBits_flags]
  | kept | reset | latch | finish => simp

/-- The unpackers UP.DECODE can leave: the cursor and the error apart, the one it found. -/
def Unpacker.SameStreamAndTree (up up' : Unpacker) : Prop := up' = { up with cursor := up'.cursor, err := up'.err }

theorem respond_sameStreamAndTree {up u up' : Unpacker} {st : Status} {data : BitVec 64} {r : Response}
    (hu : up.SameStreamAndTree u) (h : respond u st data = .ok (up', r)) : up.SameStreamAndTree up' := by
  obtain rfl := respond_unit h
  exact hu

theorem raiseUp_sameStreamAndTree {up u up' : Unpacker} {st : Status} {r : Response}
    (hu : up.SameStreamAndTree u) (h : raiseUp u st = .ok (up', r)) : up.SameStreamAndTree up' := by
  obtain rfl := respond_unit h
  unfold Unpacker.SameStreamAndTree at hu ⊢
  split_ifs
  · rw [hu]
    rfl
  · exact hu

theorem Unpacker.SameStreamAndTree.advance {up u : Unpacker} (hu : up.SameStreamAndTree u) :
    up.SameStreamAndTree u.advance := by
  unfold Unpacker.SameStreamAndTree at hu ⊢
  rw [hu]
  rfl

section
variable {cfg : Config} {up up' : Unpacker} {r : Response}

theorem Unpacker.decodeLoneLeaf_sameStreamAndTree {leaf : NodeEntry}
    (h : up.decodeLoneLeaf cfg leaf = .ok (up', r)) : up.SameStreamAndTree up' := by
  have hup : up.SameStreamAndTree up := rfl
  unfold Unpacker.decodeLoneLeaf at h
  split at h
  · cases h
  · split_ifs at h
    · exact raiseUp_sameStreamAndTree hup.advance h
    · exact respond_sameStreamAndTree hup.advance h

theorem Unpacker.walk_sameStreamAndTree {k : Nat} {u : Unpacker} {n : NodeEntry} (hu : up.SameStreamAndTree u)
    (h : Unpacker.walk cfg k u n = .ok (up', r)) : up.SameStreamAndTree up' := by
  induction k generalizing u n with
  | zero => exact raiseUp_sameStreamAndTree hu h
  | succ k ih =>
    unfold Unpacker.walk at h
    split at h
    · cases h
    · split_ifs at h
      · exact raiseUp_sameStreamAndTree hu.advance h
      · split at h
        · cases h
        · split at h
          · exact raiseUp_sameStreamAndTree hu.advance h
          · exact respond_sameStreamAndTree hu.advance h
          · exact ih hu.advance h

/-- UP.DECODE writes UP.CURSOR and UP.ERR alone, in every state. -/
theorem Unpacker.cmdDecode_sameStreamAndTree (h : up.cmdDecode cfg = .ok (up', r)) : up.SameStreamAndTree up' := by
  have hup : up.SameStreamAndTree up := rfl
  unfold Unpacker.cmdDecode at h
  split_ifs at h
  · exact respond_sameStreamAndTree hup h
  · exact respond_sameStreamAndTree hup h
  · exact raiseUp_sameStreamAndTree hup h
  · split at h
    · cases h
    · split at h
      · exact raiseUp_sameStreamAndTree hup h
      · exact Unpacker.decodeLoneLeaf_sameStreamAndTree h
      · exact Unpacker.walk_sameStreamAndTree hup h

end

/-- Each register of the unpacker, with the commands that can change it (R44). -/
theorem Unpacker.Change.writes {cfg : Config} {up up' : Unpacker} {i : Instr} (h : Unpacker.Change cfg up i up') :
    (up'.buf ≠ up.buf → i = .upReset ∨ ∃ idx byte, i = .upWrbyte idx byte) ∧
    (up'.nbits ≠ up.nbits → i = .upReset ∨ ∃ n, i = .upSetnbits n) ∧
    (up'.cursor ≠ up.cursor → i = .upReset ∨ i = .upRewind ∨ i = .upDecode ∨ ∃ n, i = .upSetnbits n) ∧
    (up'.nodes ≠ up.nodes → i = .upReset ∨ ∃ idx kind sym left right, i = .upSetnode idx kind sym left right) ∧
    (up'.root ≠ up.root → i = .upReset ∨ ∃ idx, i = .upSetroot idx) ∧
    (up'.rootValid ≠ up.rootValid → i = .upReset ∨ ∃ idx, i = .upSetroot idx) ∧
    (up'.err ≠ up.err → i = .upReset ∨ i = .upRewind ∨ i = .upDecode ∨ ∃ n, i = .upSetnbits n) := by
  cases h with
  | kept | reset | rewind | wrbyte | setnbits | setnode | setroot => simp
  | decode answer =>
    have hsame : up' = _ := Unpacker.cmdDecode_sameStreamAndTree answer
    rw [hsame]
    simp

/-- Settles O23: by the changes a command can make to each unit. -/
theorem onlyTheListedCommandsWriteARegister : Obligations.OnlyTheListedCommandsWriteARegister := by
  unfold Obligations.OnlyTheListedCommandsWriteARegister
  intro i s t h
  obtain ⟨hbuf, hnbits, hsealed, herr⟩ := (exec_pk_change h).writes
  exact ⟨hbuf, hnbits, hsealed, herr, (exec_up_change h).writes⟩

/-! ### The errors a command clears -/

/-- A sticky error of the packer stays, or is cleared by PK.RESET. -/
theorem Packer.Change.sticky {cfg : Config} {pk pk' : Packer} {i : Instr} (h : Packer.Change cfg pk i pk')
    (he : pk.err ≠ .ok) : pk'.err = pk.err ∨ (i = .pkReset ∧ pk'.err = .ok) := by
  cases h with
  | kept => exact .inl rfl
  | reset => exact .inr ⟨rfl, rfl⟩
  | put _ clean | latch _ _ clean | finish clean => exact absurd clean he

/-- A sticky error of the unpacker stays, or is cleared by a command that puts the stream at its start. -/
theorem Unpacker.Change.sticky {cfg : Config} {up up' : Unpacker} {i : Instr} (h : Unpacker.Change cfg up i up')
    (he : up.err ≠ .ok) :
    up'.err = up.err ∨ ((i = .upReset ∨ i = .upRewind ∨ ∃ n, i = .upSetnbits n) ∧ up'.err = .ok) := by
  cases h with
  | kept | wrbyte | setnode | setroot => exact .inl rfl
  | reset => exact .inr ⟨.inl rfl, rfl⟩
  | rewind => exact .inr ⟨.inr (.inl rfl), rfl⟩
  | setnbits => exact .inr ⟨.inr (.inr ⟨_, rfl⟩), rfl⟩
  | decode answer =>
    rw [Unpacker.cmdDecode, if_pos he] at answer
    rw [respond_unit answer]
    exact .inl rfl

/-- Settles O24: by the changes a command can make to each unit. -/
theorem stickyErrorIsClearedOnlyByItsCommands : Obligations.StickyErrorIsClearedOnlyByItsCommands := by
  unfold Obligations.StickyErrorIsClearedOnlyByItsCommands
  exact fun i s t h => ⟨(exec_pk_change h).sticky, (exec_up_change h).sticky⟩

/-! ### The commands that read -/

/-- A read command changes neither unit. -/
theorem exec_read_units {i : Instr} {s t : State} (hi : (∃ idx, i = .pkRdbyte idx) ∨ i = .pkStat ∨ i = .upStat)
    (h : exec i s = .next t) : t.pk = s.pk ∧ t.up = s.up := by
  have hpk := exec_pk_change h
  have hup := exec_up_change h
  generalize t.pk = pk at hpk ⊢
  generalize t.up = up at hup ⊢
  rcases hi with ⟨idx, rfl⟩ | rfl | rfl
  all_goals
    cases hpk
    cases hup
    exact ⟨rfl, rfl⟩

/-- Settles O27: the units stay, and a command reads nothing but the parameters and the units. -/
theorem readCommandsChangeNothing : Obligations.ReadCommandsChangeNothing := by
  unfold Obligations.ReadCommandsChangeNothing
  intro i s t hi h
  obtain ⟨hpk, hup⟩ := exec_read_units hi h
  have hagain := exec_congr (s' := t) h (exec_cfg h) hpk hup
  obtain ⟨pk, up, r, rfl, -, -⟩ := exec_next h
  refine ⟨⟨r, ?_⟩, hagain⟩
  rw [← hpk, ← hup]

end Sys2Proof.Machine
end

section
/-! SUPPORT. PK.PUT's checks (40_packer.md R86) and the bits it reads of PATTERN. -/

namespace Sys2Proof.Machine

/-- A sticky status raised in the packer. -/
theorem State.afterPk_raise (s : State) {st : Status} (hst : st.stickyPk = true) :
    s.afterPk (raisePk s.pk st) = .next { s with pk := s.pk.latch st, phase := .offering ⟨st, 0#64⟩ } := by
  rw [raisePk, if_pos hst]
  rfl

/-- A sealed stream takes no code. -/
theorem exec_pkPut_sealed {s : State} (he : s.pk.err = .ok) (hs : s.pk.sealed = true) (len : BitVec 7)
    (pattern : BitVec 64) :
    exec (.pkPut len pattern) s = .next { s with phase := .offering ⟨.streamSealed, 0#64⟩ } := by
  simp [exec, execPkPut, Packer.cmdPut, he, hs, respond, State.afterPk_ok]

section
variable {s : State} {len : BitVec 7} (he : s.pk.err = .ok) (hs : s.pk.sealed = false) (pattern : BitVec 64)
include he hs

/-- PK.PUT of a length of 0. -/
theorem exec_pkPut_zero (hlen : len.toNat = 0) :
    exec (.pkPut len pattern) s =
      .next { s with pk := s.pk.latch .zeroLengthCode, phase := .offering ⟨.zeroLengthCode, 0#64⟩ } := by
  rw [← State.afterPk_raise s rfl]
  simp [exec, execPkPut, Packer.cmdPut, he, hs, hlen]

/-- PK.PUT of a length past MAX_CODE_LEN. -/
theorem exec_pkPut_long (hlen : 64 < len.toNat) :
    exec (.pkPut len pattern) s =
      .next { s with pk := s.pk.latch .codeLengthOverflow, phase := .offering ⟨.codeLengthOverflow, 0#64⟩ } := by
  rw [← State.afterPk_raise s rfl]
  simp [exec, execPkPut, Packer.cmdPut, he, hs, Config.maxCodeLen, hlen, show len.toNat ≠ 0 by omega]

/-- PK.PUT of a code that does not fit. -/
theorem exec_pkPut_full (h1 : 1 ≤ len.toNat) (h64 : len.toNat ≤ 64)
    (hfull : 8 * s.cfg.pkCapBytes < s.pk.nbits.toNat + len.toNat) :
    exec (.pkPut len pattern) s =
      .next { s with pk := s.pk.latch .bufferFull, phase := .offering ⟨.bufferFull, 0#64⟩ } := by
  rw [← State.afterPk_raise s rfl]
  simp [exec, execPkPut, Packer.cmdPut, he, hs, Config.maxCodeLen, not_lt.2 h64, hfull, show len.toNat ≠ 0 by omega]

end

/-- Settles O31: one equation for each check. -/
theorem pkPutChecksInOrder : Obligations.PkPutChecksInOrder := by
  unfold Obligations.PkPutChecksInOrder
  refine fun len pattern s => ⟨?_, fun he => exec_pkPut_sticky he len pattern,
    fun he hs => exec_pkPut_sealed he hs len pattern, ?_, fun he hs h => exec_pkPut_long he hs pattern h,
    fun he hs h1 h64 hfull => exec_pkPut_full he hs pattern h1 h64 hfull⟩
  · have hword : 0#17 ++ len ++ 0x02#8 = commandWord 0x02#8 len 0#16 := rfl
    simp [hword, decode]
  · rintro he hs rfl
    exact exec_pkPut_zero he hs pattern rfl

/-- A code is the bits of PATTERN below LEN. -/
theorem codeBits_congr {k : Nat} {pattern pattern' : BitVec 64}
    (h : ∀ j < k, pattern.getLsbD j = pattern'.getLsbD j) : codeBits k pattern = codeBits k pattern' := by
  refine List.ext_getElem (by simp) fun j hj hj' => ?_
  rw [codeBits_length] at hj
  rw [codeBits_getElem, codeBits_getElem, h _ (by omega)]

/-- Settles O32: PK.PUT appends the bits of the code, and they are those below LEN. -/
theorem pkPutIgnoresPatternBitsAboveLen : Obligations.PkPutIgnoresPatternBitsAboveLen := by
  unfold Obligations.PkPutIgnoresPatternBitsAboveLen
  intro len pattern pattern' s h
  simp only [exec, execPkPut, Packer.cmdPut, Packer.appendCode_eq, codeBits_congr h]

end Sys2Proof.Machine
end

section
/-! SUPPORT. UP.DECODE (41_unpacker.md R106): its checks before the walk, and what it answers at the end of a path in
the node table. -/

namespace Sys2Proof.Machine

/-- A sticky status raised in the unpacker is the unit latched. -/
theorem raiseUp_sticky (up : Unpacker) {st : Status} (hst : st.stickyUp = true) :
    raiseUp up st = .ok (up.latch st, ⟨st, 0#64⟩) := by
  rw [raiseUp, if_pos hst]
  rfl

section
variable {cfg : Config} {up : Unpacker} (he : up.err = .ok) (hne : up.cursor ≠ up.nbits)
include he hne

/-- No root is set. -/
theorem Unpacker.cmdDecode_noRoot (hroot : up.rootValid = false) :
    up.cmdDecode cfg = raiseUp up .malformedTree := by
  simp [Unpacker.cmdDecode, he, hne, hroot]

/-- The root is EMPTY. -/
theorem Unpacker.cmdDecode_emptyRoot (hroot : up.rootValid = true) (hin : up.root.toNat < cfg.upNodes)
    (hkind : up.rootEntry.kind = .empty) : up.cmdDecode cfg = raiseUp up .malformedTree := by
  unfold Unpacker.rootEntry at hkind
  simp [Unpacker.cmdDecode, he, hne, hroot, nodeRead_inside _ hin, hkind]

end

/-- Settles O48: one equation for each check. -/
theorem upDecodeChecksInOrder : Obligations.UpDecodeChecksInOrder := by
  unfold Obligations.UpDecodeChecksInOrder
  refine fun d s => ⟨plainForm_commandWord 0x16#8 .upDecode, exec_upDecode_sticky,
    fun he hend => exec_upDecode_ok (Unpacker.cmdDecode_done he hend), fun he hne hroot => ?_⟩
  have hraise : s.up.cmdDecode s.cfg = raiseUp s.up .malformedTree := by
    cases hset : s.up.rootValid with
    | false => exact Unpacker.cmdDecode_noRoot he hne hset
    | true =>
      obtain ⟨hin, hkind⟩ := hroot.resolve_left (by simp [hset])
      exact Unpacker.cmdDecode_emptyRoot he hne hset hin hkind
  exact exec_upDecode_ok (hraise.trans (raiseUp_sticky s.up rfl))

/-- A path to an INTERNAL entry starts at one. -/
theorem Path.internal_start {cfg : Config} {nodes : List (Nat × NodeEntry)} {n m : NodeEntry} {bits : List Bool}
    (h : Path cfg nodes n bits m) (hm : m.kind = .internal) : n.kind = .internal := by
  cases h with
  | here => exact hm
  | child internal => exact internal

section
variable {cfg : Config} {up : Unpacker} {bits : List Bool} {m : NodeEntry} (hv : cfg.Valid) (hi : up.Inv cfg)
  (he : up.err = .ok) (hroot : up.rootValid = true) (hpath : Path cfg up.nodes up.rootEntry bits m) (hr : up.Reads bits)
include hv hi he hroot hpath hr

/-- UP.DECODE at a path from an INTERNAL root to a LEAF. -/
theorem Unpacker.cmdDecode_leaf (hkind : up.rootEntry.kind = .internal) (hm : m.kind = .leaf)
    (hfits : up.cursor.toNat + bits.length ≤ up.nbits.toNat) :
    up.cmdDecode cfg = .ok (up.advanceBy bits.length, ⟨.ok, zextByte m.sym⟩) := by
  have hpos := hpath.length_pos hkind hm
  have hcount := hi.count
  have hleft := Unpacker.bitsLeft_eq hi.cursor
  have hne : up.cursor ≠ up.nbits := fun h => by rw [h] at hfits; omega
  rw [Unpacker.cmdDecode_internalRoot he hne hroot (hi.rootInside hroot) hkind,
    Unpacker.walk_leaf hpath hkind hm hr (by omega) (by omega) (upCount_lt hv le_rfl)]

/-- UP.DECODE at a path to an INTERNAL entry goes along the path, and walks on from there. -/
theorem Unpacker.cmdDecode_along (hne : up.cursor ≠ up.nbits) (hm : m.kind = .internal)
    (hfits : up.cursor.toNat + bits.length ≤ up.nbits.toNat) :
    up.cmdDecode cfg =
      Unpacker.walk cfg (up.nbits.toNat - (up.cursor.toNat + bits.length)) (up.advanceBy bits.length) m := by
  have hcount := hi.count
  have hleft := Unpacker.bitsLeft_eq hi.cursor
  rw [Unpacker.cmdDecode_internalRoot he hne hroot (hi.rootInside hroot) (hpath.internal_start hm),
    Unpacker.walk_along hpath hm hr (by omega) (by omega) (upCount_lt hv le_rfl), hleft, Nat.sub_sub]

end

/-- One pass of the loop that takes a child outside the table, or an EMPTY one (R106(b)). -/
theorem Unpacker.walk_badChild {cfg : Config} {up : Unpacker} {n : NodeEntry} {b : Bool} (k : Nat)
    (hin : up.cursor.toNat < 8 * cfg.upCapBytes) (hb : streamBit up.buf up.cursor.toNat = b)
    (hbad : cfg.upNodes ≤ n.child b ∨ (Memory.read NodeEntry.empty up.nodes (n.child b)).kind = .empty) :
    Unpacker.walk cfg (k + 1) up n = raiseUp up.advance .malformedTree := by
  rw [Unpacker.walk_succ hin hb]
  split_ifs with hout
  · rfl
  · rw [hbad.resolve_left hout]

/-- Settles O50: the walk along the path reaches the leaf. -/
theorem upDecodeEmitsTheLeafOnItsPath : Obligations.UpDecodeEmitsTheLeafOnItsPath := by
  unfold Obligations.UpDecodeEmitsTheLeafOnItsPath
  intro s bits leaf hi he hroot hkind hpath hleaf hfits hr
  exact ⟨_, Unpacker.advanceBy_cursor s.up (upCount_lt hi.cfg (hfits.trans hi.up.count)),
    exec_upDecode_ok (Unpacker.cmdDecode_leaf hi.cfg hi.up he hroot hpath hr hkind hleaf hfits)⟩

/-- Settles O51: past the path no bit is left, so the walk ends there. -/
theorem upDecodeReportsATruncatedStream : Obligations.UpDecodeReportsATruncatedStream := by
  unfold Obligations.UpDecodeReportsATruncatedStream
  intro s bits last hi he hroot hne hpath hlast hend hr
  have halong := Unpacker.cmdDecode_along hi.cfg hi.up he hroot hpath hr hne hlast hend.le
  have hcur : (s.up.advanceBy bits.length).cursor = s.up.nbits := BitVec.eq_of_toNat_eq
    ((Unpacker.advanceBy_cursor s.up (upCount_lt hi.cfg (hend.trans_le hi.up.count))).trans hend)
  rw [hend, Nat.sub_self] at halong
  rw [exec_upDecode_ok (halong.trans (raiseUp_sticky _ rfl)), ← hcur]
  rfl

/-- Settles O52: past the path one pass of the loop takes the bad child. -/
theorem upDecodeReportsABadChild : Obligations.UpDecodeReportsABadChild := by
  unfold Obligations.UpDecodeReportsABadChild
  intro s bits last b hi he hroot hpath hlast hfits hr hb hbad
  have hne : s.up.cursor ≠ s.up.nbits := fun h => by rw [h] at hfits; omega
  have hcount := hi.up.count
  have hlt := upCount_lt hi.cfg hcount
  have hcur := Unpacker.advanceBy_cursor s.up (j := bits.length) (by omega)
  have halong := Unpacker.cmdDecode_along hi.cfg hi.up he hroot hpath hr hne hlast hfits.le
  obtain ⟨k, hk⟩ := Nat.exists_eq_add_of_lt hfits
  rw [show s.up.nbits.toNat - (s.up.cursor.toNat + bits.length) = k + 1 by omega,
    Unpacker.walk_badChild (up := s.up.advanceBy bits.length) k (by omega) (by rw [hcur]; exact hb) hbad] at halong
  refine ⟨_, ?_, exec_upDecode_ok (halong.trans (raiseUp_sticky _ rfl))⟩
  rw [← hcur]
  exact Unpacker.advance_toNat _ (by omega)

/-- Settles O53: everything UP.DECODE can answer under the invariant stays within the valid bits. -/
theorem upDecodeTerminatesWithinTheValidBits : Obligations.UpDecodeTerminatesWithinTheValidBits := by
  unfold Obligations.UpDecodeTerminatesWithinTheValidBits
  intro s hi
  obtain ⟨j, st, data, heff, hj, -, hok, -⟩ := Unpacker.cmdDecode_result hi.cfg hi.up
  have hcur := Unpacker.advanceBy_cursor s.up (upCount_lt hi.cfg (hj.trans hi.up.count))
  refine ⟨_, _, exec_upDecode_ok heff, rfl, ?_⟩
  simp only [Unpacker.after_cursor, hcur]
  exact ⟨by omega, hj, fun h => by have := hok h; omega⟩

end Sys2Proof.Machine
end

section
/-! SUPPORT. One edge (30_encoding.md R63 to R65; 93_implementation_defined.md S19): the step as an equation for each
case of its guards and of the phase, so that it stops only on a broken handshake. -/

namespace Sys2Proof.Machine

/-- A broken handshake is a changed command that the host had to hold (R64). -/
theorem breaksHandshake_iff {held : Option Command} {e : Edge} :
    breaksHandshake held e = true ↔ ∃ c, held = some c ∧ e.cmdValid = true ∧ c ≠ ⟨e.cmdWord, e.cmdData⟩ := by
  cases held with
  | none => simp [breaksHandshake]
  | some c => cases hv : e.cmdValid <;> simp [breaksHandshake, Edge.offered, hv]

/-- A host that breaks the handshake is refused, unless the edge resets the block. -/
theorem step_broken {s : State} (hr : s.edge.rst = false) (hb : breaksHandshake s.held s.edge = true) :
    step s = .refused .handshakeBroken := by
  simp [step, clockEdge, hr, hb]

section
variable {s : State} (hr : s.edge.rst = false) (hb : breaksHandshake s.held s.edge = false)
include hr hb

/-- An idle block takes the command offered. -/
theorem step_accept (hp : s.phase = .idle) {c : Command} (ho : s.edge.offered = some c) :
    step s = .next (s.accept s.edge c) := by
  simp [step, clockEdge, hr, hb, hp, ho]

/-- An idle block waits while nothing is offered. -/
theorem step_wait (hp : s.phase = .idle) (ho : s.edge.offered = none) : step s = .next (s.pass s.edge) := by
  simp [step, clockEdge, hr, hb, hp, ho]

/-- The block needs a further cycle. -/
theorem step_stall {c : Command} (hp : s.phase = .busy c) (hst : s.edge.stall = true) :
    step s = .next (s.pass s.edge) := by
  simp [step, clockEdge, hr, hb, hp, hst]

/-- The block completes the command it holds. -/
theorem step_run {c : Command} (hp : s.phase = .busy c) (hst : s.edge.stall = false) :
    step s = runCommand c (s.pass s.edge) := by
  simp [step, clockEdge, hr, hb, hp, hst]

/-- The host takes the response. -/
theorem step_deliver {r : Response} (hp : s.phase = .offering r) (hrdy : s.edge.rspReady = true) :
    step s = .next (s.deliver s.edge r) := by
  simp [step, clockEdge, hr, hb, hp, hrdy]

/-- The host does not take the response yet. -/
theorem step_offer {r : Response} (hp : s.phase = .offering r) (hrdy : s.edge.rspReady = false) :
    step s = .next (s.pass s.edge) := by
  simp [step, clockEdge, hr, hb, hp, hrdy]

end

/-- The passing of an edge keeps the invariant. -/
theorem State.Inv.pass {s : State} (hs : s.Inv) (e : Edge) : (s.pass e).Inv := hs.congr rfl rfl rfl

/-- Where the handshake is kept the step answers a next state: a transaction completes under the invariant. -/
theorem step_completes {s : State} (hs : s.Inv) (hr : s.edge.rst = false)
    (hb : breaksHandshake s.held s.edge = false) : ∃ t, step s = .next t := by
  cases hp : s.phase with
  | idle =>
    cases ho : s.edge.offered with
    | none => exact ⟨_, step_wait hr hb hp ho⟩
    | some c => exact ⟨_, step_accept hr hb hp ho⟩
  | busy c =>
    cases hst : s.edge.stall with
    | true => exact ⟨_, step_stall hr hb hp hst⟩
    | false =>
      obtain ⟨t, ht⟩ := runCommand_completes c (hs.pass s.edge)
      exact ⟨t, (step_run hr hb hp hst).trans ht⟩
  | offering r =>
    cases hrdy : s.edge.rspReady with
    | true => exact ⟨_, step_deliver hr hb hp hrdy⟩
    | false => exact ⟨_, step_offer hr hb hp hrdy⟩

/-- Settles O20: by the reset pin, then by the handshake. -/
theorem stepStopsOnlyOnABrokenHandshake : Obligations.StepStopsOnlyOnABrokenHandshake := by
  unfold Obligations.StepStopsOnlyOnABrokenHandshake
  intro s hs
  cases hr : s.edge.rst with
  | true => exact .inl ⟨_, step_of_rst hr⟩
  | false =>
    cases hb : breaksHandshake s.held s.edge with
    | true => exact .inr ⟨step_broken hr hb, rfl, breaksHandshake_iff.1 hb⟩
    | false => exact .inl (step_completes hs hr hb)

/-- Settles O12: the guard of the handshake comes before the phase. -/
theorem brokenHandshakeIsRefused : Obligations.BrokenHandshakeIsRefused := by
  unfold Obligations.BrokenHandshakeIsRefused
  exact fun s c hheld hr hvalid hne => step_broken hr (breaksHandshake_iff.2 ⟨c, hheld, hvalid, hne.symm⟩)

/-- Settles O7: the step is the transaction of the command held, whose words decode. -/
theorem stepRunsTheDecodedCommand : Obligations.StepRunsTheDecodedCommand := by
  unfold Obligations.StepRunsTheDecodedCommand
  exact fun s c i hp hd hr hb hst => (step_run hr hb hp hst).trans (runCommand_ok hd _)

/-- At a quiet edge nothing is offered, so no handshake is broken. -/
theorem breaksHandshake_quiet (held : Option Command) : breaksHandshake held Edge.quiet = false := by
  cases held <;> rfl

/-- The words of a table row decode as a command. -/
theorem decode_tableCommand {nbits w : Nat} {i : Instr} (h : decodeTableWord nbits w = some i) :
    decode (tableCommand nbits w) = .ok i := by
  unfold decodeTableWord at h
  split at h
  · cases h
    assumption
  · cases h

/-- Settles O8: the placed command is held at a quiet edge. -/
theorem placedWordIsRunByTheNextStep : Obligations.PlacedWordIsRunByTheNextStep := by
  unfold Obligations.PlacedWordIsRunByTheNextStep
  intro s nbits w i h
  exact stepRunsTheDecodedCommand (s.withFetchWord nbits w) (tableCommand nbits w) i rfl (decode_tableCommand h) rfl
    (breaksHandshake_quiet s.held) rfl

/-- Settles O58: the reset edge is the reset state, with the host's side carried on. -/
theorem resetPinLeavesTheModelsResetState : Obligations.ResetPinLeavesTheModelsResetState := by
  unfold Obligations.ResetPinLeavesTheModelsResetState
  exact fun s h => step_of_rst h

/-! ### The handshake by its pins -/

theorem Edge.offered_valid {e : Edge} (h : e.cmdValid = true) : e.offered = some ⟨e.cmdWord, e.cmdData⟩ := by
  simp [Edge.offered, h]

theorem Edge.offered_invalid {e : Edge} (h : e.cmdValid = false) : e.offered = none := by
  simp [Edge.offered, h]

/-- Out of reset the block is ready exactly when the port is idle (R65). -/
theorem State.cmdReady_iff {s : State} (hr : s.edge.rst = false) : s.cmdReady = true ↔ s.phase = .idle := by
  simp [State.cmdReady, hr]

/-- Settles O10: the block is ready when idle; in the other phases no step makes it busy. -/
theorem commandTransfersWhenValidAndReady : Obligations.CommandTransfersWhenValidAndReady := by
  unfold Obligations.CommandTransfersWhenValidAndReady
  intro s hr hb
  refine ⟨fun hready hvalid => ?_, fun hready hvalid => ?_, fun hready t h c hc => ?_⟩
  · exact step_accept hr hb ((State.cmdReady_iff hr).1 hready) (Edge.offered_valid hvalid)
  · rw [step_wait hr hb ((State.cmdReady_iff hr).1 hready) (Edge.offered_invalid hvalid), State.pass,
      Edge.offered_invalid hvalid]
  · have hbusy : s.phase ≠ .idle := fun hp => by rw [(State.cmdReady_iff hr).2 hp] at hready; cases hready
    rcases step_cases h with ⟨hrst, -⟩ | ⟨-, -, ⟨hp, -⟩ | ⟨hp, -⟩ | ⟨c', hp, -, rfl⟩ | ⟨c', hp, -, hrun⟩ |
      ⟨r, -, -, rfl⟩ | ⟨r, hp, -, rfl⟩⟩
    · cases hrst.symm.trans hr
    · exact absurd hp hbusy
    · exact absurd hp hbusy
    · exact hc
    · obtain ⟨-, -, -, -, r, hoff⟩ := runCommand_frame hrun
      cases hoff.symm.trans hc
    · cases hc
    · exact hc

/-- The response offered is on the pins while rst = 0. -/
theorem State.rspOffered_offering {s : State} {r : Response} (hp : s.phase = .offering r) (hr : s.edge.rst = false) :
    s.rspOffered = some r := by
  simp [State.rspOffered, hp, hr]

/-- Settles O11: by the pins in the phase that offers, and by its two steps. -/
theorem responseHoldsUntilItTransfers : Obligations.ResponseHoldsUntilItTransfers := by
  unfold Obligations.ResponseHoldsUntilItTransfers
  intro s r hp hr hb
  have hpins := State.rspOffered_offering hp hr
  refine ⟨by simp [State.cmdReady, hp], by simp [State.rspStatus, hpins], by simp [State.rspData, hpins],
    fun hrdy => step_deliver hr hb hp hrdy, fun hrdy => step_offer hr hb hp hrdy⟩

end Sys2Proof.Machine
end

section
/-! SUPPORT. A held command is answered (70_reset_and_hazards.md R151): the script of edges is finite, and the edge
after it is quiet. -/

namespace Sys2Proof.Machine

/-- A run of one step more. -/
theorem run_succ {s t : State} (h : step s = .next t) (k : Nat) :
    Host.Core.run Sys2Proof.core (k + 1) s = Host.Core.run Sys2Proof.core k t := by
  simp only [Host.Core.run, Sys2Proof.core]
  rw [h]

/-- The edge that completes a command offers its response. -/
theorem step_answers {s : State} {c : Command} (hs : s.Inv) (hp : s.phase = .busy c) (hr : s.edge.rst = false)
    (hb : breaksHandshake s.held s.edge = false) (hst : s.edge.stall = false) :
    ∃ t r, Host.Core.run Sys2Proof.core 1 s = .next t ∧ t.phase = .offering r := by
  obtain ⟨t, ht⟩ := runCommand_completes c (hs.pass s.edge)
  obtain ⟨-, -, -, -, r, hoff⟩ := runCommand_frame ht
  exact ⟨t, r, run_succ ((step_run hr hb hp hst).trans ht) 0, hoff⟩

/-- Settles O15: by induction on the script; an edge that stalls uses up one of its entries, and a quiet edge does not
stall. -/
theorem heldCommandIsAnswered : Obligations.HeldCommandIsAnswered := by
  unfold Obligations.HeldCommandIsAnswered
  intro s c hs hp hrst hkeeps
  generalize hedges : s.edges = edges at hrst hkeeps
  induction edges generalizing s with
  | nil =>
    have hedge : s.edge = Edge.quiet := by rw [State.edge, hedges]; rfl
    obtain ⟨t, r, hrun, hoff⟩ := step_answers hs hp (by rw [hedge]; rfl) (by rw [hedge]; exact breaksHandshake_quiet _)
      (by rw [hedge]; rfl)
    exact ⟨1, t, r, le_rfl, hrun, hoff⟩
  | cons e edges ih =>
    have hedge : s.edge = e := by rw [State.edge, hedges]; rfl
    obtain ⟨hr, hrst'⟩ := List.forall_mem_cons.1 hrst
    obtain ⟨hb, hkeeps'⟩ := keepsHandshake_cons.1 hkeeps
    rw [← hedge] at hr hb hkeeps'
    cases hst : s.edge.stall with
    | false =>
      obtain ⟨t, r, hrun, hoff⟩ := step_answers hs hp hr hb hst
      exact ⟨1, t, r, by omega, hrun, hoff⟩
    | true =>
      obtain ⟨k, t, r, hk, hrun, hoff⟩ := ih (s.pass s.edge) (hs.pass _) hp (by simp [hedges]) hrst' hkeeps'
      refine ⟨k + 1, t, r, ?_, (run_succ (step_stall hr hb hp hst) k).trans hrun, hoff⟩
      rw [List.length_cons]
      omega

end Sys2Proof.Machine
end

section
/-! SUPPORT. The state after reset (10_state.md R42). -/

namespace Sys2Proof.Machine

/-- The reset state of a legal build meets every invariant. -/
theorem State.resetWith_invariants {cfg : Config} (hv : cfg.Valid) :
    (State.resetWith cfg).Inv ∧ (State.resetWith cfg).PortInv ∧ (State.resetWith cfg).Faithful :=
  ⟨⟨hv, Packer.reset_inv cfg, Unpacker.reset_inv cfg⟩, (State.portInv_idle rfl).2 ⟨rfl, rfl⟩,
    (State.faithful_idle rfl).2 .start⟩

/-- Settles O17: the reference build is legal. -/
theorem resetMeetsTheInvariants : Obligations.ResetMeetsTheInvariants := by
  unfold Obligations.ResetMeetsTheInvariants
  exact ⟨fun _ => State.resetWith_invariants, State.resetWith_invariants (by decide)⟩

end Sys2Proof.Machine
end

section
/-! SUPPORT. The packer's output of a run (70_reset_and_hazards.md R153): PK.SEALED is what the run says of PK.FINISH,
and finishing and reading gives the stream. -/

namespace Sys2Proof.Machine

/-- What a command does to PK.SEALED, by its answer (10_state.md R27; 40_packer.md R85, R89). -/
theorem exec_sealed {i : Instr} {s t : State} {r : Response} (h : exec i s = .next t) (hr : t.phase = .offering r) :
    t.pk.sealed = if i = .pkReset then false
      else if i = .pkFinish then decide (r.status = .ok) || s.pk.sealed else s.pk.sealed := by
  split_ifs with hreset hfinish
  · subst hreset
    cases h
    rfl
  · subst hfinish
    by_cases he : s.pk.err = .ok
    · cases (exec_pkFinish_clean he).symm.trans h
      cases hr
      rfl
    · cases (exec_pkFinish_sticky he).symm.trans h
      cases hr
      simp [he]
  · obtain ⟨-, -, hsealed, -⟩ := (exec_pk_change h).writes
    simpa [hreset, hfinish] using hsealed

/-- The same of a transaction of the run, illegal words among them. -/
theorem runCommand_sealed {c : Command} {s t : State} {r : Response} {before : List PortEvent}
    (hs : s.pk.sealed = finished before) (h : runCommand c s = .next t) (hr : t.phase = .offering r) :
    t.pk.sealed = finished (.response r :: .command c :: before) := by
  rw [finished_answered, ← hs]
  cases hd : decode c with
  | ok i =>
    rw [runCommand_ok hd] at h
    simpa using exec_sealed h hr
  | error why =>
    cases (runCommand_error hd s).symm.trans h
    simp

/-- Every run leaves PK.SEALED as `finished` says. -/
theorem Replays.sealed {cfg : Config} {trace : List PortEvent} {pk : Packer} {up : Unpacker}
    (h : Replays cfg trace pk up) : pk.sealed = finished trace := by
  induction h with
  | start => rfl
  | reset before => rfl
  | answered prior ran answer ih => exact runCommand_sealed ih ran answer

/-- Settles O59: by induction on the run. -/
theorem runIsFinishedExactlyWhenSealed : Obligations.RunIsFinishedExactlyWhenSealed := by
  unfold Obligations.RunIsFinishedExactlyWhenSealed
  intro s hs hp
  have hsealed := ((State.faithful_idle hp).1 hs).sealed
  refine ⟨hsealed, ?_⟩
  split_ifs with h
  · exact packedStream_of_finished hp (hsealed.symm.trans h)
  · exact packedStream_of_unfinished (hsealed.symm.trans (by simpa using h))

/-! ### Finishing and reading -/

/-- PK.RDBYTE for the bytes at the indices `is`, in order. -/
def readCommands (is : List Nat) : List Instr := is.map fun i => .pkRdbyte (BitVec.ofNat 16 i)

theorem finishAndRead_eq (pk : Packer) : finishAndRead pk = .pkFinish :: readCommands (List.range pk.nbytes) := rfl

/-- An index of the stream survives the 16 bits of IDX (00_scope.md R7). -/
theorem streamIndex_toNat {cfg : Config} {pk : Packer} (hv : cfg.Valid) (hi : pk.Inv cfg) {i : Nat}
    (h : i < pk.nbytes) : (BitVec.ofNat 16 i).toNat = i := by
  have hmax : cfg.pkCapBytes ≤ 65536 := hv.1.2
  have hbytes : pk.nbytes ≤ cfg.pkCapBytes := ceil8_le hi.count
  rw [BitVec.toNat_ofNat, Nat.mod_eq_of_lt (by omega)]

/-- Reads of the stream are all answered OK with its bytes, and change nothing in the packer. -/
theorem execAll_readCommands {is : List Nat} {s : State} (hs : s.Inv) (his : ∀ i ∈ is, i < s.pk.nbytes) :
    ∃ t, execAll (readCommands is) s =
        some (t, is.map fun i => ⟨.ok, zextByte (Memory.read unlistedByte s.pk.buf i)⟩) ∧ t.pk = s.pk := by
  induction is generalizing s with
  | nil => exact ⟨s, rfl, rfl⟩
  | cons i is ih =>
    obtain ⟨hi, hrest⟩ := List.forall_mem_cons.1 his
    have hidx := streamIndex_toNat hs.cfg hs.pk hi
    have hread := exec_pkRdbyte_inside (idx := BitVec.ofNat 16 i) hs.pk.count (hidx.symm ▸ hi)
    rw [hidx] at hread
    obtain ⟨t, hrun, hpk⟩ := ih (exec_inv hs hread) hrest
    exact ⟨t, execAll_cons_iff.2 ⟨_, _, _, hread, rfl, hrun, rfl⟩, hpk⟩

/-- A packer with an error is not sealed (10_state.md R29(c)). -/
theorem Packer.Inv.unsealed {cfg : Config} {pk : Packer} (hi : pk.Inv cfg) (he : pk.err ≠ .ok) : pk.sealed = false := by
  cases hs : pk.sealed with
  | false => rfl
  | true => exact absurd (hi.sealedClean hs) he

/-- Settles O60: PK.FINISH seals a clean stream and keeps it, and the reads follow. -/
theorem finishingThenReadingGivesThePackedStream : Obligations.FinishingThenReadingGivesThePackedStream := by
  unfold Obligations.FinishingThenReadingGivesThePackedStream
  refine fun s hs => ⟨fun he => ?_, fun he => ⟨hs.pk.unsealed he, exec_pkFinish_sticky he⟩⟩
  have hfinish := exec_pkFinish_clean he
  obtain ⟨t, hreads, hpk⟩ := execAll_readCommands (is := List.range s.pk.nbytes) (exec_inv hs hfinish)
    fun i hi => List.mem_range.1 hi
  refine ⟨t, ?_, hpk, by rw [hpk]; rfl⟩
  rw [finishAndRead_eq]
  refine execAll_cons_iff.2 ⟨_, _, _, hfinish, rfl, hreads, ?_⟩
  simp [Packer.stream, zextCount, zextByte]

end Sys2Proof.Machine
end

section
/-! SUPPORT. The disassembly (30_encoding.md R82): its text for each kind of words. -/

namespace Sys2Proof.Machine

/-- Words that are no command. -/
theorem disassemble_illegal {c : Command} {why : IllegalWord} (h : decode c = .error why) :
    disassemble c = ".illegal " ++ hexText 8 c.word.toNat := by
  simp [disassemble, h]

/-- Words of a command. -/
theorem disassemble_command {c : Command} {i : Instr} (h : decode c = .ok i) :
    disassemble c = commandText i c.data := by
  simp [disassemble, h]

/-- A command's text starts with its mnemonic. -/
theorem commandText_mnemonic (i : Instr) (d : BitVec 64) : ∃ fields, commandText i d = i.mnemonic ++ fields := by
  cases i with
  | nop | pkReset | pkFinish | pkStat | upReset | upRewind | upDecode | upStat => exact ⟨"", String.append_empty.symm⟩
  | pkRdbyte | upSetnbits | upSetroot => exact ⟨_, String.append_assoc⟩
  | pkPut | upWrbyte | upSetnode => exact ⟨_, by simp only [commandText, String.append_assoc]; rfl⟩

/-- The reserved KIND prints the whole data word. -/
theorem nodeText_reserved {d : BitVec 64} (h : kindField d = 3#2) : nodeText d = "KIND3 " ++ hexText 16 d.toNat := by
  simp [nodeText, h]

/-- Settles O57: by the kind of words; the two words of the spec by evaluation. -/
theorem disassemblyOfSpecWords : Obligations.DisassemblyOfSpecWords := by
  unfold Obligations.DisassemblyOfSpecWords
  refine ⟨by decide, by decide, fun c why => disassemble_illegal, fun idx d hkind => ?_, fun c i h => ?_⟩
  · have hword : idx ++ 0x0014#16 = commandWord 0x14#8 0#7 idx := append_eq_commandWord idx 0x14#8
    have hdec : decode ⟨idx ++ 0x0014#16, d⟩ =
        .ok (.upSetnode idx (kindField d) (symOperand d) (leftOperand d) (rightOperand d)) := by
      simp [hword, decode]
    rw [disassemble_command hdec, commandText, nodeText_reserved hkind]
    have hname : "UP.SETNODE " = "UP.SETNODE" ++ " " := by decide
    have hkind3 : ", KIND3 " = ", " ++ "KIND3 " := by decide
    simp only [hname, hkind3, Instr.mnemonic, String.append_assoc]
  · rw [disassemble_command h]
    exact commandText_mnemonic i c.data

end Sys2Proof.Machine
end

section
/-! SUPPORT. The pseudo-instructions (30_encoding.md R81): the binary digits of PK.PUTB are the bits of the code, and
UP.LOAD is the statements of its expansion. -/

namespace Sys2Proof.Machine

/-! ### Binary digits -/

/-- The digits of base 2. -/
theorem digitValue_two_eq_some {c : Char} {v : Nat} (h : digitValue 2 c = some v) : c = '0' ∨ c = '1' := by
  unfold digitValue at h
  simp only at h
  split_ifs at h with hdecimal hlt hletter hlt hlt
  · have hlow : 48 ≤ c.toNat := hdecimal.1
    have hlt : c.toNat - 48 < 2 := hlt
    rcases (by omega : c.toNat = 48 ∨ c.toNat = 49) with h48 | h49
    · exact .inl (Char.toNat_inj.1 h48)
    · exact .inr (Char.toNat_inj.1 h49)
  · exact absurd hlt (by omega)
  · exact absurd hlt (by omega)

/-- A number in base 2 has binary digits only. -/
theorem binary_of_digitsValue {ds : List Char} {acc v : Nat} (h : digitsValue 2 ds acc = some v) :
    ∀ c ∈ ds, c = '0' ∨ c = '1' := by
  induction ds generalizing acc with
  | nil => simp
  | cons c ds ih =>
    unfold digitsValue at h
    split at h
    · next d hd => exact List.forall_mem_cons.2 ⟨digitValue_two_eq_some hd, ih h⟩
    · cases h

/-- Binary digits after those whose value is `acc` have a value: `acc` stands above them, and they are the bits of the
code below, first digit first. -/
theorem digitsValue_two {ds : List Char} (h : ∀ c ∈ ds, c = '0' ∨ c = '1') (hlen : ds.length ≤ 64) (acc : Nat) :
    ∃ v, digitsValue 2 ds acc = some v ∧ v / 2 ^ ds.length = acc ∧
      codeBits ds.length (BitVec.ofNat 64 v) = ds.map (· == '1') := by
  induction ds generalizing acc with
  | nil => exact ⟨acc, rfl, by simp, rfl⟩
  | cons c ds ih =>
    obtain ⟨hc, hds⟩ := List.forall_mem_cons.1 h
    rw [List.length_cons] at hlen
    have hdigit : ∃ d, digitValue 2 c = some d ∧ d < 2 ∧ (c == '1') = decide (d = 1) := by
      rcases hc with rfl | rfl
      · exact ⟨0, by decide⟩
      · exact ⟨1, by decide⟩
    obtain ⟨d, hd, hlt, hbit⟩ := hdigit
    obtain ⟨v, hv, hhigh, hbits⟩ := ih hds (by omega) (acc * 2 + d)
    refine ⟨v, by simp only [digitsValue, hd, hv], ?_, ?_⟩
    · rw [List.length_cons, Nat.pow_succ, ← Nat.div_div_eq_div_mul, hhigh]
      omega
    · have hmod : (acc * 2 + d) % 2 = d := by omega
      rw [List.length_cons, codeBits_succ, hbits, List.map_cons, hbit, BitVec.getLsbD_ofNat,
        Nat.testBit_eq_decide_div_mod_eq, hhigh, hmod]
      simp [show ds.length < 64 by omega]

/-- After `0b` a number is its binary digits. -/
theorem numberValue_binary {ds : List Char} (h : ds ≠ []) : numberValue ('0' :: 'B' :: ds) = digitsValue 2 ds 0 := by
  cases ds with
  | nil => exact absurd rfl h
  | cons => rfl

/-! ### PK.PUTB -/

theorem statement_putb (code : List Token) :
    statement "PK.PUTB" [code] = (binaryCode code).map fun i => [i] := rfl

/-- PK.PUTB takes the words of 1 to 64 binary digits. -/
theorem binaryCode_of_digitsValue {ds : List Char} {v : Nat} (hv : digitsValue 2 ds 0 = some v) (h1 : 1 ≤ ds.length)
    (h64 : ds.length ≤ 64) :
    binaryCode [.word ds] = .ok (.pkPut (BitVec.ofNat 7 ds.length) (BitVec.ofNat 64 v)) := by
  simp [binaryCode, hv, h1, h64]

/-- PK.PUTB takes no other word. -/
theorem binary_of_binaryCode {ds : List Char} {i : Instr} (h : binaryCode [.word ds] = .ok i) :
    1 ≤ ds.length ∧ ds.length ≤ 64 ∧ ∀ c ∈ ds, c = '0' ∨ c = '1' := by
  simp only [binaryCode] at h
  split at h
  · next v hv =>
    split_ifs at h with hlen
    exact ⟨hlen.1, hlen.2, binary_of_digitsValue hv⟩
  · cases h

/-- PK.PUT of a length and of a pattern in binary. -/
theorem statement_put {k v : Nat} {ds : List Char} (hk : k < 128) (hds : ds ≠ []) (hv : digitsValue 2 ds 0 = some v)
    (hlt : v < 2 ^ 64) :
    statement "PK.PUT" [decimalOperand k, [.word ('0' :: 'B' :: ds)]] =
      .ok [.pkPut (BitVec.ofNat 7 k) (BitVec.ofNat 64 v)] := by
  have hlen : numberOperand 128 (decimalOperand k) = .ok k := by rw [numberOperand_decimalOperand, if_pos hk]
  have hpattern : numberOperand (2 ^ 64) [.word ('0' :: 'B' :: ds)] = .ok v := by
    simp only [numberOperand, numberValue_binary hds, hv, if_pos hlt]
  change (numberOperand 128 (decimalOperand k)).bind _ = _
  rw [hlen]
  change (numberOperand (2 ^ 64) [.word ('0' :: 'B' :: ds)]).bind _ = _
  rw [hpattern]
  rfl

/-- PK.PUTB of 1 to 64 binary digits is PK.PUT of their number and value, and the code is the digits in order. -/
theorem statement_putb_digits {ds : List Char} (h1 : 1 ≤ ds.length) (h64 : ds.length ≤ 64)
    (hds : ∀ c ∈ ds, c = '0' ∨ c = '1') :
    statement "PK.PUTB" [[.word ds]] =
      statement "PK.PUT" [decimalOperand ds.length, [.word ('0' :: 'B' :: ds)]] ∧
    ∃ pattern, statement "PK.PUTB" [[.word ds]] = .ok [.pkPut (BitVec.ofNat 7 ds.length) pattern] ∧
      codeBits ds.length pattern = ds.map (· == '1') := by
  obtain ⟨v, hv, hhigh, hbits⟩ := digitsValue_two hds h64 0
  have hlt : v < 2 ^ 64 := calc
    v < 2 ^ ds.length := by simpa [Nat.div_eq_zero_iff] using hhigh
    _ ≤ 2 ^ 64 := Nat.pow_le_pow_right (by omega) h64
  have hputb : statement "PK.PUTB" [[.word ds]] =
      .ok [.pkPut (BitVec.ofNat 7 ds.length) (BitVec.ofNat 64 v)] := by
    rw [statement_putb, binaryCode_of_digitsValue hv h1 h64]
    rfl
  exact ⟨hputb.trans (statement_put (by omega) (List.length_pos_iff.1 h1) hv hlt).symm, _, hputb, hbits⟩

/-! ### UP.LOAD -/

/-- Two computations in sequence answer when the first does, and the second on its answer. -/
theorem bind_eq_ok_iff {ε α β : Type} {x : Except ε α} {f : α → Except ε β} {b : β} :
    (x >>= f) = .ok b ↔ ∃ a, x = .ok a ∧ f a = .ok b := by
  cases x <;> simp [bind, Except.bind]

theorem statements_cons_iff {mnemonic : String} {ops : List (List Token)} {rest : List (String × List (List Token))}
    {instrs : List Instr} : statements ((mnemonic, ops) :: rest) = .ok instrs ↔
      ∃ first others, statement mnemonic ops = .ok first ∧ statements rest = .ok others ∧ instrs = first ++ others := by
  simp only [statements, bind_eq_ok_iff, pure, Except.pure, Except.ok.injEq]
  exact ⟨fun ⟨first, hfirst, others, hothers, h⟩ => ⟨first, others, hfirst, hothers, h.symm⟩,
    fun ⟨first, others, hfirst, hothers, h⟩ => ⟨first, hfirst, others, hothers, h.symm⟩⟩

theorem statements_singleton (mnemonic : String) (ops : List (List Token)) :
    statements [(mnemonic, ops)] = statement mnemonic ops := by
  unfold statements
  cases statement mnemonic ops with
  | ok first => exact congrArg Except.ok (List.append_nil first)
  | error e => rfl

/-- Statements in two parts. -/
theorem statements_append_iff {xs ys : List (String × List (List Token))} {instrs : List Instr} :
    statements (xs ++ ys) = .ok instrs ↔
      ∃ is js, statements xs = .ok is ∧ statements ys = .ok js ∧ instrs = is ++ js := by
  induction xs generalizing instrs with
  | nil => simp [statements]
  | cons x xs ih =>
    rw [List.cons_append, statements_cons_iff]
    constructor
    · rintro ⟨first, others, hfirst, hothers, rfl⟩
      obtain ⟨is, js, his, hjs, rfl⟩ := ih.1 hothers
      exact ⟨first ++ is, js, statements_cons_iff.2 ⟨first, is, hfirst, his, rfl⟩, hjs, (List.append_assoc _ _ _).symm⟩
    · rintro ⟨is, js, his, hjs, rfl⟩
      obtain ⟨first, others, hfirst, hothers, rfl⟩ := statements_cons_iff.1 his
      exact ⟨first, others ++ js, hfirst, ih.2 ⟨others, js, hothers, hjs, rfl⟩, List.append_assoc _ _ _⟩

/-- An index written in decimal is the operand of its value, where it is one. -/
theorem indexOperand_decimalOperand_iff {i : Nat} {idx : Index} :
    indexOperand (decimalOperand i) = .ok idx ↔ i < 65536 ∧ idx = BitVec.ofNat 16 i := by
  simp only [indexOperand, bind_eq_ok_iff, numberOperand_decimalOperand, pure, Except.pure, Except.ok.injEq]
  split_ifs with h <;> simp [h, eq_comm]

theorem statement_wrbyte_iff {i : Nat} {byte : List Token} {instrs : List Instr} :
    statement "UP.WRBYTE" [decimalOperand i, byte] = .ok instrs ↔
      i < 65536 ∧ ∃ v, numberOperand 256 byte = .ok v ∧
        instrs = [.upWrbyte (BitVec.ofNat 16 i) (BitVec.ofNat 8 v)] := by
  have hrow : statement "UP.WRBYTE" [decimalOperand i, byte] = (do
      let idx ← indexOperand (decimalOperand i)
      let v ← numberOperand 256 byte
      return [.upWrbyte idx (BitVec.ofNat 8 v)]) := rfl
  simp only [hrow, bind_eq_ok_iff, indexOperand_decimalOperand_iff, pure, Except.pure, Except.ok.injEq]
  constructor
  · rintro ⟨_, ⟨hi, rfl⟩, v, hv, rfl⟩
    exact ⟨hi, v, hv, rfl⟩
  · rintro ⟨hi, v, hv, rfl⟩
    exact ⟨_, ⟨hi, rfl⟩, v, hv, rfl⟩

theorem statement_setnbits_iff {n : List Token} {instrs : List Instr} :
    statement "UP.SETNBITS" [n] = .ok instrs ↔
      ∃ v, numberOperand (2 ^ 64) n = .ok v ∧ instrs = [.upSetnbits (BitVec.ofNat 64 v)] := by
  have hrow : statement "UP.SETNBITS" [n] = (do
      let v ← numberOperand (2 ^ 64) n
      return [.upSetnbits (BitVec.ofNat 64 v)]) := rfl
  simp only [hrow, bind_eq_ok_iff, pure, Except.pure, Except.ok.injEq, eq_comm (a := instrs)]

theorem loadBytes_cons_iff {i : Nat} {byte : List Token} {bytes : List (List Token)} {instrs : List Instr} :
    loadBytes i (byte :: bytes) = .ok instrs ↔
      i < 65536 ∧ ∃ v rest, numberOperand 256 byte = .ok v ∧ loadBytes (i + 1) bytes = .ok rest ∧
        instrs = .upWrbyte (BitVec.ofNat 16 i) (BitVec.ofNat 8 v) :: rest := by
  simp only [loadBytes, bind_eq_ok_iff]
  split_ifs with h <;> simp [h, pure, Except.pure, eq_comm]

/-- UP.WRBYTE for each byte operand, from index `i` on. -/
def writeStatements (i : Nat) (bytes : List (List Token)) : List (String × List (List Token)) :=
  (bytes.zipIdx i).map fun b => ("UP.WRBYTE", [decimalOperand b.2, b.1])

theorem loadExpansion_eq (n : List Token) (bytes : List (List Token)) :
    loadExpansion n bytes = writeStatements 0 bytes ++ [("UP.SETNBITS", [n])] := rfl

/-- The writes of UP.LOAD are the UP.WRBYTE statements, byte by byte. -/
theorem statements_writeStatements_iff {i : Nat} {bytes : List (List Token)} {instrs : List Instr} :
    statements (writeStatements i bytes) = .ok instrs ↔ loadBytes i bytes = .ok instrs := by
  induction bytes generalizing i instrs with
  | nil => rfl
  | cons byte bytes ih =>
    have hcons : writeStatements i (byte :: bytes) =
        ("UP.WRBYTE", [decimalOperand i, byte]) :: writeStatements (i + 1) bytes := rfl
    simp only [hcons, statements_cons_iff, statement_wrbyte_iff, ih, loadBytes_cons_iff]
    constructor
    · rintro ⟨_, rest, ⟨hi, v, hv, rfl⟩, hrest, rfl⟩
      exact ⟨hi, v, rest, hv, hrest, rfl⟩
    · rintro ⟨hi, v, rest, hv, hrest, rfl⟩
      exact ⟨_, rest, ⟨hi, v, hv, rfl⟩, hrest, rfl⟩

/-- UP.LOAD is the statements of its expansion, in order, where each of those is one. -/
theorem statement_load_iff {n : List Token} {bytes : List (List Token)} {instrs : List Instr} (hbytes : bytes ≠ []) :
    statement "UP.LOAD" (n :: bytes) = .ok instrs ↔ statements (loadExpansion n bytes) = .ok instrs := by
  obtain ⟨b, bs, rfl⟩ := List.exists_cons_of_ne_nil hbytes
  have hrow : statement "UP.LOAD" (n :: b :: bs) = (do
      let v ← numberOperand (2 ^ 64) n
      let writes ← loadBytes 0 (b :: bs)
      return writes ++ [.upSetnbits (BitVec.ofNat 64 v)]) := rfl
  simp only [hrow, loadExpansion_eq, statements_append_iff, statements_writeStatements_iff, statements_singleton,
    statement_setnbits_iff, bind_eq_ok_iff, pure, Except.pure, Except.ok.injEq]
  constructor
  · rintro ⟨v, hv, writes, hwrites, rfl⟩
    exact ⟨writes, _, hwrites, ⟨v, hv, rfl⟩, rfl⟩
  · rintro ⟨writes, _, hwrites, ⟨v, hv, rfl⟩, rfl⟩
    exact ⟨v, hv, writes, hwrites, rfl⟩

/-- Settles O56: UP.LEAF, UP.NODE and UP.CLEAR are defined as their expansions; PK.PUTB and UP.LOAD by the value of
their digits and byte by byte. -/
theorem pseudoInstructionsExpand : Obligations.PseudoInstructionsExpand := by
  unfold Obligations.PseudoInstructionsExpand
  refine ⟨fun _ _ => rfl, fun _ _ _ => rfl, fun _ => rfl, fun ds => statement_putb_digits, fun ds instrs h => ?_,
    fun n bytes instrs => statement_load_iff⟩
  cases hcode : binaryCode [.word ds] with
  | ok i => exact binary_of_binaryCode hcode
  | error e =>
    rw [statement_putb, hcode] at h
    cases h

end Sys2Proof.Machine
end
